-- ==== Sys2Proof/Word.lean ====
section
/-! DEFINITION. The plain vocabulary of the model: levels, register words, addresses, the two variants and the
two directions (00_scope.md R2, R7, R10, R12; 10_state.md R24). -/

namespace Sys2Proof

/-- A level on a wire (00_scope.md R10): `false` is 0 (low), `true` is 1 (high). -/
abbrev Level := Bool

/-- The 10-bit assembled address `ADDR` (10_state.md R24). -/
abbrev Addr := BitVec 10

/-- The 16-bit register word, the unit of every access (20_memory.md R41). -/
abbrev RegWord := BitVec 16

/-- The two protocol variants, and with them the two engine instances `E_MDIO` and `E_TWS`
(00_scope.md R2, 10_state.md R32). -/
inductive Variant where
  | mdio
  | tws
  deriving DecidableEq, Repr, Inhabited

/-- The register `DIR`: `RD = 0`, `WR = 1` (10_state.md R24). -/
inductive Dir where
  | rd
  | wr
  deriving DecidableEq, Repr, Inhabited

end Sys2Proof
end

