-- ==== Sys2Proof/Config.lean ====
section
/-! DEFINITION. What is fixed for a machine (the variant record's shape, 10_state.md R27), the parameters the spec
leaves open (00_scope.md R6, 93_implementation_defined.md U13), what the devices on the wires have heard, and the free
values (U1, U2, U5, U9, U14). An opaque constant has no body: nothing can be proved of its value. -/

namespace Sys2Proof

/-- `V.ADDR_FMT`, how the ten address cells are made up (00_scope.md R6; 30_encoding.md R64, R65). -/
inductive AddrFormat where
  /-- `PHYAD[4:0] ‖ REGAD[4:0]` -/
  | phyadRegad
  /-- `0b00 ‖ REG[7:0]` -/
  | headerReg
  deriving DecidableEq, Repr, Inhabited

/-- The variant record `V` of an engine instance (10_state.md R27); the values are `variantRecord` in Decode.lean.
A pair is in transmission order. -/
structure VariantRecord where
  name : Variant
  preLen : Nat
  st : Level × Level
  opRd : Level × Level
  opWr : Level × Level
  addrLen : Nat
  addrFmt : AddrFormat
  taLen : Nat
  taWr : Level × Level
  dataLen : Nat
  tBit : Nat
  tSetup : Nat
  deriving DecidableEq, Repr, Inhabited

/-- `V.N_CELLS = PRE_LEN + 2 + 2 + ADDR_LEN + TA_LEN + DATA_LEN` (00_scope.md R6). -/
def VariantRecord.nCells (V : VariantRecord) : Nat :=
  V.preLen + 2 + 2 + V.addrLen + V.taLen + V.dataLen

/-- `PHY_BUS` with `CMD_REG` and `DATA_REG`: the variant that carries the composite operations and, in that
variant's own address form, the two registers (43_phy_wrappers.md R120). -/
inductive PhyPort where
  | mdio (cmdPhyad cmdRegad dataPhyad dataRegad : BitVec 5)
  | tws (cmdReg dataReg : BitVec 8)
  deriving DecidableEq, Repr, Inhabited

/-- The open parameters of the composite operations (43_phy_wrappers.md R120): where they go, how wide `preg` is,
and the command word, a total function of the direction and of `preg`. -/
structure PhyParams where
  port : PhyPort
  pregWidth : Nat
  cmdWord : Dir → Nat → RegWord
  deriving Inhabited

/-- The composite parameters of this machine: OPEN (decision D17), so no value can be proved of them. -/
opaque Config.phyParams : PhyParams

/-- `V.T_SETUP` of each instance: OPEN (decision D18). -/
opaque Config.setupDelay : Variant → Nat

/-! ### What the devices have heard -/

namespace Machine

/-- What was read from one frame: its op-code, address and data cells (20_memory.md R48). -/
structure HeardFrame where
  op : Level × Level
  addr : Addr
  data : RegWord
  deriving DecidableEq, Repr

/-- What the devices on a pair of wires have read: from the frame in progress (20_memory.md R48), its three fields
being shift registers, and from the frames before it, the last one first (log 7). -/
structure Heard where
  op : Level × Level
  addr : Addr
  data : RegWord
  earlier : List HeardFrame
  deriving DecidableEq, Repr

end Machine

/-! ### Free values -/

/-- `any(1)` of `Line()` (10_state.md R23): the free level of the n-th sample on an instance, for a floating line
(U2, U5) and for contention (U1). -/
opaque Config.freeLevel : Variant → Nat → Level

/-- What the unknown target does to the data wire at the n-th sample on an instance: nothing, or a level. The
source does not describe the target (00_scope.md R4, U14), so it is free. DESIGN CHOICE, log 6: it depends on the
instance, on what the target has heard in this frame and in all frames before it, on the number of the sample, and on
nothing else. -/
opaque Config.freeDrive : Variant → Machine.Heard → Nat → Option Level

/-- What the k-th target on an instance makes of a frame that a reset cuts short: nothing, or a write of this value at
this address (70_reset_and_hazards.md R150, U9: unspecified). DESIGN CHOICE, log 9: at most one register is written,
and what is written depends on what was heard and on a number that is new at every such reset. -/
opaque Config.freeCut : Variant → Machine.Heard → Nat → Nat → Option (Addr × RegWord)

/-- `T_SETTLE`, nominal 200 000 µs, a lower bound (43_phy_wrappers.md R123). -/
def Config.settleDelay : Nat := 200000

end Sys2Proof
end

