-- ==== Sys2Proof/Syntax.lean ====
section
/-! DEFINITION. The six operations (30_encoding.md R67, one constructor per row of spec/opcode_table.json), their
coded form, the cell symbols of a frame (00_scope.md R9) and the lines of a host program (30_encoding.md R71). -/

namespace Sys2Proof

/-- The operations of 30_encoding.md R67. Operand ports have their exact widths (00_scope.md R12); the width of
`preg` is an open parameter and is checked by `wellFormed`. -/
inductive Instr where
  /-- `MDIO.WR phyad, regad, data` (41_mdio_ops.md R101) -/
  | mdioWr (phyad regad : BitVec 5) (data : RegWord)
  /-- `MDIO.RD phyad, regad` (41_mdio_ops.md R102) -/
  | mdioRd (phyad regad : BitVec 5)
  /-- `TWS.WR reg, data` (42_tws_ops.md R111) -/
  | twsWr (reg : BitVec 8) (data : RegWord)
  /-- `TWS.RD reg` (42_tws_ops.md R112) -/
  | twsRd (reg : BitVec 8)
  /-- `PHY.WR preg, data` (43_phy_wrappers.md R121) -/
  | phyWr (preg : Nat) (data : RegWord)
  /-- `PHY.RD preg` (43_phy_wrappers.md R122) -/
  | phyRd (preg : Nat)
  deriving DecidableEq, Repr

/-- The coded form of an operation, as the host's program holds it. A bus operation is its format and its frame
word `F[31:0]` (30_encoding.md R63, R73): nothing inside a frame says which format it has (R70), so the format
stands beside the word. A composite has no frame of its own (R73) and is held by its operands. -/
inductive CodedOp where
  | frame (format : Variant) (word : BitVec 32)
  | indirectWr (preg : Nat) (data : RegWord)
  | indirectRd (preg : Nat)
  deriving DecidableEq, Repr

/-- The five cell symbols of 00_scope.md R9. -/
inductive CellSym where
  /-- `1` or `0`: the engine drives this level -/
  | drive (level : Level)
  /-- `H`: the engine drives what its latch holds -/
  | held
  /-- `Z`: released, not sampled -/
  | released
  /-- `s`: released and sampled once -/
  | sampled
  deriving DecidableEq, Repr

/-- A line of the host's program (30_encoding.md R71, R72) or another move the host has. -/
inductive HostLine where
  /-- an operation, performed as one big step (40_bus_primitives.md R90) -/
  | op (c : CodedOp)
  /-- the same operation, presented as a request (R86) and then run one sequencer step at a time (R88) -/
  | request (c : CodedOp)
  /-- `DELAY t`: the host waits; not an engine operation (30_encoding.md R72) -/
  | delay (us : Nat)
  /-- the host reads the result register of an instance (10_state.md R25) -/
  | readRdata (v : Variant)
  deriving DecidableEq, Repr

end Sys2Proof
end

