-- ==== Sys2Proof/WellFormed.lean ====
section
/-! DEFINITION. Which operations can be presented: every operand fits its port (00_scope.md R12). The ports of 5,
8 and 16 bits are the operands' own types; the one check left is the open width of `preg`. -/

namespace Sys2Proof

/-- Every operand fits its port (00_scope.md R12): a wider one cannot be presented (U12, decision D11). -/
def wellFormed (i : Instr) : Bool :=
  match i with
  | .mdioWr _ _ _ => true
  | .mdioRd _ _ => true
  | .twsWr _ _ => true
  | .twsRd _ => true
  | .phyWr preg _ => decide (preg < 2 ^ Config.phyParams.pregWidth)
  | .phyRd preg => decide (preg < 2 ^ Config.phyParams.pregWidth)

end Sys2Proof
end

