-- ==== Sys2Proof/Decode.lean ====
section
/-! DEFINITION. The variant records' values (10_state.md R27), the assembly of the address field (30_encoding.md
R64, R65), the frame as a function (R68), the decoder of coded operations, total and rejecting by name, and the
encoder, both from the table of 30_encoding.md R67 and spec/opcode_table.json (R73). -/

namespace Sys2Proof

/-- The variant record of an instance, the table of 10_state.md R27. `T_SETUP` is open (D18). -/
def variantRecord (v : Variant) : VariantRecord :=
  match v with
  | .mdio =>
    { name := .mdio, preLen := 32, st := (false, true), opRd := (true, false), opWr := (false, true),
      addrLen := 10, addrFmt := .phyadRegad, taLen := 2, taWr := (true, false), dataLen := 16,
      tBit := 1, tSetup := Config.setupDelay .mdio }
  | .tws =>
    { name := .tws, preLen := 8, st := (false, true), opRd := (true, false), opWr := (false, true),
      addrLen := 10, addrFmt := .headerReg, taLen := 2, taWr := (true, false), dataLen := 16,
      tBit := 10, tSetup := Config.setupDelay .tws }

/-- `ADDR = PHYAD ‖ REGAD` (30_encoding.md R64). -/
def assembleMdio (phyad regad : BitVec 5) : Addr := phyad ++ regad

/-- `ADDR = 0b00 ‖ REG` (30_encoding.md R65). -/
def assembleTws (reg : BitVec 8) : Addr := 0#2 ++ reg

/-- `PHY_BUS` (43_phy_wrappers.md R120). -/
def PhyPort.bus (p : PhyPort) : Variant :=
  match p with
  | .mdio _ _ _ _ => .mdio
  | .tws _ _ => .tws

/-- `CMD_REG` as the address cells carry it. -/
def PhyPort.cmdAddr (p : PhyPort) : Addr :=
  match p with
  | .mdio cp cr _ _ => assembleMdio cp cr
  | .tws c _ => assembleTws c

/-- `DATA_REG` as the address cells carry it. -/
def PhyPort.dataAddr (p : PhyPort) : Addr :=
  match p with
  | .mdio _ _ dp dr => assembleMdio dp dr
  | .tws _ d => assembleTws d

/-! ### The frame as a list of cell symbols -/

/-- The bits of a field, most significant first (00_scope.md R7, 20_memory.md R42). -/
def msbFirst {w : Nat} (x : BitVec w) : List Level :=
  (List.range w).map fun k => x.getLsbD (w - 1 - k)

/-- `frame(V, dir, addr, wdata)` of 30_encoding.md R68: the cell symbols of one bus operation, first cell first. -/
def frame (V : VariantRecord) (dir : Dir) (addr : Addr) (wdata : RegWord) : List CellSym :=
  List.replicate V.preLen (.drive true)
  ++ [.drive V.st.1, .drive V.st.2]
  ++ (match dir with
      | .wr => [.drive V.opWr.1, .drive V.opWr.2]
      | .rd => [.drive V.opRd.1, .drive V.opRd.2])
  ++ (msbFirst addr).map .drive
  ++ (match dir with
      | .wr => [.drive V.taWr.1, .drive V.taWr.2]
      | .rd => [.released, .held])
  ++ (match dir with
      | .wr => (msbFirst wdata).map .drive
      | .rd => List.replicate 16 .sampled)

/-! ### Decoding -/

/-- Why a coded operation is none of the six (30_encoding.md R67, R69). -/
inductive DecodeError where
  /-- `F[31:30]` is not `0b01` -/
  | badStart
  /-- `F[29:28]` is neither `0b10` nor `0b01` -/
  | badOpcode
  /-- `F[27:26]` of a TWS word is not `0b00` -/
  | badHeader
  /-- `F[17:16]` of a write word is not `0b10` -/
  | badTurnaround
  deriving DecidableEq, Repr

/-- A bus operation from its format and frame word: the rows of 30_encoding.md R67. In a read word `F[17:0]` are
not driven by the engine and are not looked at (R63, R73). -/
def decodeFrame (v : Variant) (F : BitVec 32) : Except DecodeError Instr :=
  if F.extractLsb' 30 2 ≠ 0b01#2 then .error .badStart
  else if v = .tws ∧ F.extractLsb' 26 2 ≠ 0b00#2 then .error .badHeader
  else if F.extractLsb' 28 2 = 0b01#2 then
    if F.extractLsb' 16 2 ≠ 0b10#2 then .error .badTurnaround
    else match v with
      | .mdio => .ok (.mdioWr (F.extractLsb' 23 5) (F.extractLsb' 18 5) (F.extractLsb' 0 16))
      | .tws => .ok (.twsWr (F.extractLsb' 18 8) (F.extractLsb' 0 16))
  else if F.extractLsb' 28 2 = 0b10#2 then
    match v with
    | .mdio => .ok (.mdioRd (F.extractLsb' 23 5) (F.extractLsb' 18 5))
    | .tws => .ok (.twsRd (F.extractLsb' 18 8))
  else .error .badOpcode

/-- The decoder: total on every coded operation. -/
def decode (c : CodedOp) : Except DecodeError Instr :=
  match c with
  | .frame v F => decodeFrame v F
  | .indirectWr preg data => .ok (.phyWr preg data)
  | .indirectRd preg => .ok (.phyRd preg)

/-! ### Encoding -/

/-- The frame word of a write: `0b01 ‖ 0b01 ‖ ADDR ‖ 0b10 ‖ data` (41_mdio_ops.md R101, 42_tws_ops.md R111). -/
def writeWord (addr : Addr) (data : RegWord) : BitVec 32 := 0b0101#4 ++ addr ++ 0b10#2 ++ data

/-- The frame word of a read: `0b01 ‖ 0b10 ‖ ADDR`, zeros in the bits the engine does not drive
(41_mdio_ops.md R102, 42_tws_ops.md R112; the convention of 95_test_vectors.md). -/
def readWord (addr : Addr) : BitVec 32 := 0b0110#4 ++ addr ++ 0#18

/-- The coded form of an operation. -/
def encode (i : Instr) : CodedOp :=
  match i with
  | .mdioWr phyad regad data => .frame .mdio (writeWord (assembleMdio phyad regad) data)
  | .mdioRd phyad regad => .frame .mdio (readWord (assembleMdio phyad regad))
  | .twsWr reg data => .frame .tws (writeWord (assembleTws reg) data)
  | .twsRd reg => .frame .tws (readWord (assembleTws reg))
  | .phyWr preg data => .indirectWr preg data
  | .phyRd preg => .indirectRd preg

/-! ### The table's words -/

/-- The coded operation of a table word. The table's match and mask stand over the frame word `F[31:0]` (R73), so
the low 32 bits are `F` and what lies above them (preamble cells) is not looked at. The word does not say its
format (R70): forty bits are a `TWS-40` frame, any other length is read as `MDIO-64` (DESIGN CHOICE, log 2). -/
def codedOfTableWord (nbits w : Nat) : CodedOp :=
  if nbits = 40 then .frame .tws (BitVec.ofNat 32 w) else .frame .mdio (BitVec.ofNat 32 w)

/-- What the decoder reads from a table word. -/
def decodeTableWord (nbits w : Nat) : Option Instr :=
  match decode (codedOfTableWord nbits w) with
  | .ok i => some i
  | .error _ => none

end Sys2Proof
end

