-- ==== Sys2Proof/Machine/State.lean ====
section
/-! DEFINITION. The machine's state as plain data (10_state.md R20 to R34; the targets of 20_memory.md R47 and
43_phy_wrappers.md R124; the host of 70_reset_and_hazards.md R165), its state after reset, and the reasons a step
can stop. -/

namespace Sys2Proof.Machine

/-- An event of the pin trace (10_state.md R33, 40_bus_primitives.md R95). -/
inductive PinEvent where
  | setDat (level : Level)
  /-- `SetDir(out)` -/
  | setDirOut
  /-- `SetDir(in)` -/
  | setDirIn
  | clkHigh
  | clkLow
  | sample (level : Level)
  /-- `Delay(t)`, at least `t` microseconds -/
  | delay (us : Nat)
  deriving DecidableEq, Repr

/-- The registers of one engine instance (10_state.md R20). `rdataValid` says whether `RDATA` holds a value
(R34: it holds none until the first read has ended; 70_reset_and_hazards.md R150). -/
structure Engine where
  clk : Level
  datO : Level
  datOe : Level
  dir : Dir
  addr : Addr
  wdata : RegWord
  rdata : RegWord
  rdataValid : Bool
  idx : BitVec 7
  busy : Bool
  deriving DecidableEq, Repr

/-- An array of 16-bit registers of a target (20_memory.md R41: the unit is the register, there is no byte), as
(address, value) pairs in one canonical form: addresses strictly rising, no entry equal to `unlistedRegister`. -/
abbrev Memory := List (Nat × RegWord)

/-- What a register that is not listed reads as. The spec makes the initial content a parameter (20_memory.md
R47); the model represents it by the list (DESIGN CHOICE, log 8). -/
def unlistedRegister : RegWord := 0

/-- A run of claimed addresses, both ends included: `CLAIM` is a list of them (20_memory.md R47). -/
structure ClaimRange where
  first : Addr
  last : Addr
  deriving DecidableEq, Repr

/-- The indirect part of a reference target: `PREG` and `PCMD` (43_phy_wrappers.md R124). R124 does not say what the
latch holds before the first command; here it holds some word in every state, never none, and which word is a parameter
of the given target (DESIGN CHOICE, log 27). -/
structure IndirectPart where
  preg : Memory
  pcmd : RegWord
  deriving DecidableEq, Repr

/-- A reference target (20_memory.md R47): `CLAIM`, `TREG`, and the indirect part where it has one. -/
structure RefTarget where
  claim : List ClaimRange
  treg : Memory
  indirect : Option IndirectPart
  deriving DecidableEq, Repr

/-- What hangs on an instance's two wires: a device of unknown behaviour (the real one, 00_scope.md R4), or some
number of reference targets, none included (20_memory.md R51, 60_exceptions.md R131). -/
inductive Environment where
  | unknown
  | reference (targets : List RefTarget)
  deriving DecidableEq, Repr

/-- One engine instance with its own pair of wires and what hangs on them (10_state.md R32). `pull` is `PULL`
where the platform fixes it (R23), `stuck` a data line stuck at a level (60_exceptions.md R131), `draws` the
model's own counter that numbers the free levels and the resets that cut a frame short (logs 5 and 9). -/
structure Bus where
  eng : Engine
  trace : List PinEvent
  heard : Heard
  env : Environment
  pull : Option Level
  stuck : Option Level
  draws : Nat
  deriving DecidableEq, Repr

/-- What is left of a composite operation in progress (43_phy_wrappers.md R121, R122). -/
inductive HostAction where
  /-- `Delay(T_SETTLE)`, an event in the trace of that instance -/
  | settle (v : Variant)
  /-- present this bus operation on that instance -/
  | present (v : Variant) (dir : Dir) (addr : Addr) (wdata : RegWord)
  deriving DecidableEq, Repr

/-- The whole machine: the two instances (10_state.md R32) and the host. `todo` is what is left of a composite in
progress, `program` the host's lines, `returned` the values returned by every read, in order (70_reset_and_hazards.md
R165), `portReads` what the host got by reading `RDATA` itself (10_state.md R25), `resetIn` a reset that waits
(70_reset_and_hazards.md R150). -/
structure State where
  mdio : Bus
  tws : Bus
  todo : List HostAction
  program : List HostLine
  returned : List (Variant × RegWord)
  portReads : List (Variant × RegWord)
  resetIn : Bool
  deriving DecidableEq, Repr

/-- Why the machine stops with a fault. -/
inductive Fault where
  /-- Raised by every meaning when a request is presented while an operation is in progress: no such move exists
  (10_state.md R26, 70_reset_and_hazards.md R158, U11 "stuck if a model lets the host try"). Safe. -/
  | requestWhileBusy
  /-- Raised by the host's read of `RDATA` before a read has ended: "a model faults it" (10_state.md R34, U7). Safe. -/
  | rdataNoValue
  /-- Raised by the host's read of `RDATA` while `BUSY = 1` (10_state.md R25, U7). Safe. -/
  | rdataWhileBusy
  deriving DecidableEq, Repr

/-- Why a step is refused. -/
inductive Refusal where
  /-- Raised by exec's arm of an instruction that has no meaning yet; no arm does. Safe. -/
  | notModelled (mnemonic : String)
  /-- Raised by step for a coded operation that is none of the six (30_encoding.md R69: it cannot be presented). Safe. -/
  | notAnOperation (reason : DecodeError)
  /-- Raised by step for an operand wider than its port (00_scope.md R12, U12). Safe. -/
  | operandTooWide
  /-- Raised by every meaning and by a request when the pins of the instance are not at the idle levels
  (70_reset_and_hazards.md R152: "this spec gives the run no meaning"; U6). Safe. -/
  | bootRequirementNotMet
  /-- Raised by step when both instances are busy: two hosts, "has no meaning in this spec" (60_exceptions.md R143). Safe. -/
  | twoOperationsInProgress
  /-- Raised by step when `BUSY = 1` and `IDX > V.N_CELLS`, which is no value of `IDX` (10_state.md R28). Safe. -/
  | indexOutsideFrame
  deriving DecidableEq, Repr

/-- The engine right after reset (10_state.md R34). `DIR`, `ADDR`, `WDATA` are unspecified there and `RDATA` holds
no value: the bits are the model's (DESIGN CHOICE, logs 3 and 4). -/
def Engine.reset : Engine :=
  { clk := false, datO := true, datOe := true, dir := .rd, addr := 0, wdata := 0, rdata := 0,
    rdataValid := false, idx := 0, busy := false }

/-- Nothing heard yet (DESIGN CHOICE, log 7: the spec names no initial content). -/
def Heard.start : Heard := { op := (false, false), addr := 0, data := 0, earlier := [] }

/-- An instance right after reset: an idle engine, an empty trace, an unknown device on the wires (log 6). -/
def Bus.reset : Bus :=
  { eng := Engine.reset, trace := [], heard := Heard.start, env := .unknown, pull := none, stuck := none,
    draws := 0 }

/-- The machine right after reset, no program presented (10_state.md R34; 70_reset_and_hazards.md R151, R154). -/
def State.reset : State :=
  { mdio := Bus.reset, tws := Bus.reset, todo := [], program := [], returned := [], portReads := [],
    resetIn := false }

end Sys2Proof.Machine
end

