-- ==== Sys2Proof/Machine/Flags.lean ====
section
/-! DEFINITION. `BUSY`, the only flag (10_state.md R26), and the two conditions on presenting a request:
no operation in progress anywhere (70_reset_and_hazards.md R158) and the boot requirement (R152). -/

namespace Sys2Proof.Machine

/-- The instance of a variant (10_state.md R32). -/
def State.bus (v : Variant) (s : State) : Bus :=
  match v with
  | .mdio => s.mdio
  | .tws => s.tws

/-- The state with one instance replaced. -/
def State.setBus (v : Variant) (b : Bus) (s : State) : State :=
  match v with
  | .mdio => { s with mdio := b }
  | .tws => { s with tws := b }

/-- A request may be presented: `BUSY = 0` on both instances and no composite operation in progress
(70_reset_and_hazards.md R158, decision D12). -/
def State.mayRequest (s : State) : Bool :=
  !s.mdio.eng.busy && !s.tws.eng.busy && s.todo.isEmpty

/-- The pins are at the idle levels: clock low, data pin an output at 1 (40_bus_primitives.md R94,
70_reset_and_hazards.md R152 (a) and (b)). -/
def Bus.pinsIdle (b : Bus) : Bool := !b.eng.clk && b.eng.datOe && b.eng.datO

end Sys2Proof.Machine
end

