-- ==== Sys2Proof/Machine/Memory.lean ====
section
/-! DEFINITION. The register arrays of a target (20_memory.md R41, R47; 43_phy_wrappers.md R124): reading, writing
in canonical form, and that form as a predicate. -/

namespace Sys2Proof.Machine

/-- The 16-bit register at an address. -/
def Memory.read (m : Memory) (a : Nat) : RegWord :=
  match m with
  | [] => unlistedRegister
  | (k, v) :: rest => if k = a then v else Memory.read rest a

/-- Put an entry in front, unless it is what an unlisted register reads as. -/
def Memory.entry (a : Nat) (v : RegWord) (m : Memory) : Memory :=
  if v = unlistedRegister then m else (a, v) :: m

/-- Write one whole register (20_memory.md R49: one indivisible update), keeping the canonical form. -/
def Memory.write (m : Memory) (a : Nat) (v : RegWord) : Memory :=
  match m with
  | [] => Memory.entry a v []
  | (k, x) :: rest =>
    if a < k then Memory.entry a v ((k, x) :: rest)
    else if a = k then Memory.entry a v rest
    else (k, x) :: Memory.write rest a v

/-- Every address of the list lies at `lo` or above, the addresses rise strictly, and no entry equals what an
unlisted register reads as. -/
def Memory.wfFrom (lo : Nat) (m : Memory) : Bool :=
  match m with
  | [] => true
  | (k, v) :: rest => decide (lo ≤ k) && decide (v ≠ unlistedRegister) && Memory.wfFrom (k + 1) rest

/-- The canonical form. -/
def Memory.wf (m : Memory) : Bool := Memory.wfFrom 0 m

end Sys2Proof.Machine
end

