-- ==== Sys2Proof/Machine/Operands.lean ====
section
/-! DEFINITION. The two things the engine computes (40_bus_primitives.md R91), the phase of a cell (10_state.md
R29) and the cell action (40_bus_primitives.md R89). -/

namespace Sys2Proof.Machine

/-- Shift-in for receive: `x <- x[w-2:0] ‖ b` (40_bus_primitives.md R91, 10_state.md R25). -/
def shiftIn {w : Nat} (x : BitVec w) (b : Level) : BitVec w := (x.concat b).setWidth w

/-- `(x, y).0 = x` and `(x, y).1 = y` (40_bus_primitives.md R89). -/
def pick (p : Level × Level) (k : Nat) : Level := if k = 0 then p.1 else p.2

/-- The parts of a frame (10_state.md R29). -/
inductive Phase where
  | pre | st | op | addr | ta | data | fin
  deriving DecidableEq, Repr

/-- `phase(c)` (10_state.md R29), with `P = V.PRE_LEN`. -/
def phase (V : VariantRecord) (c : Nat) : Phase :=
  if c < V.preLen then .pre
  else if c < V.preLen + 2 then .st
  else if c < V.preLen + 4 then .op
  else if c < V.preLen + 14 then .addr
  else if c < V.preLen + 16 then .ta
  else if c < V.preLen + 32 then .data
  else .fin

/-- What the engine does in a cell (40_bus_primitives.md R89). -/
inductive CellAction where
  /-- `Pulse()` alone: a preamble cell -/
  | pulse
  /-- `SendBit(b)` -/
  | send (level : Level)
  /-- `ReleaseBit()` -/
  | release
  /-- `HeldBit()` -/
  | hold
  /-- `RecvBit()` -/
  | recv
  /-- past the last cell: no cell -/
  | nothing
  deriving DecidableEq, Repr

/-- `V.OP_WR` or `V.OP_RD` (40_bus_primitives.md R89). -/
def opCode (V : VariantRecord) (dir : Dir) : Level × Level :=
  match dir with
  | .wr => V.opWr
  | .rd => V.opRd

/-- `cell(V, dir, addr, wdata, c)` (40_bus_primitives.md R89). -/
def cellAction (V : VariantRecord) (dir : Dir) (addr : Addr) (wdata : RegWord) (c : Nat) : CellAction :=
  match phase V c with
  | .pre => .pulse
  | .st => .send (pick V.st (c - V.preLen))
  | .op => .send (pick (opCode V dir) (c - V.preLen - 2))
  | .addr => .send (addr.getLsbD (9 - (c - V.preLen - 4)))
  | .ta =>
    match dir with
    | .wr => .send (pick V.taWr (c - V.preLen - 14))
    | .rd => if c = V.preLen + 14 then .release else .hold
  | .data =>
    match dir with
    | .wr => .send (wdata.getLsbD (15 - (c - V.preLen - 16)))
    | .rd => .recv
  | .fin => .nothing

end Sys2Proof.Machine
end

