-- ==== Sys2Proof/Machine/Target.lean ====
section
/-! DEFINITION. The targets: the reference target of 20_memory.md R47 to R51 with the indirect part of
43_phy_wrappers.md R124, the unknown target, and the level on the data wire (10_state.md R23; 60_exceptions.md
R131). -/

namespace Sys2Proof.Machine

/-- `a ∈ CLAIM` (20_memory.md R47). -/
def RefTarget.claims (t : RefTarget) (a : Addr) : Bool :=
  t.claim.any fun r => decide (r.first.toNat ≤ a.toNat) && decide (a.toNat ≤ r.last.toNat)

/-! ### Reading the frame (20_memory.md R48) -/

/-- The first start cell: what was read so far is an earlier frame's. -/
def Heard.nextFrame (h : Heard) : Heard :=
  { h with earlier := { op := h.op, addr := h.addr, data := h.data } :: h.earlier }

/-- What one more cell, at an engine-driven level, adds to what the targets have read. The levels of preamble, start
and turnaround cells are not examined. -/
def Heard.listen (V : VariantRecord) (c : Nat) (level : Level) (h : Heard) : Heard :=
  match phase V c with
  | .op => { h with op := (h.op.2, level) }
  | .addr => { h with addr := shiftIn h.addr level }
  | .data => { h with data := shiftIn h.data level }
  | .pre => h
  | .st => if c = V.preLen then h.nextFrame else h
  | .ta => h
  | .fin => h

/-! ### Driving the data wire -/

/-- What the devices on a wire do to it together: nothing, one level, or two different levels. -/
inductive Drive where
  | off
  | level (l : Level)
  | clash
  deriving DecidableEq, Repr

/-- The drives of several devices at once (60_exceptions.md R131, "two devices answer at once"). -/
def Drive.join (a b : Drive) : Drive :=
  match a with
  | .off => b
  | .clash => .clash
  | .level x =>
    match b with
    | .off => .level x
    | .clash => .clash
    | .level y => if x = y then .level x else .clash

/-- The drive of a reference target in cell `c` (20_memory.md R50): in the data cells of a claimed read, one bit of
the register, most significant first; nothing in every other cell. -/
def RefTarget.drive (V : VariantRecord) (c : Nat) (h : Heard) (t : RefTarget) : Drive :=
  if h.op = V.opRd ∧ t.claims h.addr = true ∧ phase V c = .data then
    .level ((t.treg.read h.addr.toNat).getLsbD (15 - (c - V.preLen - 16)))
  else .off

/-- The drive of all that hangs on the wires of an instance in cell `c`, at the `n`-th sample, with what has been
heard. The unknown device's is free (00_scope.md R4, U14). That it depends on the frames heard and on the sample's
number alone is the model's choice (DESIGN CHOICE, log 6): the spec does not say on what the real target's answer
depends. -/
def Environment.drive (V : VariantRecord) (c : Nat) (h : Heard) (n : Nat) (e : Environment) : Drive :=
  match e with
  | .unknown =>
    match Config.freeDrive V.name h n with
    | none => .off
    | some l => .level l
  | .reference ts => (ts.map (RefTarget.drive V c h)).foldr Drive.join .off

/-- The drive on an instance's data wire in cell `c`. -/
def Bus.drive (V : VariantRecord) (c : Nat) (b : Bus) : Drive := b.env.drive V c b.heard b.draws

/-- `any(1)`: the next free level of the instance (10_state.md R23; U1, U2). -/
def Bus.anyLevel (V : VariantRecord) (b : Bus) : Level := Config.freeLevel V.name b.draws

/-- `Line()`, the level the engine's input sees, the targets driving `t` (10_state.md R23). A stuck line reads as
what it is stuck at (60_exceptions.md R131). -/
def Bus.line (V : VariantRecord) (t : Drive) (b : Bus) : Level :=
  match b.stuck with
  | some l => l
  | none =>
    match t with
    | .off => if b.eng.datOe then b.eng.datO else b.pull.getD (b.anyLevel V)
    | .level l =>
      if b.eng.datOe then (if l = b.eng.datO then b.eng.datO else b.anyLevel V) else l
    | .clash => b.anyLevel V

/-- The level a target sees in a cell (20_memory.md R47): the one the engine drives, if it drives; on a stuck line
what the line is stuck at. -/
def Bus.seen (b : Bus) : Option Level :=
  match b.stuck with
  | some l => some l
  | none => if b.eng.datOe then some b.eng.datO else none

/-! ### Taking a write -/

/-- The least `p` with `f p` among `k, k+1, …, k+n-1`. -/
def findFrom (f : Nat → Bool) (k n : Nat) : Option Nat :=
  match n with
  | 0 => none
  | n + 1 => if f k then some k else findFrom f (k + 1) n

/-- The `p` with `w = cmd_word(dir, p)`, if there is one (43_phy_wrappers.md R124, which takes `cmd_word` to be
injective). -/
def commandOf (pp : PhyParams) (dir : Dir) (w : RegWord) : Option Nat :=
  findFrom (fun p => decide (pp.cmdWord dir p = w)) 0 (2 ^ pp.pregWidth)

/-- A bus write of `w` to `CMD_REG`, as the indirect part sees it (43_phy_wrappers.md R124). -/
def RefTarget.takeCommand (pp : PhyParams) (w : RegWord) (ind : IndirectPart) (t : RefTarget) : RefTarget :=
  { t with
    indirect := some { ind with pcmd := w }
    treg :=
      match commandOf pp .rd w with
      | some p => t.treg.write pp.port.dataAddr.toNat (ind.preg.read p)
      | none => t.treg }

/-- A bus write of `v` to `DATA_REG`, as the indirect part sees it (43_phy_wrappers.md R124). -/
def RefTarget.takeData (pp : PhyParams) (v : RegWord) (ind : IndirectPart) (t : RefTarget) : RefTarget :=
  match commandOf pp .wr ind.pcmd with
  | some p => { t with indirect := some { ind with preg := ind.preg.write p v } }
  | none => t

/-- What the indirect part adds to a write of `d` at `a`: nothing without one, off `PHY_BUS`, or at another
register. -/
def RefTarget.afterWrite (V : VariantRecord) (pp : PhyParams) (a : Addr) (d : RegWord) (t : RefTarget) : RefTarget :=
  match t.indirect with
  | none => t
  | some ind =>
    if V.name = pp.port.bus then
      if a = pp.port.cmdAddr then t.takeCommand pp d ind
      else if a = pp.port.dataAddr then t.takeData pp d ind
      else t
    else t

/-- A write of `d` at `a`: a target that claims `a` does `TREG[a] <- d` (20_memory.md R49), and its indirect part
what R124 adds; any other target ignores it. -/
def RefTarget.takeWrite (V : VariantRecord) (pp : PhyParams) (a : Addr) (d : RegWord) (t : RefTarget) : RefTarget :=
  if t.claims a then RefTarget.afterWrite V pp a d { t with treg := t.treg.write a.toNat d } else t

/-! ### The end of a cell -/

/-- The targets read the level they see in cell `c` (20_memory.md R48). -/
def Bus.hear (V : VariantRecord) (c : Nat) (b : Bus) : Bus :=
  { b with
    heard := (match b.seen with
      | some l => b.heard.listen V c l
      | none => b.heard) }

/-- At the end of cell `P + 31`, the sixteenth data cell, of a write frame, the claiming targets take the write
(20_memory.md R49). -/
def Environment.commit (V : VariantRecord) (pp : PhyParams) (c : Nat) (h : Heard) (e : Environment) : Environment :=
  match e with
  | .unknown => .unknown
  | .reference ts =>
    if c = V.preLen + 31 ∧ h.op = V.opWr then .reference (ts.map (RefTarget.takeWrite V pp h.addr h.data))
    else .reference ts

/-- What a target makes of a frame that a reset cuts short: nothing, or one write (log 9). -/
def RefTarget.takeCut (V : VariantRecord) (pp : PhyParams) (w : Option (Addr × RegWord)) (t : RefTarget) : RefTarget :=
  match w with
  | none => t
  | some (a, d) => t.takeWrite V pp a d

/-- What hangs on the wires after a frame that a reset cuts short, the reset being the `n`-th draw
(70_reset_and_hazards.md R150: the registers keep what earlier writes left there; what a target makes of the truncated
frame is free, U9, log 9). -/
def Environment.cut (V : VariantRecord) (pp : PhyParams) (h : Heard) (n : Nat) (e : Environment) : Environment :=
  match e with
  | .unknown => .unknown
  | .reference ts => .reference (ts.mapIdx fun k t => t.takeCut V pp (Config.freeCut V.name h n k))

/-- What hangs on the wires after cell `c`. -/
def Bus.commit (V : VariantRecord) (pp : PhyParams) (c : Nat) (b : Bus) : Bus :=
  { b with env := b.env.commit V pp c b.heard }

end Sys2Proof.Machine
end

