-- ==== Sys2Proof/Machine/Ops.lean ====
section
/-! DEFINITION. The pins, the cell primitives, start and finish (40_bus_primitives.md R81 to R87), the sequencer
step (R88), a bus operation and a composite operation as one big step (R90; 43_phy_wrappers.md R121, R122), and the
engine's reset (70_reset_and_hazards.md R150). There is no operation that takes an exception and none that returns
from one: the engine raises nothing (60_exceptions.md R130, R136, R137). -/

namespace Sys2Proof.Machine

/-! ### Pins and events -/

/-- `Emit(e)` (00_scope.md R11). -/
def Bus.emit (e : PinEvent) (b : Bus) : Bus := { b with trace := b.trace ++ [e] }

/-- `CLK <- l` and its event (10_state.md R21). -/
def Bus.setClk (l : Level) (b : Bus) : Bus :=
  Bus.emit (if l then .clkHigh else .clkLow) { b with eng := { b.eng with clk := l } }

/-- `DAT_O <- l; Emit(SetDat(l))` (10_state.md R22). -/
def Bus.setDat (l : Level) (b : Bus) : Bus :=
  Bus.emit (.setDat l) { b with eng := { b.eng with datO := l } }

/-- `DAT_OE <- l` and its event; the latch keeps its level (10_state.md R22). -/
def Bus.setDir (l : Level) (b : Bus) : Bus :=
  Bus.emit (if l then .setDirOut else .setDirIn) { b with eng := { b.eng with datOe := l } }

/-- `Delay(t)`: an event and nothing else (60_exceptions.md R141). -/
def Bus.delay (t : Nat) (b : Bus) : Bus := b.emit (.delay t)

/-- `Emit(Sample(l)); RDATA <- RDATA[14:0] ‖ l` (40_bus_primitives.md R85). -/
def Bus.takeSample (l : Level) (b : Bus) : Bus :=
  Bus.emit (.sample l) { b with eng := { b.eng with rdata := shiftIn b.eng.rdata l }, draws := b.draws + 1 }

/-! ### The pulse and the five cells -/

/-- `Pulse()` (40_bus_primitives.md R81). -/
def Bus.pulse (V : VariantRecord) (b : Bus) : Bus :=
  (((b.setClk true).delay V.tBit).setClk false).delay V.tBit

/-- `SendBit(l)` (40_bus_primitives.md R82). -/
def Bus.sendBit (V : VariantRecord) (l : Level) (b : Bus) : Bus := (b.setDat l).pulse V

/-- `HeldBit()` (40_bus_primitives.md R83): the latch is not written. -/
def Bus.heldBit (V : VariantRecord) (b : Bus) : Bus := (b.setDir true).pulse V

/-- `ReleaseBit()` (40_bus_primitives.md R84). -/
def Bus.releaseBit (V : VariantRecord) (b : Bus) : Bus := (b.setDir false).pulse V

/-- The first line of `RecvBit()`: to input, where the pin is an output (40_bus_primitives.md R85, decision D8). -/
def Bus.toInput (b : Bus) : Bus := if b.eng.datOe then b.setDir false else b

/-- The rest of `RecvBit()`, the targets driving `t`: one pulse with one sample while the clock is high
(40_bus_primitives.md R85). -/
def Bus.samplePulse (V : VariantRecord) (t : Drive) (b : Bus) : Bus :=
  ((((((b.setClk true).delay V.tBit).takeSample (b.line V t)).setClk false).delay V.tBit))

/-- `RecvBit()` (40_bus_primitives.md R85). -/
def Bus.recvBit (V : VariantRecord) (t : Drive) (b : Bus) : Bus := b.toInput.samplePulse V t

/-- Perform a cell action, the targets driving `t`. -/
def Bus.perform (V : VariantRecord) (t : Drive) (a : CellAction) (b : Bus) : Bus :=
  match a with
  | .pulse => b.pulse V
  | .send l => b.sendBit V l
  | .release => b.releaseBit V
  | .hold => b.heldBit V
  | .recv => b.recvBit V t
  | .nothing => b

/-! ### Start, cells, finish -/

/-- The register part of `StartStep` (40_bus_primitives.md R86): a read leaves `WDATA` unchanged. -/
def Engine.accept (dir : Dir) (addr : Addr) (wdata : RegWord) (e : Engine) : Engine :=
  { e with
    dir := dir
    addr := addr
    wdata := (match dir with
      | .wr => wdata
      | .rd => e.wdata)
    idx := 0
    busy := true }

/-- `StartStep` (40_bus_primitives.md R86), the address already assembled. -/
def Bus.startStep (V : VariantRecord) (dir : Dir) (addr : Addr) (wdata : RegWord) (b : Bus) : Bus :=
  ((Bus.setDir true { b with eng := b.eng.accept dir addr wdata }).setDat true).delay V.tSetup

/-- `IDX <- IDX + 1` (40_bus_primitives.md R88). -/
def Bus.advance (b : Bus) : Bus := { b with eng := { b.eng with idx := b.eng.idx + 1 } }

/-- The cell `IDX`: the engine's action with the targets driving, the targets reading, then `IDX <- IDX + 1`
(40_bus_primitives.md R88, R89; 20_memory.md R47 to R50). -/
def Bus.cellStep (V : VariantRecord) (pp : PhyParams) (b : Bus) : Bus :=
  Bus.advance <| Bus.commit V pp b.eng.idx.toNat <| Bus.hear V b.eng.idx.toNat <|
    b.perform V (b.drive V b.eng.idx.toNat)
      (cellAction V b.eng.dir b.eng.addr b.eng.wdata b.eng.idx.toNat)

/-- `n` cells, one after another. -/
def Bus.cells (V : VariantRecord) (pp : PhyParams) (n : Nat) (b : Bus) : Bus :=
  match n with
  | 0 => b
  | n + 1 => Bus.cells V pp n (b.cellStep V pp)

/-- Back to output, where the pin is an input (40_bus_primitives.md R87). -/
def Bus.toOutput (b : Bus) : Bus := if b.eng.datOe then b else b.setDir true

/-- The register part of `FinishStep` (40_bus_primitives.md R87). After a read `RDATA` holds its result
(10_state.md R25, R34). -/
def Engine.release (e : Engine) : Engine :=
  { e with
    idx := 0
    busy := false
    rdataValid := (match e.dir with
      | .rd => true
      | .wr => e.rdataValid) }

/-- `FinishStep` (40_bus_primitives.md R87): the latch first, then the direction. -/
def Bus.finishStep (b : Bus) : Bus :=
  { (b.setDat true).toOutput with eng := ((b.setDat true).toOutput).eng.release }

/-- A whole frame: start, every cell in order, and not yet the finish (40_bus_primitives.md R90). -/
def Bus.runFrame (V : VariantRecord) (pp : PhyParams) (dir : Dir) (addr : Addr) (wdata : RegWord) (b : Bus) : Bus :=
  (b.startStep V dir addr wdata).cells V pp V.nCells

/-! ### The machine -/

/-- The finish step of an instance: the value of a read goes back to the host (40_bus_primitives.md R87,
70_reset_and_hazards.md R165). -/
def State.finish (v : Variant) (s : State) : State :=
  match (s.bus v).eng.dir with
  | .wr => s.setBus v (s.bus v).finishStep
  | .rd =>
    { s.setBus v (s.bus v).finishStep with returned := s.returned ++ [(v, (s.bus v).finishStep.eng.rdata)] }

/-- One cell of an instance. -/
def State.cell (pp : PhyParams) (v : Variant) (s : State) : State :=
  s.setBus v ((s.bus v).cellStep (variantRecord v) pp)

/-- The one step enabled while `BUSY = 1` (40_bus_primitives.md R88). -/
def State.sequencer (pp : PhyParams) (v : Variant) (s : State) : Host.Outcome State Fault Refusal :=
  if (s.bus v).eng.idx.toNat < (variantRecord v).nCells then .next (s.cell pp v)
  else if (s.bus v).eng.idx.toNat = (variantRecord v).nCells then .next (s.finish v)
  else .refused .indexOutsideFrame

/-- `StartStep` on an instance, from the idle pins (70_reset_and_hazards.md R152: otherwise the run has no
meaning). -/
def State.start (v : Variant) (dir : Dir) (addr : Addr) (wdata : RegWord) (s : State) :
    Host.Outcome State Fault Refusal :=
  if (s.bus v).pinsIdle then
    .next (s.setBus v ((s.bus v).startStep (variantRecord v) dir addr wdata))
  else .refused .bootRequirementNotMet

/-- A bus operation from start to finish (40_bus_primitives.md R90). -/
def State.busOp (pp : PhyParams) (v : Variant) (dir : Dir) (addr : Addr) (wdata : RegWord) (s : State) : State :=
  State.finish v
    (s.setBus v ((s.bus v).runFrame (variantRecord v) pp dir addr wdata))

/-- `Delay(T_SETTLE)`, an event in the trace of the instance `PHY_BUS` (43_phy_wrappers.md R123, 20_memory.md
R53). -/
def State.settle (v : Variant) (s : State) : State := s.setBus v ((s.bus v).delay Config.settleDelay)

/-- Run `act`, if a request may be presented to this instance (10_state.md R26; 70_reset_and_hazards.md R152,
R158). -/
def State.whenIdle (v : Variant) (s : State) (act : State → State) : Host.Outcome State Fault Refusal :=
  if s.mayRequest then
    if (s.bus v).pinsIdle then .next (act s) else .refused .bootRequirementNotMet
  else .fault .requestWhileBusy

/-- A bus operation as the host presents it. -/
def State.performBusOp (pp : PhyParams) (v : Variant) (dir : Dir) (addr : Addr) (wdata : RegWord) (s : State) :
    Host.Outcome State Fault Refusal :=
  s.whenIdle v (State.busOp pp v dir addr wdata)

/-- The four parts of a composite operation (43_phy_wrappers.md R121, R122): write the command register, settle,
access the data register, settle. -/
def State.compositeOp (pp : PhyParams) (dir : Dir) (preg : Nat) (data : RegWord) (s : State) : State :=
  State.settle pp.port.bus <|
    State.busOp pp pp.port.bus dir pp.port.dataAddr data <|
      State.settle pp.port.bus <|
        State.busOp pp pp.port.bus .wr pp.port.cmdAddr (pp.cmdWord dir preg) s

/-- A composite operation as the host presents it. -/
def State.performComposite (pp : PhyParams) (dir : Dir) (preg : Nat) (data : RegWord) (s : State) :
    Host.Outcome State Fault Refusal :=
  s.whenIdle pp.port.bus (State.compositeOp pp dir preg data)

/-! ### Reset -/

/-- A reset now would cut a frame short: some of its cells have been performed, and not all
(70_reset_and_hazards.md R150). -/
def Bus.inFrame (V : VariantRecord) (b : Bus) : Bool :=
  b.eng.busy && decide (b.eng.idx.toNat ≠ 0) && decide (b.eng.idx.toNat ≠ V.nCells)

/-- What a reset does on the wires (70_reset_and_hazards.md R150): nothing, unless it cuts a frame short, which the
targets then make of what they will (U9; log 9). -/
def Bus.cutShort (V : VariantRecord) (pp : PhyParams) (b : Bus) : Bus :=
  if b.inFrame V then { b with env := b.env.cut V pp b.heard b.draws, draws := b.draws + 1 } else b

/-- The reset of an instance (70_reset_and_hazards.md R150): the engine at its reset values, the trace empty. -/
def Bus.applyReset (V : VariantRecord) (pp : PhyParams) (b : Bus) : Bus :=
  { b.cutShort V pp with eng := Engine.reset, trace := [] }

/-- The reset of the machine: both instances; an operation in progress, a composite's remainder included, is
abandoned (70_reset_and_hazards.md R150; log 10). -/
def State.applyReset (pp : PhyParams) (s : State) : State :=
  { s with
    mdio := s.mdio.applyReset (variantRecord .mdio) pp
    tws := s.tws.applyReset (variantRecord .tws) pp
    todo := []
    resetIn := false }

end Sys2Proof.Machine
end

