-- ==== Sys2Proof/Machine/Mdio.lean ====
section
/-! DEFINITION. The meanings of `MDIO.WR` and `MDIO.RD` (41_mdio_ops.md). -/

namespace Sys2Proof.Machine

/-- `MDIO.WR phyad, regad, data` (41_mdio_ops.md R101). -/
def execMdioWr (phyad regad : BitVec 5) (data : RegWord) (s : State) : Host.Outcome State Fault Refusal :=
  s.performBusOp Config.phyParams .mdio .wr (assembleMdio phyad regad) data

/-- `MDIO.RD phyad, regad` (41_mdio_ops.md R102). A read does not use the write operand. -/
def execMdioRd (phyad regad : BitVec 5) (s : State) : Host.Outcome State Fault Refusal :=
  s.performBusOp Config.phyParams .mdio .rd (assembleMdio phyad regad) 0

end Sys2Proof.Machine
end

