-- ==== Sys2Proof/Machine/Phy.lean ====
section
/-! DEFINITION. The meanings of `PHY.WR` and `PHY.RD` (43_phy_wrappers.md). -/

namespace Sys2Proof.Machine

/-- `PHY.WR preg, data` (43_phy_wrappers.md R121). -/
def execPhyWr (preg : Nat) (data : RegWord) (s : State) : Host.Outcome State Fault Refusal :=
  s.performComposite Config.phyParams .wr preg data

/-- `PHY.RD preg` (43_phy_wrappers.md R122). A read does not use the write operand. -/
def execPhyRd (preg : Nat) (s : State) : Host.Outcome State Fault Refusal :=
  s.performComposite Config.phyParams .rd preg 0

end Sys2Proof.Machine
end

