-- ==== Sys2Proof/Machine/Tws.lean ====
section
/-! DEFINITION. The meanings of `TWS.WR` and `TWS.RD` (42_tws_ops.md). -/

namespace Sys2Proof.Machine

/-- `TWS.WR reg, data` (42_tws_ops.md R111). -/
def execTwsWr (reg : BitVec 8) (data : RegWord) (s : State) : Host.Outcome State Fault Refusal :=
  s.performBusOp Config.phyParams .tws .wr (assembleTws reg) data

/-- `TWS.RD reg` (42_tws_ops.md R112). A read does not use the write operand. -/
def execTwsRd (reg : BitVec 8) (s : State) : Host.Outcome State Fault Refusal :=
  s.performBusOp Config.phyParams .tws .rd (assembleTws reg) 0

end Sys2Proof.Machine
end

