-- ==== Sys2Proof/Machine/Dispatch.lean ====
section
/-! DEFINITION. One arm for each operation of 30_encoding.md R67. -/

namespace Sys2Proof.Machine

/-- The meaning of an operation. -/
def exec (i : Instr) (s : State) : Host.Outcome State Fault Refusal :=
  match i with
  | .mdioWr phyad regad data => Sys2Proof.Machine.execMdioWr phyad regad data s
  | .mdioRd phyad regad => Sys2Proof.Machine.execMdioRd phyad regad s
  | .twsWr reg data => Sys2Proof.Machine.execTwsWr reg data s
  | .twsRd reg => Sys2Proof.Machine.execTwsRd reg s
  | .phyWr preg data => Sys2Proof.Machine.execPhyWr preg data s
  | .phyRd preg => Sys2Proof.Machine.execPhyRd preg s

end Sys2Proof.Machine
end

