-- ==== Sys2Proof/Machine/Present.lean ====
section
/-! DEFINITION. The host's moves: presenting an operation to be run cell by cell, going on with a composite
operation, reading `RDATA`, waiting, and fetching the next line of its program (10_state.md R25, R26;
30_encoding.md R71; 40_bus_primitives.md R86; 43_phy_wrappers.md R121, R122). -/

namespace Sys2Proof.Machine

/-- Present a bus operation as a request: the start step alone (40_bus_primitives.md R86). -/
def State.requestBusOp (v : Variant) (dir : Dir) (addr : Addr) (wdata : RegWord) (s : State) :
    Host.Outcome State Fault Refusal :=
  if s.mayRequest then s.start v dir addr wdata else .fault .requestWhileBusy

/-- Present a composite operation: the start step of its first bus write; the settle delay, the second bus operation
and the last settle delay are what is left (43_phy_wrappers.md R121, R122). -/
def State.requestComposite (pp : PhyParams) (dir : Dir) (preg : Nat) (data : RegWord) (s : State) :
    Host.Outcome State Fault Refusal :=
  if s.mayRequest then
    State.start pp.port.bus .wr pp.port.cmdAddr (pp.cmdWord dir preg)
      { s with
        todo := [.settle pp.port.bus, .present pp.port.bus dir pp.port.dataAddr data, .settle pp.port.bus] }
  else .fault .requestWhileBusy

/-- Present an operation, to be run one step at a time. -/
def State.request (i : Instr) (s : State) : Host.Outcome State Fault Refusal :=
  match i with
  | .mdioWr phyad regad data => s.requestBusOp .mdio .wr (assembleMdio phyad regad) data
  | .mdioRd phyad regad => s.requestBusOp .mdio .rd (assembleMdio phyad regad) 0
  | .twsWr reg data => s.requestBusOp .tws .wr (assembleTws reg) data
  | .twsRd reg => s.requestBusOp .tws .rd (assembleTws reg) 0
  | .phyWr preg data => s.requestComposite Config.phyParams .wr preg data
  | .phyRd preg => s.requestComposite Config.phyParams .rd preg 0

/-- The host reads the result register of an instance: only while `BUSY = 0` and only once a read has ended
(10_state.md R25). The two faults are the spec's: 10_state.md R34, "a host read of `RDATA` before the first read
operation has ended has no meaning and a model faults it", and 93_implementation_defined.md U7, treated as "fault". -/
def State.readRdata (v : Variant) (s : State) : Host.Outcome State Fault Refusal :=
  if (s.bus v).eng.busy then .fault .rdataWhileBusy
  else if (s.bus v).eng.rdataValid then
    .next { s with portReads := s.portReads ++ [(v, (s.bus v).eng.rdata)] }
  else .fault .rdataNoValue

/-- What the host does with a coded operation: decode it, check that its operands fit their ports, and `act`. -/
def State.withDecoded (c : CodedOp) (s : State) (act : Instr → State → Host.Outcome State Fault Refusal) :
    Host.Outcome State Fault Refusal :=
  match decode c with
  | .error e => .refused (.notAnOperation e)
  | .ok i => if wellFormed i then act i s else .refused .operandTooWide

/-- The host performs a line of its program, the line already taken off. -/
def State.hostLine (l : HostLine) (s : State) : Host.Outcome State Fault Refusal :=
  match l with
  | .op c => s.withDecoded c exec
  | .request c => s.withDecoded c State.request
  | .delay _ => .next s
  | .readRdata v => s.readRdata v

/-- The host goes on with a composite operation in progress. -/
def State.hostAction (a : HostAction) (s : State) : Host.Outcome State Fault Refusal :=
  match a with
  | .settle v => .next (s.settle v)
  | .present v dir addr wdata => s.start v dir addr wdata

/-- The host's move while both instances are idle: what is left of a composite; else the next line of the program;
else none, and the machine stays as it is (60_exceptions.md R145, 70_reset_and_hazards.md R151). -/
def State.hostMove (s : State) : Host.Outcome State Fault Refusal :=
  match s.todo with
  | a :: rest => State.hostAction a { s with todo := rest }
  | [] =>
    match s.program with
    | l :: rest => State.hostLine l { s with program := rest }
    | [] => .next s

/-- The coded operation placed where the next host line is taken from. -/
def State.withLine (l : HostLine) (s : State) : State := { s with program := l :: s.program }

end Sys2Proof.Machine
end

