-- ==== Sys2Proof/Machine/Step.lean ====
section
/-! DEFINITION. One step of the machine: a waiting reset, else the sequencer of the instance that is busy, else the
host's move (00_scope.md R5; 40_bus_primitives.md R88; 70_reset_and_hazards.md R150, R158). -/

namespace Sys2Proof.Machine

/-- One step. -/
def step (s : State) : Host.Outcome State Fault Refusal :=
  if s.resetIn then .next (s.applyReset Config.phyParams)
  else
    match s.mdio.eng.busy, s.tws.eng.busy with
    | true, true => .refused .twoOperationsInProgress
    | true, false => s.sequencer Config.phyParams .mdio
    | false, true => s.sequencer Config.phyParams .tws
    | false, false => s.hostMove

/-- The instruction of a table word placed as the next line of the host's program (log 1). -/
def State.withFetchWord (s : State) (nbits w : Nat) : State := s.withLine (.op (codedOfTableWord nbits w))

end Sys2Proof.Machine
end

