-- ==== Sys2Proof/Machine/Trace.lean ====
section
/-! DEFINITION. The cell trace as a function of the pin trace (10_state.md R33), and what can be counted in a pin
trace: pulses and delays (70_reset_and_hazards.md R162). -/

namespace Sys2Proof.Machine

/-- An entry of the cell trace (10_state.md R33): the symbol, the level the engine drives, and the sampled level of
an `s` cell. -/
structure CellEntry where
  sym : CellSym
  level : Option Level
  sampled : Option Level
  deriving DecidableEq, Repr

/-- What has been seen of the pins since the last pulse ended: the latch, the direction, whether the latch was
written and the direction turned to output in this cell, and the sample taken in it. -/
structure CellScan where
  latch : Level
  out : Bool
  wrote : Bool
  turnedOut : Bool
  sample : Option Level
  deriving DecidableEq, Repr

/-- The pins at idle levels, nothing seen. -/
def CellScan.start : CellScan :=
  { latch := true, out := true, wrote := false, turnedOut := false, sample := none }

/-- The cell that ends here (00_scope.md R9): sampled; released; held (turned to output and the latch not written);
or driven. -/
def CellScan.entry (st : CellScan) : CellEntry :=
  match st.sample with
  | some l => { sym := .sampled, level := none, sampled := some l }
  | none =>
    if st.out then
      if st.turnedOut && !st.wrote then { sym := .held, level := some st.latch, sampled := none }
      else { sym := .drive st.latch, level := some st.latch, sampled := none }
    else { sym := .released, level := none, sampled := none }

/-- The cells of a pin trace, one for each pulse (40_bus_primitives.md R80: every cell has exactly one). -/
def cellsOf (st : CellScan) (es : List PinEvent) : List CellEntry :=
  match es with
  | [] => []
  | .setDat l :: rest => cellsOf { st with latch := l, wrote := true } rest
  | .setDirOut :: rest => cellsOf { st with out := true, turnedOut := true } rest
  | .setDirIn :: rest => cellsOf { st with out := false } rest
  | .sample l :: rest => cellsOf { st with sample := some l } rest
  | .clkHigh :: rest => cellsOf st rest
  | .delay _ :: rest => cellsOf st rest
  | .clkLow :: rest =>
    st.entry :: cellsOf { st with wrote := false, turnedOut := false, sample := none } rest

/-- The clock pulses of a pin trace. -/
def pulseCount (es : List PinEvent) : Nat :=
  match es with
  | [] => 0
  | .clkHigh :: rest => pulseCount rest + 1
  | .setDat _ :: rest => pulseCount rest
  | .setDirOut :: rest => pulseCount rest
  | .setDirIn :: rest => pulseCount rest
  | .sample _ :: rest => pulseCount rest
  | .delay _ :: rest => pulseCount rest
  | .clkLow :: rest => pulseCount rest

/-- The sum of the delays of a pin trace, in microseconds, a lower bound (70_reset_and_hazards.md R162, R163). -/
def delaySum (es : List PinEvent) : Nat :=
  match es with
  | [] => 0
  | .delay t :: rest => t + delaySum rest
  | .clkHigh :: rest => delaySum rest
  | .setDat _ :: rest => delaySum rest
  | .setDirOut :: rest => delaySum rest
  | .setDirIn :: rest => delaySum rest
  | .sample _ :: rest => delaySum rest
  | .clkLow :: rest => delaySum rest

/-! ### The pin traces of the spec -/

/-- A preamble cell, and the pulse of every other driven cell (40_bus_primitives.md R95). -/
def pulseEvents (V : VariantRecord) : List PinEvent := [.clkHigh, .delay V.tBit, .clkLow, .delay V.tBit]

/-- `SendBit(l)` (40_bus_primitives.md R95). -/
def sendEvents (V : VariantRecord) (l : Level) : List PinEvent := .setDat l :: pulseEvents V

/-- `RecvBit()` after the switch to input (40_bus_primitives.md R95). -/
def recvEvents (V : VariantRecord) (l : Level) : List PinEvent :=
  [.clkHigh, .delay V.tBit, .sample l, .clkLow, .delay V.tBit]

/-- `StartStep` and the preamble cells (40_bus_primitives.md R95). -/
def preambleEvents (V : VariantRecord) : List PinEvent :=
  [.setDirOut, .setDat true, .delay V.tSetup] ++ (List.replicate V.preLen (pulseEvents V)).flatten

/-- The pin trace of a whole bus write, from `StartStep` to `FinishStep` (41_mdio_ops.md R101, 42_tws_ops.md
R111). -/
def writeTrace (V : VariantRecord) (addr : Addr) (data : RegWord) : List PinEvent :=
  preambleEvents V
  ++ ([V.st.1, V.st.2, V.opWr.1, V.opWr.2] ++ msbFirst addr ++ [V.taWr.1, V.taWr.2]
      ++ msbFirst data).flatMap (sendEvents V)
  ++ [.setDat true]

/-- The pin trace of a whole bus read that takes these samples, from `StartStep` to `FinishStep` (41_mdio_ops.md
R102, 42_tws_ops.md R112). -/
def readTrace (V : VariantRecord) (addr : Addr) (samples : List Level) : List PinEvent :=
  preambleEvents V
  ++ ([V.st.1, V.st.2, V.opRd.1, V.opRd.2] ++ msbFirst addr).flatMap (sendEvents V)
  ++ (.setDirIn :: pulseEvents V)
  ++ (.setDirOut :: pulseEvents V)
  ++ (.setDirIn :: samples.flatMap (recvEvents V))
  ++ [.setDat true, .setDirOut]

/-- `DAT_O` and `DAT_OE` are written only while the clock is low (40_bus_primitives.md R80), the clock starting at
`clk`. -/
def dataMovesOnlyWhileLow (clk : Level) (es : List PinEvent) : Bool :=
  match es with
  | [] => true
  | .clkHigh :: rest => dataMovesOnlyWhileLow true rest
  | .clkLow :: rest => dataMovesOnlyWhileLow false rest
  | .setDat _ :: rest => !clk && dataMovesOnlyWhileLow clk rest
  | .setDirOut :: rest => !clk && dataMovesOnlyWhileLow clk rest
  | .setDirIn :: rest => !clk && dataMovesOnlyWhileLow clk rest
  | .sample _ :: rest => dataMovesOnlyWhileLow clk rest
  | .delay _ :: rest => dataMovesOnlyWhileLow clk rest

end Sys2Proof.Machine
end

