-- ==== Sys2Proof/Safety.lean ====
section
/-! DEFINITION. The terms claims are stated in: when an operation may be presented, what a bus write and a bus read
change and leave alone, the machine's invariant, and what a target without (or away from) an indirect part is. -/

namespace Sys2Proof.Machine

/-! ### Presenting an operation -/

/-- An operation may be presented to an instance: `BUSY = 0` on both instances and no composite in progress
(70_reset_and_hazards.md R158), the instance's pins at the idle levels (R152). -/
def Ready (v : Variant) (s : State) : Prop := s.mayRequest = true ∧ (s.bus v).pinsIdle = true

/-- The instance an operation is presented to (30_encoding.md R67; 43_phy_wrappers.md R120). -/
def instrBus (i : Instr) : Variant :=
  match i with
  | .mdioWr _ _ _ => .mdio
  | .mdioRd _ _ => .mdio
  | .twsWr _ _ => .tws
  | .twsRd _ => .tws
  | .phyWr _ _ => Config.phyParams.port.bus
  | .phyRd _ => Config.phyParams.port.bus

/-- `i` is a bus write (`MDIO.WR` or `TWS.WR`) on instance `v` of `data` at the assembled address `addr`
(30_encoding.md R64, R65). -/
def IsBusWrite (i : Instr) (v : Variant) (addr : Addr) (data : RegWord) : Prop :=
  (∃ phyad regad : BitVec 5, i = .mdioWr phyad regad data ∧ v = .mdio ∧ addr = phyad ++ regad) ∨
  (∃ reg : BitVec 8, i = .twsWr reg data ∧ v = .tws ∧ addr = 0b00#2 ++ reg)

/-- `i` is a bus read (`MDIO.RD` or `TWS.RD`) on instance `v` at the assembled address `addr`. -/
def IsBusRead (i : Instr) (v : Variant) (addr : Addr) : Prop :=
  (∃ phyad regad : BitVec 5, i = .mdioRd phyad regad ∧ v = .mdio ∧ addr = phyad ++ regad) ∨
  (∃ reg : BitVec 8, i = .twsRd reg ∧ v = .tws ∧ addr = 0b00#2 ++ reg)

/-- A line of the host's program that presents no operation: a `DELAY` (30_encoding.md R72) or the host's own read of
`RDATA` (10_state.md R25). -/
def presentsNothing (l : HostLine) : Bool :=
  match l with
  | .op _ => false
  | .request _ => false
  | .delay _ => true
  | .readRdata _ => true

/-- `k` steps, stopping at the first fault or refusal (the host's `Core.run` at this machine). -/
def run (k : Nat) (s : State) : Host.Outcome State Fault Refusal :=
  match k with
  | 0 => .next s
  | k + 1 =>
    match step s with
    | .next t => run k t
    | .fault r => .fault r
    | .refused r => .refused r

/-- The cell symbol of a cell action (00_scope.md R9); past the last cell there is none. The preamble's is `1`: the
latch has been high since the start step (40_bus_primitives.md R89). -/
def CellAction.symbol (a : CellAction) : Option CellSym :=
  match a with
  | .pulse => some (.drive true)
  | .send l => some (.drive l)
  | .release => some .released
  | .hold => some .held
  | .recv => some .sampled
  | .nothing => none

/-! ### What an operation changes -/

/-- From `s` to `t` a bus write on instance `v` changed its operand registers to these and nothing else of the
engine: `RDATA`, its validity and the pins are as they were, `IDX` and `BUSY` are 0. The other instance, the host
and the platform are unchanged. (The trace, the targets and what they have heard are not spoken of here.) -/
def WriteEffect (v : Variant) (addr : Addr) (data : RegWord) (s t : State) : Prop :=
  t = s.setBus v (t.bus v) ∧
  (t.bus v).eng =
    { (s.bus v).eng with dir := .wr, addr := addr, wdata := data, idx := 0, busy := false } ∧
  (t.bus v).pull = (s.bus v).pull ∧ (t.bus v).stuck = (s.bus v).stuck ∧ (t.bus v).draws = (s.bus v).draws

/-- From `s` to `t` a bus read on instance `v` changed `DIR`, `ADDR` and `RDATA`, which now holds a value, and
nothing else of the engine: `WDATA` and the pins are as they were, `IDX` and `BUSY` are 0. The targets are
unchanged; the host got `RDATA` back. The other instance, the rest of the host and the platform are unchanged. -/
def ReadEffect (v : Variant) (addr : Addr) (s t : State) : Prop :=
  t = { s.setBus v (t.bus v) with returned := s.returned ++ [(v, (t.bus v).eng.rdata)] } ∧
  (t.bus v).eng =
    { (s.bus v).eng with
      dir := .rd, addr := addr, rdata := (t.bus v).eng.rdata, rdataValid := true, idx := 0, busy := false } ∧
  (t.bus v).env = (s.bus v).env ∧
  (t.bus v).pull = (s.bus v).pull ∧ (t.bus v).stuck = (s.bus v).stuck ∧
  (t.bus v).draws = (s.bus v).draws + 16

/-- The indirect part of a target takes no part in a write at `addr` on instance `v`: there is none, or the
composites go over the other instance, or `addr` is neither `CMD_REG` nor `DATA_REG` (43_phy_wrappers.md R124). -/
def PlainWrite (pp : PhyParams) (v : Variant) (addr : Addr) (t : RefTarget) : Prop :=
  t.indirect = none ∨ pp.port.bus ≠ v ∨ (addr ≠ pp.port.cmdAddr ∧ addr ≠ pp.port.dataAddr)

/-- `cmd_word` tells the indirect registers apart, for each direction (43_phy_wrappers.md R124). -/
def InjectiveCommand (pp : PhyParams) : Prop :=
  ∀ (dir : Dir) (p q : Nat), p < 2 ^ pp.pregWidth → q < 2 ^ pp.pregWidth →
    pp.cmdWord dir p = pp.cmdWord dir q → p = q

/-! ### The invariant -/

/-- The register arrays of a target are in canonical form. -/
def RefTarget.wf (t : RefTarget) : Bool :=
  t.treg.wf && (match t.indirect with
    | some ind => ind.preg.wf
    | none => true)

/-- The register arrays of all that hangs on the wires are in canonical form. -/
def Environment.wf (e : Environment) : Bool :=
  match e with
  | .unknown => true
  | .reference ts => ts.all RefTarget.wf

/-- The level of `DAT_OE` before cell `k` of a frame (41_mdio_ops.md R101, R102 corner case (a)): a write drives
throughout; a read releases the wire in the first turnaround cell, drives it in the second, and releases it in the
data cells. -/
def outputBefore (V : VariantRecord) (dir : Dir) (k : Nat) : Bool :=
  match dir with
  | .wr => true
  | .rd => decide (k ≤ V.preLen + 14) || decide (k = V.preLen + 16)

/-- The invariant of one instance: canonical register arrays (the model's own form, log 8); the clock low between steps
(10_state.md R21); `IDX ≤ V.N_CELLS` (R28); while idle the pins at the idle levels and `IDX = 0`
(40_bus_primitives.md R94); while busy the direction of the data pin as the frame has it (decision D8 in the data cells
of a read), and the latch high through the preamble (R89). -/
def Bus.Inv (v : Variant) (b : Bus) : Prop :=
  b.env.wf = true ∧ b.eng.clk = false ∧ b.eng.idx.toNat ≤ (variantRecord v).nCells ∧
  (b.eng.busy = false → b.eng.datOe = true ∧ b.eng.datO = true ∧ b.eng.idx = 0) ∧
  (b.eng.busy = true →
    b.eng.datOe = outputBefore (variantRecord v) b.eng.dir b.eng.idx.toNat ∧
    (b.eng.idx.toNat ≤ (variantRecord v).preLen → b.eng.datO = true))

/-- The two header cells of a TWS address are 0 (30_encoding.md R65). -/
def headerZero (addr : Addr) : Prop := addr.extractLsb' 8 2 = 0b00#2

/-- What is left of a composite never presents a TWS address with another header. -/
def HostAction.Inv (a : HostAction) : Prop :=
  match a with
  | .settle _ => True
  | .present v _ addr _ => v = .tws → headerZero addr

/-- The machine's invariant: that of both instances, at most one of them busy (10_state.md R32), and the header of
every TWS address zero (30_encoding.md R65, decision D10), which at reset is the model's choice of `ADDR` (DESIGN
CHOICE, log 3). -/
def State.Inv (s : State) : Prop :=
  s.mdio.Inv .mdio ∧ s.tws.Inv .tws ∧ ¬ (s.mdio.eng.busy = true ∧ s.tws.eng.busy = true) ∧
  headerZero s.tws.eng.addr ∧ ∀ a ∈ s.todo, a.Inv

end Sys2Proof.Machine
end

