-- ==== Sys2Proof/Certificates/Slice0/Obligations.lean ====
section
/-! DEFINITION. The statements for the provers, from the numbered rules of spec/. -/

open Sys2Proof Sys2Proof.Machine

/-! ### Encoding -/

/-- Every operation is read back from its coded form, with every operand at every value (30_encoding.md sections 3
and 4; a write's `F[17:16]` is the spec's own decision D6, the TWS codes D9, the TWS header D10). -/
def Obligations.DecodeOfEncodeIsIdentity : Prop :=
  ∀ i : Instr, decode (encode i) = .ok i

/-- A frame word that is an operation is the word of that operation: a write word bit for bit, a read word in the
bits the engine drives, `F[31:18]` (30_encoding.md sections 1 and 4; a write's `F[17:16]` by decision D6, the TWS codes
by D9, the TWS header by D10). -/
def Obligations.EncodeOfDecodedWordIsTheWord : Prop :=
  ∀ (v : Variant) (F : BitVec 32) (i : Instr), decodeFrame v F = .ok i →
    encode i = .frame v (if F.extractLsb' 28 2 = 0b01#2 then F else F &&& 0xFFFC0000#32)

/-- A frame word is an operation exactly when `F & mask = match` for a row of its format (30_encoding.md section 4
and the rows of opcode_table.json; a write's `F[17:16]` by decision D6, the TWS codes by D9, the TWS header by D10):
the decoder refuses every other word. -/
def Obligations.DecoderAcceptsExactlyTheTableRows : Prop :=
  ∀ F : BitVec 32,
    ((∃ i, decodeFrame .mdio F = .ok i) ↔
      (F &&& 0xF0030000#32 = 0x50020000#32 ∨ F &&& 0xF0000000#32 = 0x60000000#32)) ∧
    ((∃ i, decodeFrame .tws F = .ok i) ↔
      (F &&& 0xFC030000#32 = 0x50020000#32 ∨ F &&& 0xFC000000#32 = 0x60000000#32))

/-- Words of 95_test_vectors.md V40, V52, V60, V72 and V80 decode to the operations they stand for (decisions D6, D9
and D10; a composite has no word, its coded form is the model's). -/
def Obligations.VectorWordsDecode : Prop :=
  decodeFrame .mdio 0x508AA5C3#32 = .ok (.mdioWr 1 2 0xA5C3) ∧
  decodeFrame .mdio 0x6FFC0000#32 = .ok (.mdioRd 31 31) ∧
  decodeFrame .tws 0x513A1234#32 = .ok (.twsWr 0x4E 0x1234) ∧
  decodeFrame .tws 0x63FC0000#32 = .ok (.twsRd 0xFF) ∧
  decode (.indirectWr 0x21 0x00FF) = .ok (.phyWr 0x21 0x00FF)

/-- Cell `V.PRE_LEN + k` of a frame carries `F[31-k]` of its frame word: all 32 cells of a write; of a read the
fourteen driven ones, then `Z`, `H` and sixteen `s` (30_encoding.md section 1). The preamble cells are all 1 and the
frame has `V.N_CELLS` cells. The levels 1 and 0 of a write's cells `k = 14` and `15` are the spec's own decision D6, that
a read's cell `k = 15` is held D7, that its data cells are released D8, the TWS codes D9 (logs 14 and 21). -/
def Obligations.FrameCellsCarryTheFrameWord : Prop :=
  ∀ (v : Variant) (dir : Dir) (addr : Addr) (data : RegWord),
    (frame (variantRecord v) dir addr data).length = (variantRecord v).nCells ∧
    (∀ c < (variantRecord v).preLen, (frame (variantRecord v) dir addr data)[c]? = some (.drive true)) ∧
    (∀ k < 32, (frame (variantRecord v) .wr addr data)[(variantRecord v).preLen + k]? =
      some (.drive ((writeWord addr data).getLsbD (31 - k)))) ∧
    (∀ k < 14, (frame (variantRecord v) .rd addr data)[(variantRecord v).preLen + k]? =
      some (.drive ((readWord addr).getLsbD (31 - k)))) ∧
    (frame (variantRecord v) .rd addr data)[(variantRecord v).preLen + 14]? = some .released ∧
    (frame (variantRecord v) .rd addr data)[(variantRecord v).preLen + 15]? = some .held ∧
    (∀ k < 16, (frame (variantRecord v) .rd addr data)[(variantRecord v).preLen + 16 + k]? = some .sampled)

/-- 30_encoding.md R64: `ADDR[9:5] = PHYAD[4:0]`, `ADDR[4:0] = REGAD[4:0]`, `ADDR = PHYAD ‖ REGAD`, unsigned and
unscaled; the address cells (36 to 40 and 41 to 45) carry `ADDR[9]` first and `ADDR[0]` last. -/
def Obligations.MdioAddressIsPhyadThenRegad : Prop :=
  ∀ (phyad regad : BitVec 5) (dir : Dir) (data : RegWord),
    assembleMdio phyad regad = phyad ++ regad ∧
    (assembleMdio phyad regad).extractLsb' 5 5 = phyad ∧ (assembleMdio phyad regad).extractLsb' 0 5 = regad ∧
    (assembleMdio phyad regad).toNat = 32 * phyad.toNat + regad.toNat ∧
    (∀ k < 10, (frame (variantRecord .mdio) dir (assembleMdio phyad regad) data)[36 + k]? =
      some (.drive ((assembleMdio phyad regad).getLsbD (9 - k)))) ∧
    (∀ k < 5, (frame (variantRecord .mdio) dir (assembleMdio phyad regad) data)[36 + k]? =
      some (.drive (phyad.getLsbD (4 - k)))) ∧
    (∀ k < 5, (frame (variantRecord .mdio) dir (assembleMdio phyad regad) data)[41 + k]? =
      some (.drive (regad.getLsbD (4 - k))))

/-- The TWS address field (30_encoding.md section 2, "TWS address assembly" and the format `TWS-40`; that the header is the
constant `0b00` and no operand is decision D10): `ADDR[9:8] = 0b00`, `ADDR[7:0] = REG[7:0]`, that is `zext_10(REG)`; no
choice of `reg` sets the header; the address cells (12 to 21) carry `ADDR[9]` first and `ADDR[0]` last. -/
def Obligations.TwsAddressIsZeroHeaderThenReg : Prop :=
  ∀ (reg : BitVec 8) (dir : Dir) (data : RegWord),
    (assembleTws reg).extractLsb' 8 2 = 0b00#2 ∧ (assembleTws reg).extractLsb' 0 8 = reg ∧
    assembleTws reg = reg.setWidth 10 ∧
    (∀ k < 10, (frame (variantRecord .tws) dir (assembleTws reg) data)[12 + k]? =
      some (.drive ((assembleTws reg).getLsbD (9 - k)))) ∧
    (∀ k < 2, (frame (variantRecord .tws) dir (assembleTws reg) data)[12 + k]? = some (.drive false)) ∧
    (∀ k < 8, (frame (variantRecord .tws) dir (assembleTws reg) data)[14 + k]? =
      some (.drive (reg.getLsbD (7 - k))))

/-! ### The sequencer's parts -/

/-- The boundaries of the phases, for both instances (10_state.md section 6; the TWS ones by decision D9). -/
def Obligations.PhaseBoundaries : Prop :=
  (∀ c : Nat,
    (c < 32 → phase (variantRecord .mdio) c = .pre) ∧
    (32 ≤ c ∧ c < 34 → phase (variantRecord .mdio) c = .st) ∧
    (34 ≤ c ∧ c < 36 → phase (variantRecord .mdio) c = .op) ∧
    (36 ≤ c ∧ c < 46 → phase (variantRecord .mdio) c = .addr) ∧
    (46 ≤ c ∧ c < 48 → phase (variantRecord .mdio) c = .ta) ∧
    (48 ≤ c ∧ c < 64 → phase (variantRecord .mdio) c = .data) ∧
    (c = 64 → phase (variantRecord .mdio) c = .fin)) ∧
  (∀ c : Nat,
    (c < 8 → phase (variantRecord .tws) c = .pre) ∧
    (8 ≤ c ∧ c < 10 → phase (variantRecord .tws) c = .st) ∧
    (10 ≤ c ∧ c < 12 → phase (variantRecord .tws) c = .op) ∧
    (12 ≤ c ∧ c < 22 → phase (variantRecord .tws) c = .addr) ∧
    (22 ≤ c ∧ c < 24 → phase (variantRecord .tws) c = .ta) ∧
    (24 ≤ c ∧ c < 40 → phase (variantRecord .tws) c = .data) ∧
    (c = 40 → phase (variantRecord .tws) c = .fin)) ∧
  (variantRecord .mdio).nCells = 64 ∧ (variantRecord .tws).nCells = 40

/-- 40_bus_primitives.md R91: what is sent of a field is `v[i]` for `i` from its width less one down to zero;
shift-in is `(2 * x + b) mod 2^16`; after sixteen samples `RDATA` is their sum weighted `2^15` to `2^0`, whatever it
was; and a cell counts `IDX` up by one without overflow. -/
def Obligations.BitSelectionAndShiftIn : Prop :=
  (∀ (w : Nat) (x : BitVec w) (k : Nat), k < w → (msbFirst x)[k]? = some (x.toNat.testBit (w - 1 - k))) ∧
  (∀ (x : RegWord) (b : Level), shiftIn x b = x.extractLsb' 0 15 ++ BitVec.ofBool b ∧
    (shiftIn x b).toNat = (2 * x.toNat + b.toNat) % 2 ^ 16) ∧
  (∀ (x : RegWord) (l : List Level), l.length = 16 →
    (l.foldl shiftIn x).toNat = l.foldl (fun n b => 2 * n + b.toNat) 0) ∧
  (∀ (v : Variant) (pp : PhyParams) (b : Bus), b.eng.idx.toNat < (variantRecord v).nCells →
    (b.cellStep (variantRecord v) pp).eng.idx.toNat = b.eng.idx.toNat + 1)

/-- `Line()` by cases, on a line that is not stuck (10_state.md section 2; decisions D3 and D15; that a line is not
stuck at first is the model's, log 13): driven and not contradicted, the latch; contradicted, a free level; released,
what the target drives; floating, `PULL`, a free level unless the platform fixes it. Only `RecvBit()` evaluates it:
in every other cell what the targets drive makes no difference. -/
def Obligations.LineLevelByCases : Prop :=
  (∀ (v : Variant) (b : Bus) (a : CellAction) (d d' : Drive), a ≠ .recv →
    b.perform (variantRecord v) d a = b.perform (variantRecord v) d' a) ∧
  ∀ (v : Variant) (b : Bus) (l : Level), b.stuck = none →
    (b.eng.datOe = true →
      b.line (variantRecord v) .off = b.eng.datO ∧
      (l = b.eng.datO → b.line (variantRecord v) (.level l) = b.eng.datO) ∧
      (l ≠ b.eng.datO → b.line (variantRecord v) (.level l) = Config.freeLevel v b.draws)) ∧
    (b.eng.datOe = false →
      b.line (variantRecord v) (.level l) = l ∧
      (b.pull = some l → b.line (variantRecord v) .off = l) ∧
      (b.pull = none → b.line (variantRecord v) .off = Config.freeLevel v b.draws))

/-- `SendBit(l)` and `ReleaseBit()` (40_bus_primitives.md section 1; the shape of the pulse is decision D4).
`SendBit(l)` writes the latch and pulses, `DAT_O` and `CLK` being all it writes of the state, also when the latch
already holds `l`; the latch is set before the rising edge and not again before the falling edge. `ReleaseBit()` turns
the pin to input and pulses, `DAT_OE` and `CLK` being all it writes; it takes no sample. From the clock low, as both
require, `CLK` is 0 again. -/
def Obligations.SendBitAndReleaseBit : Prop :=
  ∀ (v : Variant) (b : Bus) (l : Level), b.eng.clk = false →
    (b.eng.datOe = true →
      b.sendBit (variantRecord v) l =
        { b with
          eng := { b.eng with datO := l }
          trace := b.trace ++ [.setDat l, .clkHigh, .delay (variantRecord v).tBit, .clkLow,
            .delay (variantRecord v).tBit] }) ∧
    (b.eng.datOe = true →
      b.releaseBit (variantRecord v) =
        { b with
          eng := { b.eng with datOe := false }
          trace := b.trace ++ [.setDirIn, .clkHigh, .delay (variantRecord v).tBit, .clkLow,
            .delay (variantRecord v).tBit] })

/-- `Pulse()`, `HeldBit()` and `RecvBit()` (40_bus_primitives.md section 1, with decisions D4, D5, D7 and D8), from the
clock low as they require: what each writes and the events it adds. `HeldBit()` does not write the latch; `RecvBit()`
turns the pin to input only where it is an output, takes one sample of the released line and shifts it into `RDATA`.
(The counter `draws` is the model's own, log 5.) -/
def Obligations.PulseHeldBitAndRecvBit : Prop :=
  ∀ (v : Variant) (b : Bus) (d : Drive), b.eng.clk = false →
    b.pulse (variantRecord v) =
      { b with
        trace := b.trace ++ [.clkHigh, .delay (variantRecord v).tBit, .clkLow, .delay (variantRecord v).tBit] } ∧
    (b.eng.datOe = false →
      b.heldBit (variantRecord v) =
        { b with
          eng := { b.eng with datOe := true }
          trace := b.trace ++ [.setDirOut, .clkHigh, .delay (variantRecord v).tBit, .clkLow,
            .delay (variantRecord v).tBit] }) ∧
    ∃ l : Level, l = Bus.line (variantRecord v) d { b with eng := { b.eng with datOe := false } } ∧
      b.recvBit (variantRecord v) d =
        { b with
          eng := { b.eng with datOe := false, rdata := b.eng.rdata.extractLsb' 0 15 ++ BitVec.ofBool l }
          trace := b.trace ++ (if b.eng.datOe then [.setDirIn] else []) ++ [.clkHigh,
            .delay (variantRecord v).tBit, .sample l, .clkLow, .delay (variantRecord v).tBit]
          draws := b.draws + 1 }

/-- A request for a bus operation, presented when it may be, is the start step (40_bus_primitives.md section 2;
registers and request port by decision D1, the place of the setup delay D18): `DIR`, `ADDR` and (a write only) `WDATA`
are written, `IDX` is 0, `BUSY` is 1, the pin is an output at 1 (from the idle pins no change), with the three events of
the step; nothing else changes. Presented while `BUSY = 1` it is no move (decision D12; the stop is the model's, log 17;
every other reason to stop is in OperationNotReadyStops). -/
def Obligations.RequestIsTheStartStep : Prop :=
  ∀ (i : Instr) (v : Variant) (addr : Addr) (data : RegWord) (s : State),
    (IsBusWrite i v addr data ∨ IsBusRead i v addr) →
    (Ready v s →
      ∃ t, State.request i s = .next t ∧ t = s.setBus v (t.bus v) ∧
        t.bus v = { s.bus v with eng := (t.bus v).eng, trace := (t.bus v).trace } ∧
        (t.bus v).trace = (s.bus v).trace ++ [.setDirOut, .setDat true, .delay (variantRecord v).tSetup] ∧
        (IsBusWrite i v addr data → (t.bus v).eng =
          { (s.bus v).eng with dir := .wr, addr := addr, wdata := data, idx := 0, busy := true }) ∧
        (IsBusRead i v addr → (t.bus v).eng =
          { (s.bus v).eng with dir := .rd, addr := addr, idx := 0, busy := true }) ∧
        (t.bus v).eng.datOe = true ∧ (t.bus v).eng.datO = true) ∧
    ((s.bus v).eng.busy = true → State.request i s = .fault .requestWhileBusy)

/-- The action of every cell of a frame (40_bus_primitives.md section 3), with `P = V.PRE_LEN`, and that the cells'
symbols are `frame(V, dir, addr, wdata)`. The turnaround levels of a write are decision D6, the held cell D7, the
release in a read's data cells D8, the TWS codes D9, the TWS header D10. -/
def Obligations.CellActionOfEveryCell : Prop :=
  ∀ (v : Variant) (addr : Addr) (data : RegWord),
    (∀ dir, ∀ c < (variantRecord v).preLen, cellAction (variantRecord v) dir addr data c = .pulse) ∧
    (∀ dir, cellAction (variantRecord v) dir addr data (variantRecord v).preLen = .send false ∧
      cellAction (variantRecord v) dir addr data ((variantRecord v).preLen + 1) = .send true) ∧
    (cellAction (variantRecord v) .wr addr data ((variantRecord v).preLen + 2) = .send false ∧
      cellAction (variantRecord v) .wr addr data ((variantRecord v).preLen + 3) = .send true) ∧
    (cellAction (variantRecord v) .rd addr data ((variantRecord v).preLen + 2) = .send true ∧
      cellAction (variantRecord v) .rd addr data ((variantRecord v).preLen + 3) = .send false) ∧
    (∀ dir, ∀ k < 10, cellAction (variantRecord v) dir addr data ((variantRecord v).preLen + 4 + k) =
      .send (addr.getLsbD (9 - k))) ∧
    (cellAction (variantRecord v) .wr addr data ((variantRecord v).preLen + 14) =
        .send (variantRecord v).taWr.1 ∧
      cellAction (variantRecord v) .wr addr data ((variantRecord v).preLen + 15) =
        .send (variantRecord v).taWr.2 ∧ (variantRecord v).taWr = (true, false)) ∧
    (cellAction (variantRecord v) .rd addr data ((variantRecord v).preLen + 14) = .release ∧
      cellAction (variantRecord v) .rd addr data ((variantRecord v).preLen + 15) = .hold) ∧
    (∀ k < 16, cellAction (variantRecord v) .wr addr data ((variantRecord v).preLen + 16 + k) =
      .send (data.getLsbD (15 - k))) ∧
    (∀ k < 16, cellAction (variantRecord v) .rd addr data ((variantRecord v).preLen + 16 + k) = .recv) ∧
    (∀ dir, (List.range (variantRecord v).nCells).map
        (fun c => (cellAction (variantRecord v) dir addr data c).symbol) =
      (frame (variantRecord v) dir addr data).map some)

/-- The finish step (40_bus_primitives.md section 2; latch before direction by decision D8) is the step taken when
`BUSY = 1` and `IDX = V.N_CELLS`; it sets the latch high, turns the pin back to output where it is an input (the latch
first), clears `IDX` and `BUSY`, keeps `RDATA`, and leaves `CLK` as it is; after it, with the clock low, the pins are
at the idle levels. After a read `RDATA` is what the host gets back; a write gives nothing back. -/
def Obligations.FinishStepReturnsToIdle : Prop :=
  ∀ (v : Variant) (s : State), s.resetIn = false → (s.bus v).eng.busy = true →
    (∀ w, w ≠ v → (s.bus w).eng.busy = false) →
    (s.bus v).eng.idx.toNat = (variantRecord v).nCells →
    ∃ t, step s = .next t ∧
      (t.bus v).trace = (s.bus v).trace ++ [.setDat true]
        ++ (if (s.bus v).eng.datOe then [] else [.setDirOut]) ∧
      (t.bus v).eng.datO = true ∧ (t.bus v).eng.datOe = true ∧ (t.bus v).eng.idx = 0 ∧
      (t.bus v).eng.busy = false ∧ (t.bus v).eng.rdata = (s.bus v).eng.rdata ∧
      (t.bus v).eng.clk = (s.bus v).eng.clk ∧ (t.bus v).eng.dir = (s.bus v).eng.dir ∧
      (t.bus v).eng.addr = (s.bus v).eng.addr ∧ (t.bus v).eng.wdata = (s.bus v).eng.wdata ∧
      (t.bus v).env = (s.bus v).env ∧ (∀ w, w ≠ v → t.bus w = s.bus w) ∧
      t.returned = s.returned ++ (if (s.bus v).eng.dir = .rd then [(v, (s.bus v).eng.rdata)] else []) ∧
      ((s.bus v).eng.clk = false → (t.bus v).pinsIdle = true)

/-- The sequencer (40_bus_primitives.md section 3): while one instance is busy exactly one step is enabled, a cell (the
action of the cell `IDX`, then `IDX + 1`) or, at `V.N_CELLS`, the finish step; while nothing is busy the engine has no
step of its own, and only a request moves it: with no line left, or a line that presents nothing (a `DELAY`, the host's
read of `RDATA`), both instances stay as they are. (A waiting reset apart, which is an input, log 25.) The form of the
idle steps is the model's choice: with no line left the whole state stays as it is (DESIGN CHOICE, log 25), a `DELAY`
line is a step that only takes itself off the program (DESIGN CHOICE, logs 1 and 18), and the host's read of `RDATA` is a
line (DESIGN CHOICE, log 24). -/
def Obligations.SequencerTakesTheOneEnabledStep : Prop :=
  (∀ (v : Variant) (s : State), s.resetIn = false → (s.bus v).eng.busy = true →
    (∀ w, w ≠ v → (s.bus w).eng.busy = false) →
    ((s.bus v).eng.idx.toNat < (variantRecord v).nCells →
      step s = .next (s.setBus v ((s.bus v).cellStep (variantRecord v) Config.phyParams)) ∧
      ((s.bus v).cellStep (variantRecord v) Config.phyParams).eng.idx = (s.bus v).eng.idx + 1 ∧
      ∃ (d : Drive) (heard : Heard) (env : Environment),
        (s.bus v).cellStep (variantRecord v) Config.phyParams =
          { ((s.bus v).perform (variantRecord v) d (cellAction (variantRecord v) (s.bus v).eng.dir
                (s.bus v).eng.addr (s.bus v).eng.wdata (s.bus v).eng.idx.toNat)).advance with
            heard := heard, env := env }) ∧
    ((s.bus v).eng.idx.toNat = (variantRecord v).nCells →
      ∃ t, step s = .next t ∧ t.bus v = (s.bus v).finishStep)) ∧
  (∀ s : State, s.resetIn = false → s.mdio.eng.busy = false → s.tws.eng.busy = false → s.todo = [] →
    (s.program = [] → step s = .next s) ∧
    (∀ l rest, s.program = l :: rest → presentsNothing l = true →
      ∀ t, step s = .next t → t.mdio = s.mdio ∧ t.tws = s.tws) ∧
    (∀ us rest, s.program = .delay us :: rest → step s = .next { s with program := rest }))

/-! ### The operations: results and frames -/

/-- `MDIO.WR` completes in every state in which it may be presented, with the registers 41_mdio_ops.md gives (decision
D1) and everything else of the state, the trace and the target apart, as it was. -/
def Obligations.MdioWriteCompletes : Prop :=
  ∀ (s : State) (phyad regad : BitVec 5) (data : RegWord), Ready .mdio s →
    ∃ t, exec (.mdioWr phyad regad data) s = .next t ∧ WriteEffect .mdio (phyad ++ regad) data s t

/-- `MDIO.RD` completes in every state in which it may be presented, whatever hangs on the wires; the targets are
unchanged and the host gets `RDATA` back (41_mdio_ops.md, decision D1; the counter `draws` is the model's own, log 5). -/
def Obligations.MdioReadCompletes : Prop :=
  ∀ (s : State) (phyad regad : BitVec 5), Ready .mdio s →
    ∃ t, exec (.mdioRd phyad regad) s = .next t ∧ ReadEffect .mdio (phyad ++ regad) s t

/-- `TWS.WR` completes in every state in which it may be presented (42_tws_ops.md, decisions D1, D9 and D10). -/
def Obligations.TwsWriteCompletes : Prop :=
  ∀ (s : State) (reg : BitVec 8) (data : RegWord), Ready .tws s →
    ∃ t, exec (.twsWr reg data) s = .next t ∧ WriteEffect .tws (0b00#2 ++ reg) data s t

/-- `TWS.RD` completes in every state in which it may be presented, whatever hangs on the wires (42_tws_ops.md,
decisions D1, D9 and D10; the counter `draws` is the model's own, log 5). -/
def Obligations.TwsReadCompletes : Prop :=
  ∀ (s : State) (reg : BitVec 8), Ready .tws s →
    ∃ t, exec (.twsRd reg) s = .next t ∧ ReadEffect .tws (0b00#2 ++ reg) s t

/-- `PHY.WR` completes in every state in which it may be presented: a bus write of `cmd_word(WR, preg)` to
`CMD_REG`, the settle delay, a bus write of `data` to `DATA_REG`, the settle delay, in the trace in this order;
`WDATA = data`, `ADDR` that of `DATA_REG`, pins and `RDATA` unchanged (43_phy_wrappers.md). What it does to the targets
is in CompositeWriteReachesPreg. The spec's own decisions it rests on: the two delays and their value D16, the open
parameters D17, and in the pin traces of the two writes the pulse D4, the turnaround levels D6, the finish D8, the TWS
codes D9, the setup delay D18; that a settle delay stands in the trace of `PHY_BUS` is the model's, log 20. -/
def Obligations.PhyWriteCompletes : Prop :=
  ∀ (s : State) (preg : Nat) (data : RegWord), Ready Config.phyParams.port.bus s →
    ∃ t, exec (.phyWr preg data) s = .next t ∧
      WriteEffect Config.phyParams.port.bus Config.phyParams.port.dataAddr data s t ∧
      (t.bus Config.phyParams.port.bus).trace = (s.bus Config.phyParams.port.bus).trace
        ++ writeTrace (variantRecord Config.phyParams.port.bus) Config.phyParams.port.cmdAddr
            (Config.phyParams.cmdWord .wr preg)
        ++ [.delay 200000]
        ++ writeTrace (variantRecord Config.phyParams.port.bus) Config.phyParams.port.dataAddr data
        ++ [.delay 200000]

/-- `PHY.RD` completes in every state in which it may be presented: a bus write of `cmd_word(RD, preg)` to
`CMD_REG`, the settle delay, a bus read of `DATA_REG`, the settle delay, in the trace in this order;
`WDATA = cmd_word(RD, preg)`, `ADDR` that of `DATA_REG`, `RDATA` is the value the host gets, pins unchanged
(43_phy_wrappers.md). What it does to the targets is in CompositeReadReturnsPreg. The spec's own decisions it rests on:
the two delays and their value D16, the open parameters D17, and in the pin traces of the write and the read the pulse
D4, the sample point D5, the turnaround levels of the write D6, the latch not written in the `H` cell D7 (log 21), the
switch to input before the first data cell and the order at the finish D8, the TWS codes D9, the setup delay D18; that
a settle delay stands in the trace of `PHY_BUS` is the model's, log 20. -/
def Obligations.PhyReadCompletes : Prop :=
  ∀ (s : State) (preg : Nat), Ready Config.phyParams.port.bus s →
    ∃ t, exec (.phyRd preg) s = .next t ∧
      t = { s.setBus Config.phyParams.port.bus (t.bus Config.phyParams.port.bus) with
            returned := s.returned ++
              [(Config.phyParams.port.bus, (t.bus Config.phyParams.port.bus).eng.rdata)] } ∧
      (t.bus Config.phyParams.port.bus).eng =
        { (s.bus Config.phyParams.port.bus).eng with
          dir := .rd, addr := Config.phyParams.port.dataAddr, wdata := Config.phyParams.cmdWord .rd preg,
          rdata := (t.bus Config.phyParams.port.bus).eng.rdata, rdataValid := true, idx := 0, busy := false } ∧
      (t.bus Config.phyParams.port.bus).pull = (s.bus Config.phyParams.port.bus).pull ∧
      (t.bus Config.phyParams.port.bus).stuck = (s.bus Config.phyParams.port.bus).stuck ∧
      (t.bus Config.phyParams.port.bus).trace = (s.bus Config.phyParams.port.bus).trace
        ++ writeTrace (variantRecord Config.phyParams.port.bus) Config.phyParams.port.cmdAddr
            (Config.phyParams.cmdWord .rd preg)
        ++ [.delay 200000]
        ++ readTrace (variantRecord Config.phyParams.port.bus) Config.phyParams.port.dataAddr
            (msbFirst (t.bus Config.phyParams.port.bus).eng.rdata)
        ++ [.delay 200000]

/-- What a bus write puts on the wires: the pin trace of 41_mdio_ops.md and 42_tws_ops.md, whatever hangs on the wires.
The spec's own decisions it rests on (logs 14 and 21): the shape of the pulse D4, the turnaround levels of the variant
record D6, the finish D8, the TWS codes D9, the TWS header D10, the setup delay D18. -/
def Obligations.BusWritePinTrace : Prop :=
  ∀ (i : Instr) (v : Variant) (addr : Addr) (data : RegWord) (s : State),
    IsBusWrite i v addr data → Ready v s →
    ∃ t, exec i s = .next t ∧
      (t.bus v).trace = (s.bus v).trace ++ writeTrace (variantRecord v) addr data

/-- What a bus read puts on the wires: the pin trace of 41_mdio_ops.md and 42_tws_ops.md, its sixteen samples the
bits of `RDATA`, the first in bit 15. The spec's own decisions it rests on (logs 14 and 21): the shape of the pulse D4,
the sample point D5, the latch not written in the `H` cell D7, the switch to input before the first data cell and the
order of latch and direction at the finish D8, the TWS codes D9, the TWS header D10, the setup delay D18. -/
def Obligations.BusReadPinTrace : Prop :=
  ∀ (i : Instr) (v : Variant) (addr : Addr) (s : State),
    IsBusRead i v addr → Ready v s →
    ∃ t, exec i s = .next t ∧
      (t.bus v).trace = (s.bus v).trace ++ readTrace (variantRecord v) addr (msbFirst (t.bus v).eng.rdata)

/-- The cells of a bus operation, read off its pin trace, are the frame of 30_encoding.md section 2; a read's samples
are the bits of `RDATA` in order. The spec's own decisions it rests on (logs 14 and 21): the turnaround levels of a
write D6, the held cell D7, the release in a read's data cells D8, the TWS codes D9, the TWS header D10; how the cells
are read off is the model's, log 20. -/
def Obligations.OperationPutsItsFrameOnTheWires : Prop :=
  ∀ (i : Instr) (v : Variant) (addr : Addr) (data : RegWord) (s : State), Ready v s →
    (IsBusWrite i v addr data →
      ∃ t es, exec i s = .next t ∧ (t.bus v).trace = (s.bus v).trace ++ es ∧
        (cellsOf CellScan.start es).map (fun e => e.sym) = frame (variantRecord v) .wr addr data) ∧
    (IsBusRead i v addr →
      ∃ t es, exec i s = .next t ∧ (t.bus v).trace = (s.bus v).trace ++ es ∧
        (cellsOf CellScan.start es).map (fun e => e.sym) = frame (variantRecord v) .rd addr data ∧
        (cellsOf CellScan.start es).filterMap (fun e => e.sampled) = msbFirst (t.bus v).eng.rdata)

/-- Counts over the pin trace of one bus operation: `V.N_CELLS` pulses whatever the operands; 292, 294, 196 and 198
events; delays of `2 * V.N_CELLS * V.T_BIT + V.T_SETUP`; and `DAT_O` and `DAT_OE` written only while the clock is low
(40_bus_primitives.md section 1, 70_reset_and_hazards.md section 4, 95_test_vectors.md section 2.2). The spec's own
decisions it rests on (log 14): two delays a pulse D4 (one would give other sums), one setup delay D18, and for the
counts of a read the switch to input before its data cells D8 and one sample a cell D5. -/
def Obligations.OperationPulsesDelaysAndEvents : Prop :=
  ∀ (i : Instr) (v : Variant) (addr : Addr) (data : RegWord) (s : State), Ready v s →
    (IsBusWrite i v addr data ∨ IsBusRead i v addr) →
    ∃ t es, exec i s = .next t ∧ (t.bus v).trace = (s.bus v).trace ++ es ∧
      pulseCount es = (variantRecord v).nCells ∧
      delaySum es = 2 * (variantRecord v).nCells * (variantRecord v).tBit + Config.setupDelay v ∧
      dataMovesOnlyWhileLow false es = true ∧
      (IsBusWrite i v addr data → es.length = if v = .mdio then 292 else 196) ∧
      (IsBusRead i v addr → es.length = if v = .mdio then 294 else 198)

/-- What the targets have read of a frame (20_memory.md section 4, decision D14): of a write its op-code, address and
data; of a read its op-code and address. How the model keeps it, the frames before it included, is its own, log 7. -/
def Obligations.TargetsReadTheFrame : Prop :=
  ∀ (i : Instr) (v : Variant) (addr : Addr) (data : RegWord) (s : State), Ready v s → (s.bus v).stuck = none →
    (IsBusWrite i v addr data →
      ∃ t, exec i s = .next t ∧
        (t.bus v).heard =
          { op := (variantRecord v).opWr
            addr := addr
            data := data
            earlier := ⟨(s.bus v).heard.op, (s.bus v).heard.addr, (s.bus v).heard.data⟩ :: (s.bus v).heard.earlier }) ∧
    (IsBusRead i v addr →
      ∃ t, exec i s = .next t ∧
        (t.bus v).heard =
          { op := (variantRecord v).opRd
            addr := addr
            data := (s.bus v).heard.data
            earlier := ⟨(s.bus v).heard.op, (s.bus v).heard.addr, (s.bus v).heard.data⟩ :: (s.bus v).heard.earlier })

/-! ### The targets -/

/-- The memory of a bus write (20_memory.md section 4, decision D14): with reference targets on the wires, every target
that claims the address has the value there and every other register of it as before; a target that does not claim it
is unchanged. (A target whose indirect part takes part in the write is left to the composite statements.) -/
def Obligations.BusWriteStoresOneRegister : Prop :=
  ∀ (i : Instr) (v : Variant) (addr : Addr) (data : RegWord) (s : State) (ts : List RefTarget),
    IsBusWrite i v addr data → Ready v s → (s.bus v).stuck = none → (s.bus v).env = .reference ts →
    ∃ t ts', exec i s = .next t ∧ (t.bus v).env = .reference ts' ∧ ts'.length = ts.length ∧
      ∀ (k : Nat) (old new : RefTarget), ts[k]? = some old → ts'[k]? = some new →
        (old.claims addr = false → new = old) ∧
        (old.claims addr = true → PlainWrite Config.phyParams v addr old → old.treg.wf = true →
          new.claim = old.claim ∧ new.indirect = old.indirect ∧ new.treg.read addr.toNat = data ∧
          ∀ a, a ≠ addr.toNat → new.treg.read a = old.treg.read a)

/-- A claimed write, run cell by cell from its request (20_memory.md section 4, decision D14), leaves the targets
unchanged up to the start of cell `P + 31` (after the request and `P + 31` cells), and the claiming target has
`TREG[a] = d` after that cell, as one update, before the finish step; a target that has read a write op-code drives in
no cell. -/
def Obligations.WriteIsTakenAtTheLastDataCell : Prop :=
  (∀ (i : Instr) (v : Variant) (addr : Addr) (data : RegWord) (s : State) (rest : List HostLine)
      (tg : RefTarget),
    IsBusWrite i v addr data → Ready v s → s.resetIn = false → s.program = .request (encode i) :: rest →
    (s.bus v).stuck = none → (s.bus v).env = .reference [tg] → tg.claims addr = true →
    PlainWrite Config.phyParams v addr tg →
    (∀ k ≤ (variantRecord v).preLen + 31,
      ∃ t, run (1 + k) s = .next t ∧ (t.bus v).env = .reference [tg]) ∧
    (∃ t, run (1 + ((variantRecord v).preLen + 32)) s = .next t ∧
      (t.bus v).env = .reference [{ tg with treg := tg.treg.write addr.toNat data }] ∧
      (t.bus v).eng.busy = true ∧ (t.bus v).eng.idx.toNat = (variantRecord v).nCells)) ∧
  (∀ (v : Variant) (c : Nat) (h : Heard) (tg : RefTarget), h.op = (variantRecord v).opWr →
    tg.drive (variantRecord v) c h = .off)

/-- A target that has read a read op-code and a claimed address drives `TREG[a][15-k]` in data cell `P+16+k` and
nothing in every other cell (20_memory.md section 4, decision D14); a read that one target claims, or several that
agree, ends with `RDATA = TREG[a]` and the targets unchanged. -/
def Obligations.ReadReturnsTheRegister : Prop :=
  (∀ (v : Variant) (h : Heard) (tg : RefTarget), h.op = (variantRecord v).opRd → tg.claims h.addr = true →
    (∀ k < 16, tg.drive (variantRecord v) ((variantRecord v).preLen + 16 + k) h =
      .level ((tg.treg.read h.addr.toNat).getLsbD (15 - k))) ∧
    (∀ c, c < (variantRecord v).preLen + 16 ∨ (variantRecord v).preLen + 32 ≤ c →
      tg.drive (variantRecord v) c h = .off)) ∧
  (∀ (i : Instr) (v : Variant) (addr : Addr) (s : State) (ts : List RefTarget) (x : RegWord),
    IsBusRead i v addr → Ready v s → (s.bus v).stuck = none → (s.bus v).env = .reference ts →
    (∃ tg ∈ ts, tg.claims addr = true) →
    (∀ tg ∈ ts, tg.claims addr = true → tg.treg.read addr.toNat = x) →
    ∃ t, exec i s = .next t ∧ (t.bus v).eng.rdata = x ∧ (t.bus v).env = .reference ts ∧
      t.returned = s.returned ++ [(v, x)])

/-- A read nobody answers completes, and each sample is `PULL` (20_memory.md section 4, decision D15): the level the
platform fixes, or free; a write nobody claims completes and changes no target. -/
def Obligations.NobodyAnswers : Prop :=
  ∀ (i : Instr) (v : Variant) (addr : Addr) (data : RegWord) (s : State) (ts : List RefTarget),
    Ready v s → (s.bus v).stuck = none → (s.bus v).env = .reference ts →
    (∀ tg ∈ ts, tg.claims addr = false) →
    (IsBusRead i v addr →
      ∃ t, exec i s = .next t ∧ (t.bus v).env = .reference ts ∧
        (∀ l, (s.bus v).pull = some l → ∀ k < 16, (t.bus v).eng.rdata.getLsbD (15 - k) = l) ∧
        ((s.bus v).pull = none → ∀ k < 16,
          (t.bus v).eng.rdata.getLsbD (15 - k) = Config.freeLevel v ((s.bus v).draws + k))) ∧
    (IsBusWrite i v addr data → ∃ t, exec i s = .next t ∧ (t.bus v).env = .reference ts)

/-- A data line stuck at a level (60_exceptions.md section 1; how the model states it, log 13): a read completes and
returns all zeros or all ones; a write completes and no target takes it. -/
def Obligations.StuckLine : Prop :=
  ∀ (i : Instr) (v : Variant) (addr : Addr) (data : RegWord) (s : State) (l : Level),
    Ready v s → (s.bus v).stuck = some l →
    (IsBusRead i v addr →
      ∃ t, exec i s = .next t ∧ (t.bus v).eng.rdata = if l then 0xFFFF#16 else 0x0000#16) ∧
    (IsBusWrite i v addr data → ∃ t, exec i s = .next t ∧ (t.bus v).env = (s.bus v).env)

/-- Two devices answering at once (60_exceptions.md section 1; how the model states it, log 13): a bit on which they
agree is read, a bit on which they differ is free, and nothing tells the host. -/
def Obligations.TwoDevicesAnswerAtOnce : Prop :=
  ∀ (i : Instr) (v : Variant) (addr : Addr) (s : State) (t1 t2 : RefTarget),
    IsBusRead i v addr → Ready v s → (s.bus v).stuck = none → (s.bus v).env = .reference [t1, t2] →
    t1.claims addr = true → t2.claims addr = true →
    ∃ t, exec i s = .next t ∧
      ∀ k < 16,
        (t.bus v).eng.rdata.getLsbD (15 - k) =
          if (t1.treg.read addr.toNat).getLsbD (15 - k) = (t2.treg.read addr.toNat).getLsbD (15 - k)
          then (t1.treg.read addr.toNat).getLsbD (15 - k)
          else Config.freeLevel v ((s.bus v).draws + k)

/-- The round trip (20_memory.md section 4, decision D14; 41_mdio_ops.md and 42_tws_ops.md "Laws of the pair"): a bus
write and then a bus read of the same claimed address return the value written, for every value, MSB first. (Targets
whose indirect part takes part in the write are left to the composite statements.) -/
def Obligations.WriteThenReadReturnsTheValue : Prop :=
  ∀ (i j : Instr) (v : Variant) (addr : Addr) (data : RegWord) (s : State) (ts : List RefTarget),
    IsBusWrite i v addr data → IsBusRead j v addr →
    Ready v s → (s.bus v).stuck = none → (s.bus v).env = .reference ts →
    (∃ tg ∈ ts, tg.claims addr = true) →
    (∀ tg ∈ ts, tg.claims addr = true → PlainWrite Config.phyParams v addr tg ∧ tg.treg.wf = true) →
    ∃ t u, exec i s = .next t ∧ exec j t = .next u ∧ (u.bus v).eng.rdata = data ∧
      u.returned = s.returned ++ [(v, data)]

/-- A write at one address does not change what a read of another claimed address returns (41_mdio_ops.md and
42_tws_ops.md "Laws of the pair"). -/
def Obligations.WriteElsewhereDoesNotChangeARead : Prop :=
  ∀ (i j : Instr) (v : Variant) (addr other : Addr) (data : RegWord) (s : State) (tg : RefTarget),
    IsBusWrite i v addr data → IsBusRead j v other → other ≠ addr →
    Ready v s → (s.bus v).stuck = none → (s.bus v).env = .reference [tg] →
    tg.claims other = true → PlainWrite Config.phyParams v addr tg → tg.treg.wf = true →
    ∃ t u, exec i s = .next t ∧ exec j t = .next u ∧ (u.bus v).eng.rdata = tg.treg.read other.toNat

/-- What a plain bus write to `CMD_REG` or `DATA_REG` does to a target with an indirect part, for all parameter
values (43_phy_wrappers.md, "A reference target for the indirect space"). At `CMD_REG`: `PCMD` is the value written
and, where that is the command to read register `p`, `TREG[DATA_REG]` is `PREG[p]`. At `DATA_REG`: `TREG[DATA_REG]`
is the value written and, where `PCMD` is the command to write register `p`, so is `PREG[p]`. Every other register is
as before. That `PCMD` holds some word before any command has been written is the model's choice (DESIGN CHOICE, log
27); the statement holds for every such word. -/
def Obligations.BusWriteReachesTheIndirectPart : Prop :=
  (∀ (i : Instr) (v : Variant) (addr : Addr) (data : RegWord) (s : State), IsBusWrite i v addr data →
    exec i s = s.performBusOp Config.phyParams v .wr addr data) ∧
  ∀ (pp : PhyParams) (s : State) (w : RegWord) (old : RefTarget) (ind : IndirectPart),
    Ready pp.port.bus s → (s.bus pp.port.bus).stuck = none → (s.bus pp.port.bus).env = .reference [old] →
    old.wf = true → old.indirect = some ind → pp.port.cmdAddr ≠ pp.port.dataAddr → InjectiveCommand pp →
    (old.claims pp.port.cmdAddr = true →
      ∃ t new ind', s.performBusOp pp pp.port.bus .wr pp.port.cmdAddr w = .next t ∧
        (t.bus pp.port.bus).env = .reference [new] ∧ new.claim = old.claim ∧ new.indirect = some ind' ∧
        ind'.preg = ind.preg ∧ ind'.pcmd = w ∧ new.treg.read pp.port.cmdAddr.toNat = w ∧
        (∀ p < 2 ^ pp.pregWidth, w = pp.cmdWord .rd p →
          new.treg.read pp.port.dataAddr.toNat = ind.preg.read p) ∧
        ((∀ p < 2 ^ pp.pregWidth, w ≠ pp.cmdWord .rd p) →
          new.treg.read pp.port.dataAddr.toNat = old.treg.read pp.port.dataAddr.toNat) ∧
        ∀ a, a ≠ pp.port.cmdAddr.toNat → a ≠ pp.port.dataAddr.toNat →
          new.treg.read a = old.treg.read a) ∧
    (old.claims pp.port.dataAddr = true →
      ∃ t new ind', s.performBusOp pp pp.port.bus .wr pp.port.dataAddr w = .next t ∧
        (t.bus pp.port.bus).env = .reference [new] ∧ new.claim = old.claim ∧ new.indirect = some ind' ∧
        ind'.pcmd = ind.pcmd ∧ new.treg.read pp.port.dataAddr.toNat = w ∧
        (∀ a, a ≠ pp.port.dataAddr.toNat → new.treg.read a = old.treg.read a) ∧
        (∀ p < 2 ^ pp.pregWidth, ind.pcmd = pp.cmdWord .wr p →
          ind'.preg.read p = w ∧ ∀ q, q ≠ p → ind'.preg.read q = ind.preg.read q) ∧
        ((∀ p < 2 ^ pp.pregWidth, ind.pcmd ≠ pp.cmdWord .wr p) → ind'.preg = ind.preg))

/-- What a composite write does to the targets, for all parameter values (43_phy_wrappers.md, "A reference target
for the indirect space"): of a target that claims both registers, `TREG[CMD_REG]` and `TREG[DATA_REG]` have the two
words and every other register is as before; its indirect part, if it has one, has the command in `PCMD` and the
value in `PREG[preg]`, every other register of `PREG` as before. A target that claims neither is unchanged. -/
def Obligations.CompositeWriteReachesPreg : Prop :=
  (∀ (s : State) (preg : Nat) (data : RegWord),
    exec (.phyWr preg data) s = s.performComposite Config.phyParams .wr preg data) ∧
  ∀ (pp : PhyParams) (s : State) (preg : Nat) (data : RegWord) (old : RefTarget),
    Ready pp.port.bus s → (s.bus pp.port.bus).stuck = none → (s.bus pp.port.bus).env = .reference [old] →
    old.wf = true → pp.port.cmdAddr ≠ pp.port.dataAddr → InjectiveCommand pp → preg < 2 ^ pp.pregWidth →
    ∃ t new, s.performComposite pp .wr preg data = .next t ∧
      (t.bus pp.port.bus).env = .reference [new] ∧ new.claim = old.claim ∧
      (old.claims pp.port.cmdAddr = false → old.claims pp.port.dataAddr = false → new = old) ∧
      (old.claims pp.port.cmdAddr = true → old.claims pp.port.dataAddr = true →
        new.treg.read pp.port.cmdAddr.toNat = pp.cmdWord .wr preg ∧
        new.treg.read pp.port.dataAddr.toNat = data ∧
        (∀ a, a ≠ pp.port.cmdAddr.toNat → a ≠ pp.port.dataAddr.toNat →
          new.treg.read a = old.treg.read a) ∧
        (old.indirect = none → new.indirect = none) ∧
        (∀ ind, old.indirect = some ind →
          ∃ ind', new.indirect = some ind' ∧ ind'.pcmd = pp.cmdWord .wr preg ∧ ind'.preg.read preg = data ∧
            ∀ q, q ≠ preg → ind'.preg.read q = ind.preg.read q))

/-- The round trip of the indirect space, for all parameter values with `cmd_word` telling the registers apart
(43_phy_wrappers.md, "A reference target for the indirect space"): `PHY.WR p, v` and then `PHY.RD p` return `v`. -/
def Obligations.CompositeRoundTrip : Prop :=
  (∀ (s : State) (preg : Nat), exec (.phyRd preg) s = s.performComposite Config.phyParams .rd preg 0) ∧
  ∀ (pp : PhyParams) (s : State) (preg : Nat) (data : RegWord) (tg : RefTarget) (ind : IndirectPart),
    Ready pp.port.bus s → (s.bus pp.port.bus).stuck = none → (s.bus pp.port.bus).env = .reference [tg] →
    tg.wf = true → tg.indirect = some ind →
    tg.claims pp.port.cmdAddr = true → tg.claims pp.port.dataAddr = true →
    pp.port.cmdAddr ≠ pp.port.dataAddr → InjectiveCommand pp → preg < 2 ^ pp.pregWidth →
    ∃ t u, s.performComposite pp .wr preg data = .next t ∧ t.performComposite pp .rd preg 0 = .next u ∧
      (u.bus pp.port.bus).eng.rdata = data ∧ u.returned = s.returned ++ [(pp.port.bus, data)]

/-! ### Independence -/

/-- Fire blind (41_mdio_ops.md, `MDIO.WR`, "Exceptions"): a write gives the same engine state and the same trace
whatever hangs on the wires and whatever the platform does to the data line. -/
def Obligations.WriteDoesNotDependOnTheTarget : Prop :=
  ∀ (i : Instr) (v : Variant) (addr : Addr) (data : RegWord) (s s' : State),
    IsBusWrite i v addr data → Ready v s → Ready v s' →
    (s.bus v).eng = (s'.bus v).eng → (s.bus v).trace = (s'.bus v).trace →
    ∃ t t', exec i s = .next t ∧ exec i s' = .next t' ∧
      (t.bus v).eng = (t'.bus v).eng ∧ (t.bus v).trace = (t'.bus v).trace

/-- The result of a read does not depend on the old `RDATA` (10_state.md section 3). The two runs compared have the same
free levels and the same drives of an unknown target, which is the model's choice (logs 5 and 6). -/
def Obligations.ReadDoesNotDependOnOldRdata : Prop :=
  ∀ (i : Instr) (v : Variant) (addr : Addr) (s : State) (old : RegWord), IsBusRead i v addr → Ready v s →
    ∃ t t', exec i s = .next t ∧
      exec i (s.setBus v { s.bus v with eng := { (s.bus v).eng with rdata := old } }) = .next t' ∧ t = t'

/-- An operation on one instance reads and writes nothing of the other (10_state.md section 7, decision D2): with
another idle instance beside it, it does the same. The two runs compared have the same free levels and the same drives
of an unknown target, which is the model's choice (logs 5 and 6). -/
def Obligations.OperationIgnoresTheOtherInstance : Prop :=
  ∀ (i : Instr) (v w : Variant) (addr : Addr) (data : RegWord) (s : State) (b : Bus),
    (IsBusWrite i v addr data ∨ IsBusRead i v addr) → w ≠ v → Ready v s → b.eng.busy = false →
    ∃ t, exec i s = .next t ∧ t.bus w = s.bus w ∧ exec i (s.setBus w b) = .next (t.setBus w b)

/-- The turnaround levels of a write reach nobody (30_encoding.md section 2 leaves them to decision D6): the targets
after a write are the same with any `V.TA_WR`. -/
def Obligations.TurnaroundLevelsDoNotMatter : Prop :=
  ∀ (v : Variant) (pp : PhyParams) (b : Bus) (addr : Addr) (data : RegWord) (ta : Level × Level),
    b.eng.clk = false →
    ((b.runFrame { variantRecord v with taWr := ta } pp .wr addr data).finishStep).env =
      ((b.runFrame (variantRecord v) pp .wr addr data).finishStep).env ∧
    ((b.runFrame { variantRecord v with taWr := ta } pp .wr addr data).finishStep).eng =
      ((b.runFrame (variantRecord v) pp .wr addr data).finishStep).eng

/-! ### Cell by cell -/

/-- 40_bus_primitives.md R90: a bus operation is the start step, `V.N_CELLS` sequencer steps and the finish step, 66
steps on MDIO and 42 on TWS: presented as a request and run that many steps it ends in the very state the big step
gives; and in between the instance is busy at every step, the host's program not read and the other instance not
touched. -/
def Obligations.SixtySixOrFortyTwoStepsMakeTheOperation : Prop :=
  ∀ (i : Instr) (v : Variant) (addr : Addr) (data : RegWord) (s : State) (rest : List HostLine),
    (IsBusWrite i v addr data ∨ IsBusRead i v addr) → Ready v s → s.resetIn = false →
    ∃ t, step { s with program := .op (encode i) :: rest } = .next t ∧
      run (if v = .mdio then 66 else 42)
        { s with program := .request (encode i) :: rest } = .next t ∧
      ∀ k, 1 ≤ k → k < (if v = .mdio then 66 else 42) →
        ∃ u, run k { s with program := .request (encode i) :: rest } = .next u ∧
          (u.bus v).eng.busy = true ∧ u.program = rest ∧ ∀ w, w ≠ v → u.bus w = s.bus w

/-- A composite presented as a request and run one step at a time ends in the state the big step gives: the two bus
operations' steps and the two settle delays, `2 * (V.N_CELLS + 2) + 2` in all (43_phy_wrappers.md; that there are two
settle delays, and where they stand, is the spec's own decision D16, log 14; that each is one step is the model's
choice, log 15). `BUSY` is 0 on both instances when each settle delay begins. -/
def Obligations.CompositeRunsStepByStep : Prop :=
  ∀ (i : Instr) (s : State) (rest : List HostLine),
    (∃ preg data, i = .phyWr preg data ∨ i = .phyRd preg) → wellFormed i = true →
    Ready Config.phyParams.port.bus s → s.resetIn = false →
    ∃ t u w, step { s with program := .op (encode i) :: rest } = .next t ∧
      run (2 * ((variantRecord Config.phyParams.port.bus).nCells + 2) + 2)
        { s with program := .request (encode i) :: rest } = .next t ∧
      run ((variantRecord Config.phyParams.port.bus).nCells + 2)
        { s with program := .request (encode i) :: rest } = .next u ∧
      u.mdio.eng.busy = false ∧ u.tws.eng.busy = false ∧
      u.todo.head? = some (.settle Config.phyParams.port.bus) ∧
      run (2 * ((variantRecord Config.phyParams.port.bus).nCells + 2) + 1)
        { s with program := .request (encode i) :: rest } = .next w ∧
      w.mdio.eng.busy = false ∧ w.tws.eng.busy = false ∧ w.todo = [.settle Config.phyParams.port.bus]

/-! ### Invariants and the whole machine -/

/-- The state after reset meets the invariant (10_state.md section 9, decision D13). Two of its clauses rest at reset on
the model's choices and not on the spec: that the TWS address has a zero header, since the spec leaves `ADDR` unspecified
after reset and the model takes 0 (DESIGN CHOICE, log 3), and that the register arrays are canonical, since at reset the
device on the wires is the unknown one, which has none (DESIGN CHOICE, log 6). -/
def Obligations.ResetMeetsTheInvariant : Prop := State.Inv State.reset

/-- Every step keeps the invariant: the clock low and `IDX` within the frame (10_state.md sections 2 and 6), the idle pins
while idle (40_bus_primitives.md section 5), the direction of the data pin as the frame has it while busy, in the data
cells of a read as decision D8 has it, one operation at a time (10_state.md section 7), the header of the TWS address
zero (30_encoding.md section 2, decision D10). Two clauses rest on the model's choices: over a reset step the zero header
holds only because the model takes `ADDR` as 0 there (DESIGN CHOICE, log 3), where the spec leaves it unspecified; and
that the register arrays of the targets are canonical is a property of the lists the model keeps them in (DESIGN CHOICE,
log 8). -/
def Obligations.StepKeepsTheInvariant : Prop :=
  ∀ s t : State, State.Inv s → step s = .next t → State.Inv t

/-- An operation, once requested, always runs on to its finish step, and a composite to its end: in a state of the
invariant in which an instance is busy or a composite is in progress, the step is neither a fault nor a refusal
(60_exceptions.md section 3). -/
def Obligations.RequestedOperationNeverStops : Prop :=
  ∀ s : State, State.Inv s → (s.mdio.eng.busy = true ∨ s.tws.eng.busy = true ∨ s.todo ≠ []) →
    ∃ t, step s = .next t

/-- Idle, the engine stays as it is for any number of steps, the clock low and the data line driven high, until a request
(or a reset) comes (60_exceptions.md section 6): whatever lines the host's program has that present nothing (`DELAY`, the
host's read of `RDATA`), no run over them changes an instance. The form of these runs is the model's choice: that lines
stand in a program and are taken off it (DESIGN CHOICE, log 1), that a run over delays goes on to any length (DESIGN
CHOICE, log 18), and so does one over reads of registers that hold a value (DESIGN CHOICE, log 24) and one with no line
left (DESIGN CHOICE, log 25). -/
def Obligations.IdleEngineStaysIdle : Prop :=
  ∀ (s : State) (k : Nat), State.Inv s → s.resetIn = false → s.mdio.eng.busy = false →
    s.tws.eng.busy = false → s.todo = [] → (∀ l ∈ s.program, presentsNothing l = true) →
    (∀ v, (s.bus v).eng.clk = false ∧ (s.bus v).eng.datOe = true ∧ (s.bus v).eng.datO = true) ∧
    (∀ t, run k s = .next t → t.mdio = s.mdio ∧ t.tws = s.tws) ∧
    ((∀ l ∈ s.program, ∃ us, l = .delay us) → run k s = .next { s with program := s.program.drop k }) ∧
    ((∀ w, .readRdata w ∈ s.program → (s.bus w).eng.rdataValid = true) →
      ∃ t, run k s = .next t ∧ t.program = s.program.drop k)

/-- The operand registers are constant while `BUSY = 1` (10_state.md section 3). -/
def Obligations.OperandsAreConstantWhileBusy : Prop :=
  ∀ (v : Variant) (s t : State), s.resetIn = false → (s.bus v).eng.busy = true → step s = .next t →
    (t.bus v).eng.dir = (s.bus v).eng.dir ∧ (t.bus v).eng.addr = (s.bus v).eng.addr ∧
    (t.bus v).eng.wdata = (s.bus v).eng.wdata

/-- While an instance is busy its `RDATA` changes only in the data cells of a read, by shifting one level in
(10_state.md section 3). -/
def Obligations.RdataIsWrittenOnlyInReadDataCells : Prop :=
  ∀ (v : Variant) (s t : State), s.resetIn = false → (s.bus v).eng.busy = true → step s = .next t →
    (t.bus v).eng.rdata ≠ (s.bus v).eng.rdata →
    (s.bus v).eng.dir = .rd ∧ phase (variantRecord v) (s.bus v).eng.idx.toNat = .data ∧
    ∃ l, (t.bus v).eng.rdata = shiftIn (s.bus v).eng.rdata l

/-! ### Reset -/

/-- What reset leaves (10_state.md section 9, the values of its table, decision D13): the pins at the idle levels,
`IDX = 0`, `BUSY = 0`, an empty trace, no value in `RDATA` (a host read of it faults). -/
def Obligations.ResetValues : Prop :=
  ∀ v : Variant,
    (State.reset.bus v).eng.clk = false ∧ (State.reset.bus v).eng.datO = true ∧
    (State.reset.bus v).eng.datOe = true ∧ (State.reset.bus v).eng.idx = 0 ∧
    (State.reset.bus v).eng.busy = false ∧ (State.reset.bus v).trace = [] ∧
    State.reset.readRdata v = .fault .rdataNoValue

/-- A waiting reset is the next step in every state, a frame under way or not (70_reset_and_hazards.md section 1,
decision D13): both engines are as after reset, the traces are empty, the operation in progress is abandoned, the program
and what the host got are kept (the model's choice, log 10), and the operand registers and the bits of `RDATA`, which the
spec gives no value after reset, are those the model takes (DESIGN CHOICE, logs 3 and 4). The targets are untouched
unless the reset cuts a frame short, some but not all of its cells performed. Then each target keeps its registers but
for what it makes of the truncated frame, which is free: nothing, or the one write that `Config.freeCut` gives for it
(the model's choice, log 9). A target without an indirect part has that value at that address, if it claims it, and every
other register as it was. -/
def Obligations.ResetInputResetsTheEngines : Prop :=
  ∀ s : State, s.resetIn = true →
    ∃ t, step s = .next t ∧ t.resetIn = false ∧ t.todo = [] ∧ t.program = s.program ∧
      t.returned = s.returned ∧ t.portReads = s.portReads ∧
      ∀ v, (t.bus v).eng = (State.reset.bus v).eng ∧ (t.bus v).trace = [] ∧ (t.bus v).heard = (s.bus v).heard ∧
        (t.bus v).pull = (s.bus v).pull ∧ (t.bus v).stuck = (s.bus v).stuck ∧
        ((s.bus v).eng.busy = false ∨ (s.bus v).eng.idx = 0 ∨ (s.bus v).eng.idx.toNat = (variantRecord v).nCells →
          (s.bus v).inFrame (variantRecord v) = false) ∧
        ((s.bus v).inFrame (variantRecord v) = false →
          (t.bus v).env = (s.bus v).env ∧ (t.bus v).draws = (s.bus v).draws) ∧
        ((s.bus v).inFrame (variantRecord v) = true → (t.bus v).draws = (s.bus v).draws + 1) ∧
        ((s.bus v).env = .unknown → (t.bus v).env = .unknown) ∧
        (∀ ts, (s.bus v).inFrame (variantRecord v) = true → (s.bus v).env = .reference ts →
          ∃ ts', (t.bus v).env = .reference ts' ∧ ts'.length = ts.length ∧
            ∀ (k : Nat) (old new : RefTarget), ts[k]? = some old → ts'[k]? = some new →
              new = old.takeCut (variantRecord v) Config.phyParams
                (Config.freeCut v (s.bus v).heard (s.bus v).draws k) ∧
              new.claim = old.claim ∧
              (Config.freeCut v (s.bus v).heard (s.bus v).draws k = none → new = old) ∧
              (∀ a d, Config.freeCut v (s.bus v).heard (s.bus v).draws k = some (a, d) →
                (old.claims a = false → new = old) ∧
                (old.indirect = none → old.treg.wf = true →
                  new.indirect = none ∧ (old.claims a = true → new.treg.read a.toNat = d) ∧
                  ∀ x, x ≠ a.toNat → new.treg.read x = old.treg.read x)))

/-! ### The host's moves -/

/-- A step runs the decoded operation: with nothing in progress and an operation next in the program, `step` is
`exec` of what the decoder reads, the line taken off. That the program stands in State and a step takes its first line
is the model's choice (DESIGN CHOICE, log 1), and so is that an `op` line is one big step (DESIGN CHOICE, log 15). The
host's other lines are in StepPerformsTheOtherLines. -/
def Obligations.StepRunsTheDecodedOperation : Prop :=
  ∀ (s : State) (c : CodedOp) (rest : List HostLine) (i : Instr), s.resetIn = false → s.mayRequest = true →
    s.program = .op c :: rest → decode c = .ok i → wellFormed i = true →
    step s = exec i { s with program := rest }

/-- What cannot be presented is refused by name: words that are no operation (30_encoding.md section 4) and an
operand wider than its port (00_scope.md section 7). -/
def Obligations.StepRefusesWhatCannotBePresented : Prop :=
  ∀ (s : State) (c : CodedOp) (rest : List HostLine), s.resetIn = false → s.mayRequest = true →
    (s.program = .op c :: rest ∨ s.program = .request c :: rest) →
    (∀ e, decode c = .error e → step s = .refused (.notAnOperation e)) ∧
    (∀ i, decode c = .ok i → wellFormed i = false → step s = .refused .operandTooWide)

/-- When an operation does not run, performed as one step or presented as a request, on whichever instance: while an
operation or a composite is in progress anywhere there is no such move (70_reset_and_hazards.md section 3, decision D12),
and with the pins of its instance not at the idle levels the run has no meaning (70_reset_and_hazards.md section 2). That
the model stops there, and how, is its own choice (logs 16 and 17). -/
def Obligations.OperationNotReadyStops : Prop :=
  ∀ (i : Instr) (s : State),
    (s.mdio.eng.busy = true ∨ s.tws.eng.busy = true ∨ s.todo ≠ [] →
      exec i s = .fault .requestWhileBusy ∧ State.request i s = .fault .requestWhileBusy) ∧
    (s.mayRequest = true → (s.bus (instrBus i)).pinsIdle = false →
      exec i s = .refused .bootRequirementNotMet ∧ State.request i s = .refused .bootRequirementNotMet)

/-- The host's own read of `RDATA`: a fault while `BUSY = 1` and before a read has ended (10_state.md sections 3 and 9,
93_implementation_defined.md U7); otherwise the host gets the register's value, and nothing changes but what the host
got. That the read is a line of the program and only adds to `portReads` is the model's choice (DESIGN CHOICE, log 24),
and so is the form, a bit `rdataValid`, in which it keeps whether a read has ended (DESIGN CHOICE, log 4); the faults are
the spec's. -/
def Obligations.HostReadsRdata : Prop :=
  ∀ (v : Variant) (s : State),
    ((s.bus v).eng.busy = true → s.readRdata v = .fault .rdataWhileBusy) ∧
    ((s.bus v).eng.busy = false → (s.bus v).eng.rdataValid = false → s.readRdata v = .fault .rdataNoValue) ∧
    ((s.bus v).eng.busy = false → (s.bus v).eng.rdataValid = true →
      s.readRdata v = .next { s with portReads := s.portReads ++ [(v, (s.bus v).eng.rdata)] })

/-- The host's lines that are no `op` line, with nothing in progress: a `request` line presents what the decoder reads
(40_bus_primitives.md section 2), a `DELAY` line changes nothing of the machine (30_encoding.md section 6), a `readRdata`
line is the host's read of `RDATA` (10_state.md section 3); each is taken off the program. That these are lines of a
program in State is the model's choice (DESIGN CHOICE, logs 1, 15, 18 and 24). -/
def Obligations.StepPerformsTheOtherLines : Prop :=
  ∀ (s : State) (rest : List HostLine), s.resetIn = false → s.mayRequest = true →
    (∀ c i, s.program = .request c :: rest → decode c = .ok i → wellFormed i = true →
      step s = State.request i { s with program := rest }) ∧
    (∀ us, s.program = .delay us :: rest → step s = .next { s with program := rest }) ∧
    (∀ v, s.program = .readRdata v :: rest → step s = State.readRdata v { s with program := rest })

/-! ### The composite read and the targets -/

/-- What a composite read returns and does to the targets, for all parameter values (43_phy_wrappers.md, "A reference
target for the indirect space", decision D22; which instance the indirect part is on is the model's, log 23): of a target
that claims both registers, `TREG[CMD_REG]` has the command word; with an indirect part `RDATA` and `TREG[DATA_REG]` are
`PREG[preg]`, `PCMD` has the command and `PREG` is as before; without one `RDATA` is `TREG[DATA_REG]` as it was. Every
other register is as before. A target that claims neither is unchanged. -/
def Obligations.CompositeReadReturnsPreg : Prop :=
  (∀ (s : State) (preg : Nat), exec (.phyRd preg) s = s.performComposite Config.phyParams .rd preg 0) ∧
  ∀ (pp : PhyParams) (s : State) (preg : Nat) (old : RefTarget),
    Ready pp.port.bus s → (s.bus pp.port.bus).stuck = none → (s.bus pp.port.bus).env = .reference [old] →
    old.wf = true → pp.port.cmdAddr ≠ pp.port.dataAddr → InjectiveCommand pp → preg < 2 ^ pp.pregWidth →
    ∃ t new, s.performComposite pp .rd preg 0 = .next t ∧
      (t.bus pp.port.bus).env = .reference [new] ∧ new.claim = old.claim ∧
      (old.claims pp.port.cmdAddr = false → old.claims pp.port.dataAddr = false → new = old) ∧
      (old.claims pp.port.cmdAddr = true → old.claims pp.port.dataAddr = true →
        new.treg.read pp.port.cmdAddr.toNat = pp.cmdWord .rd preg ∧
        (∀ a, a ≠ pp.port.cmdAddr.toNat → a ≠ pp.port.dataAddr.toNat →
          new.treg.read a = old.treg.read a) ∧
        (old.indirect = none → new.indirect = none ∧
          new.treg.read pp.port.dataAddr.toNat = old.treg.read pp.port.dataAddr.toNat ∧
          (t.bus pp.port.bus).eng.rdata = old.treg.read pp.port.dataAddr.toNat) ∧
        (∀ ind, old.indirect = some ind →
          new.treg.read pp.port.dataAddr.toNat = ind.preg.read preg ∧
          (t.bus pp.port.bus).eng.rdata = ind.preg.read preg ∧
          t.returned = s.returned ++ [(pp.port.bus, ind.preg.read preg)] ∧
          ∃ ind', new.indirect = some ind' ∧ ind'.pcmd = pp.cmdWord .rd preg ∧ ind'.preg = ind.preg))
end

