-- ==== Sys2Proof/Laws/Operands.lean ====
section
/-! SUPPORT. Bit selection and shift-in (40_bus_primitives.md R91), and the cell actions counted from the end of the
preamble (40_bus_primitives.md R89). -/

namespace Sys2Proof.Machine

theorem getLsbD_shiftIn {w : Nat} (x : BitVec w) (b : Level) (i : Nat) :
    (shiftIn x b).getLsbD i = (decide (i < w) && if i = 0 then b else x.getLsbD (i - 1)) := by
  simp [shiftIn, BitVec.getLsbD_setWidth, BitVec.getLsbD_concat]

/-- Shifting a list of levels in, the first one first. -/
theorem getLsbD_foldl_shiftIn {w : Nat} (l : List Level) (x : BitVec w) (i : Nat) :
    (l.foldl shiftIn x).getLsbD i =
      (decide (i < w) && if i < l.length then l.getD (l.length - 1 - i) false else x.getLsbD (i - l.length)) := by
  induction l generalizing x with
  | nil =>
    by_cases h : i < w
    · simp [h]
    · simp [h, BitVec.getLsbD_of_ge x i (by omega)]
  | cons b rest ih =>
    rw [List.foldl_cons, ih, getLsbD_shiftIn]
    by_cases hw : i < w
    · by_cases h1 : i < rest.length
      · have h2 : i < rest.length + 1 := by omega
        have h3 : rest.length + 1 - 1 - i = (rest.length - 1 - i) + 1 := by omega
        simp only [hw, h1, h2, List.length_cons, if_true, h3, List.getD_cons_succ, decide_true]
      · by_cases h2 : i = rest.length
        · subst h2
          simp [hw]
          omega
        · have h3 : ¬ i < rest.length + 1 := by omega
          have h4 : ¬ i - rest.length = 0 := by omega
          have h5 : i - rest.length - 1 = i - (rest.length + 1) := by omega
          have h6 : i - rest.length < w := by omega
          simp [hw, h1, h3, h4, h5, h6]
    · simp [hw]

theorem length_msbFirst {w : Nat} (x : BitVec w) : (msbFirst x).length = w := by
  simp [msbFirst]

theorem msbFirst_getD {w : Nat} (x : BitVec w) (k : Nat) (h : k < w) :
    (msbFirst x).getD k false = x.getLsbD (w - 1 - k) := by
  simp [msbFirst, List.getD, h]

/-- Shifting a field's bits in, most significant first, gives the field, whatever was there. -/
theorem foldl_shiftIn_msbFirst {w : Nat} (a x : BitVec w) : (msbFirst a).foldl shiftIn x = a := by
  apply BitVec.eq_of_getLsbD_eq
  intro i hi
  have h : w - 1 - (w - 1 - i) = i := by omega
  rw [getLsbD_foldl_shiftIn, length_msbFirst, msbFirst_getD _ _ (by omega), h]
  simp [hi]

/-- As many levels as the register has bits, shifted in, are its bits, most significant first. -/
theorem msbFirst_foldl_shiftIn {w : Nat} (l : List Level) (h : l.length = w) (x : BitVec w) :
    msbFirst (l.foldl shiftIn x) = l := by
  apply List.ext_getElem
  · simp [length_msbFirst, h]
  · intro k h1 h2
    have hk : k < w := by simpa [length_msbFirst] using h1
    have h3 : w - 1 - k < w := by omega
    have h4 : w - 1 - (w - 1 - k) = k := by omega
    simp [msbFirst, getLsbD_foldl_shiftIn, h, h3, h4, hk]

/-- A field is known by its bits, most significant first. -/
theorem msbFirst_injective {w : Nat} {x y : BitVec w} (h : msbFirst x = msbFirst y) : x = y := by
  rw [← foldl_shiftIn_msbFirst x y, h, foldl_shiftIn_msbFirst]

/-- The parts of a frame after the preamble. -/
def phaseAfter (k : Nat) : Phase :=
  if k < 2 then .st else if k < 4 then .op else if k < 14 then .addr else if k < 16 then .ta
  else if k < 32 then .data else .fin

theorem phase_preamble {V : VariantRecord} {c : Nat} (h : c < V.preLen) : phase V c = .pre := by
  simp [phase, h]

theorem phase_after (V : VariantRecord) (k : Nat) : phase V (V.preLen + k) = phaseAfter k := by
  simp [phase, phaseAfter]

/-- The cell actions after the preamble. -/
def actionAfter (V : VariantRecord) (dir : Dir) (addr : Addr) (wdata : RegWord) (k : Nat) : CellAction :=
  match phaseAfter k with
  | .pre => .pulse
  | .st => .send (pick V.st k)
  | .op => .send (pick (opCode V dir) (k - 2))
  | .addr => .send (addr.getLsbD (9 - (k - 4)))
  | .ta =>
    match dir with
    | .wr => .send (pick V.taWr (k - 14))
    | .rd => if k = 14 then .release else .hold
  | .data =>
    match dir with
    | .wr => .send (wdata.getLsbD (15 - (k - 16)))
    | .rd => .recv
  | .fin => .nothing

theorem cellAction_preamble {V : VariantRecord} {c : Nat} (dir : Dir) (addr : Addr) (wdata : RegWord)
    (h : c < V.preLen) : cellAction V dir addr wdata c = .pulse := by
  simp [cellAction, phase_preamble h]

theorem cellAction_after (V : VariantRecord) (dir : Dir) (addr : Addr) (wdata : RegWord) (k : Nat) :
    cellAction V dir addr wdata (V.preLen + k) = actionAfter V dir addr wdata k := by
  unfold cellAction actionAfter
  rw [phase_after]
  cases phaseAfter k <;> cases dir <;> simp

end Sys2Proof.Machine
end

