-- ==== Sys2Proof/Laws/State.lean ====
section
/-! SUPPORT. One lemma per field per update, so that no later proof unfolds a record update. -/

namespace Sys2Proof.Machine

/-! ### Selecting and replacing an instance -/

@[simp] theorem bus_mdio (s : State) : s.bus .mdio = s.mdio := rfl
@[simp] theorem bus_tws (s : State) : s.bus .tws = s.tws := rfl
@[simp] theorem setBus_mdio (b : Bus) (s : State) : s.setBus .mdio b = { s with mdio := b } := rfl
@[simp] theorem setBus_tws (b : Bus) (s : State) : s.setBus .tws b = { s with tws := b } := rfl

@[simp] theorem bus_setBus (v : Variant) (b : Bus) (s : State) : (s.setBus v b).bus v = b := by
  cases v <;> rfl

theorem bus_setBus_of_ne {v w : Variant} (h : w ≠ v) (b : Bus) (s : State) :
    (s.setBus v b).bus w = s.bus w := by
  cases v <;> cases w <;> first | rfl | exact absurd rfl h

@[simp] theorem setBus_setBus (v : Variant) (b b' : Bus) (s : State) :
    (s.setBus v b).setBus v b' = s.setBus v b' := by
  cases v <;> rfl

@[simp] theorem setBus_bus (v : Variant) (s : State) : s.setBus v (s.bus v) = s := by
  cases v <;> rfl

@[simp] theorem setBus_todo (v : Variant) (b : Bus) (s : State) : (s.setBus v b).todo = s.todo := by
  cases v <;> rfl
@[simp] theorem setBus_program (v : Variant) (b : Bus) (s : State) : (s.setBus v b).program = s.program := by
  cases v <;> rfl
@[simp] theorem setBus_returned (v : Variant) (b : Bus) (s : State) :
    (s.setBus v b).returned = s.returned := by
  cases v <;> rfl
@[simp] theorem setBus_portReads (v : Variant) (b : Bus) (s : State) :
    (s.setBus v b).portReads = s.portReads := by
  cases v <;> rfl
@[simp] theorem setBus_resetIn (v : Variant) (b : Bus) (s : State) : (s.setBus v b).resetIn = s.resetIn := by
  cases v <;> rfl

/-! ### Pin operations -/

@[simp] theorem emit_eng (e : PinEvent) (b : Bus) : (b.emit e).eng = b.eng := rfl
@[simp] theorem emit_trace (e : PinEvent) (b : Bus) : (b.emit e).trace = b.trace ++ [e] := rfl
@[simp] theorem emit_heard (e : PinEvent) (b : Bus) : (b.emit e).heard = b.heard := rfl
@[simp] theorem emit_env (e : PinEvent) (b : Bus) : (b.emit e).env = b.env := rfl
@[simp] theorem emit_pull (e : PinEvent) (b : Bus) : (b.emit e).pull = b.pull := rfl
@[simp] theorem emit_stuck (e : PinEvent) (b : Bus) : (b.emit e).stuck = b.stuck := rfl
@[simp] theorem emit_draws (e : PinEvent) (b : Bus) : (b.emit e).draws = b.draws := rfl

@[simp] theorem delay_eng (n : Nat) (b : Bus) : (b.delay n).eng = b.eng := rfl
@[simp] theorem delay_trace (n : Nat) (b : Bus) : (b.delay n).trace = b.trace ++ [.delay n] := rfl
@[simp] theorem delay_heard (n : Nat) (b : Bus) : (b.delay n).heard = b.heard := rfl
@[simp] theorem delay_env (n : Nat) (b : Bus) : (b.delay n).env = b.env := rfl
@[simp] theorem delay_pull (n : Nat) (b : Bus) : (b.delay n).pull = b.pull := rfl
@[simp] theorem delay_stuck (n : Nat) (b : Bus) : (b.delay n).stuck = b.stuck := rfl
@[simp] theorem delay_draws (n : Nat) (b : Bus) : (b.delay n).draws = b.draws := rfl

@[simp] theorem advance_eng (b : Bus) : b.advance.eng = { b.eng with idx := b.eng.idx + 1 } := rfl
@[simp] theorem advance_trace (b : Bus) : b.advance.trace = b.trace := rfl
@[simp] theorem advance_heard (b : Bus) : b.advance.heard = b.heard := rfl
@[simp] theorem advance_env (b : Bus) : b.advance.env = b.env := rfl
@[simp] theorem advance_pull (b : Bus) : b.advance.pull = b.pull := rfl
@[simp] theorem advance_stuck (b : Bus) : b.advance.stuck = b.stuck := rfl
@[simp] theorem advance_draws (b : Bus) : b.advance.draws = b.draws := rfl

/-! ### What hangs on the wires -/

@[simp] theorem hear_eng (V : VariantRecord) (c : Nat) (b : Bus) :
    (b.hear V c).eng = b.eng := rfl
@[simp] theorem hear_trace (V : VariantRecord) (c : Nat) (b : Bus) :
    (b.hear V c).trace = b.trace := rfl
@[simp] theorem hear_env (V : VariantRecord) (c : Nat) (b : Bus) :
    (b.hear V c).env = b.env := rfl
@[simp] theorem hear_pull (V : VariantRecord) (c : Nat) (b : Bus) :
    (b.hear V c).pull = b.pull := rfl
@[simp] theorem hear_stuck (V : VariantRecord) (c : Nat) (b : Bus) :
    (b.hear V c).stuck = b.stuck := rfl
@[simp] theorem hear_draws (V : VariantRecord) (c : Nat) (b : Bus) :
    (b.hear V c).draws = b.draws := rfl
@[simp] theorem commit_eng (V : VariantRecord) (pp : PhyParams) (c : Nat) (b : Bus) :
    (b.commit V pp c).eng = b.eng := rfl
@[simp] theorem commit_trace (V : VariantRecord) (pp : PhyParams) (c : Nat) (b : Bus) :
    (b.commit V pp c).trace = b.trace := rfl
@[simp] theorem commit_heard (V : VariantRecord) (pp : PhyParams) (c : Nat) (b : Bus) :
    (b.commit V pp c).heard = b.heard := rfl
@[simp] theorem commit_pull (V : VariantRecord) (pp : PhyParams) (c : Nat) (b : Bus) :
    (b.commit V pp c).pull = b.pull := rfl
@[simp] theorem commit_stuck (V : VariantRecord) (pp : PhyParams) (c : Nat) (b : Bus) :
    (b.commit V pp c).stuck = b.stuck := rfl
@[simp] theorem commit_draws (V : VariantRecord) (pp : PhyParams) (c : Nat) (b : Bus) :
    (b.commit V pp c).draws = b.draws := rfl
@[simp] theorem commit_env (V : VariantRecord) (pp : PhyParams) (c : Nat) (b : Bus) :
    (b.commit V pp c).env = b.env.commit V pp c b.heard := rfl

@[simp] theorem cutShort_eng (V : VariantRecord) (pp : PhyParams) (b : Bus) : (b.cutShort V pp).eng = b.eng := by
  unfold Bus.cutShort; split <;> rfl
@[simp] theorem cutShort_trace (V : VariantRecord) (pp : PhyParams) (b : Bus) :
    (b.cutShort V pp).trace = b.trace := by
  unfold Bus.cutShort; split <;> rfl
@[simp] theorem cutShort_heard (V : VariantRecord) (pp : PhyParams) (b : Bus) :
    (b.cutShort V pp).heard = b.heard := by
  unfold Bus.cutShort; split <;> rfl
@[simp] theorem cutShort_pull (V : VariantRecord) (pp : PhyParams) (b : Bus) : (b.cutShort V pp).pull = b.pull := by
  unfold Bus.cutShort; split <;> rfl
@[simp] theorem cutShort_stuck (V : VariantRecord) (pp : PhyParams) (b : Bus) :
    (b.cutShort V pp).stuck = b.stuck := by
  unfold Bus.cutShort; split <;> rfl

@[simp] theorem cut_unknown (V : VariantRecord) (pp : PhyParams) (h : Heard) (n : Nat) :
    Environment.cut V pp h n .unknown = .unknown := rfl
@[simp] theorem commit_unknown (V : VariantRecord) (pp : PhyParams) (c : Nat) (h : Heard) :
    Environment.commit V pp c h .unknown = .unknown := rfl

end Sys2Proof.Machine
end

