-- ==== Sys2Proof/Laws/Ops.lean ====
section
/-! SUPPORT. One lemma for each shared operation of Machine/Ops.lean that says all it does. -/

namespace Sys2Proof.Machine

/-! ### The pulse and the five cells (40_bus_primitives.md R81 to R85, traces of R95) -/

theorem pulse_eq (V : VariantRecord) (b : Bus) :
    b.pulse V = { b with eng := { b.eng with clk := false }, trace := b.trace ++ pulseEvents V } := by
  simp [Bus.pulse, Bus.setClk, Bus.delay, Bus.emit, pulseEvents]

theorem sendBit_eq (V : VariantRecord) (l : Level) (b : Bus) :
    b.sendBit V l =
      { b with eng := { b.eng with clk := false, datO := l }, trace := b.trace ++ sendEvents V l } := by
  simp [Bus.sendBit, pulse_eq, Bus.setDat, Bus.emit, sendEvents]

theorem heldBit_eq (V : VariantRecord) (b : Bus) :
    b.heldBit V =
      { b with eng := { b.eng with clk := false, datOe := true },
               trace := b.trace ++ (.setDirOut :: pulseEvents V) } := by
  simp [Bus.heldBit, pulse_eq, Bus.setDir, Bus.emit]

theorem releaseBit_eq (V : VariantRecord) (b : Bus) :
    b.releaseBit V =
      { b with eng := { b.eng with clk := false, datOe := false },
               trace := b.trace ++ (.setDirIn :: pulseEvents V) } := by
  simp [Bus.releaseBit, pulse_eq, Bus.setDir, Bus.emit]

theorem toInput_eq (b : Bus) :
    b.toInput =
      { b with eng := { b.eng with datOe := false },
               trace := b.trace ++ (if b.eng.datOe then [.setDirIn] else []) } := by
  unfold Bus.toInput
  split
  · next h => simp [Bus.setDir, Bus.emit]
  · next h =>
    rcases b with ⟨⟨clk, datO, datOe, dir, addr, wdata, rdata, rv, idx, busy⟩, trace, heard, env, pull, stuck, draws⟩
    simp at h
    simp [h]

theorem samplePulse_eq (V : VariantRecord) (t : Drive) (b : Bus) :
    b.samplePulse V t =
      { b with eng := { b.eng with clk := false, rdata := shiftIn b.eng.rdata (b.line V t) },
               trace := b.trace ++ recvEvents V (b.line V t), draws := b.draws + 1 } := by
  simp [Bus.samplePulse, Bus.setClk, Bus.delay, Bus.takeSample, Bus.emit, recvEvents]

/-- What a released line reads as, the targets driving `t` (10_state.md R23, `DAT_OE = 0`). -/
theorem line_released {V : VariantRecord} {t : Drive} {b : Bus} (h : b.eng.datOe = false) :
    b.line V t = b.stuck.getD (match t with
      | .off => b.pull.getD (b.anyLevel V)
      | .level l => l
      | .clash => b.anyLevel V) := by
  unfold Bus.line
  cases b.stuck <;> cases t <;> simp [h]

theorem line_toInput (V : VariantRecord) (t : Drive) (b : Bus) :
    b.toInput.line V t = b.stuck.getD (match t with
      | .off => b.pull.getD (b.anyLevel V)
      | .level l => l
      | .clash => b.anyLevel V) := by
  have h : b.toInput.eng.datOe = false := by rw [toInput_eq]
  rw [line_released h]
  simp [toInput_eq, Bus.anyLevel]

theorem recvBit_eq (V : VariantRecord) (t : Drive) (b : Bus) :
    b.recvBit V t =
      { b with eng := { b.eng with clk := false, datOe := false,
                                   rdata := shiftIn b.eng.rdata (b.toInput.line V t) },
               trace := b.trace ++ (if b.eng.datOe then [.setDirIn] else [])
                 ++ recvEvents V (b.toInput.line V t),
               draws := b.draws + 1 } := by
  simp [Bus.recvBit, samplePulse_eq, toInput_eq]

/-! ### Start and finish (40_bus_primitives.md R86, R87) -/

theorem startStep_eq (V : VariantRecord) (dir : Dir) (addr : Addr) (wdata : RegWord) (b : Bus) :
    b.startStep V dir addr wdata =
      { b with eng := { b.eng.accept dir addr wdata with datOe := true, datO := true },
               trace := b.trace ++ [.setDirOut, .setDat true, .delay V.tSetup] } := by
  simp [Bus.startStep, Bus.setDir, Bus.setDat, Bus.delay, Bus.emit]

theorem finishStep_eq (b : Bus) :
    b.finishStep =
      { b with eng := { b.eng.release with datO := true, datOe := true },
               trace := b.trace ++ (.setDat true :: (if b.eng.datOe then [] else [.setDirOut])) } := by
  rcases b with ⟨⟨clk, datO, datOe, dir, addr, wdata, rdata, rv, idx, busy⟩, trace, heard, env, pull, stuck, draws⟩
  cases datOe <;> simp [Bus.finishStep, Bus.toOutput, Bus.setDat, Bus.setDir, Bus.emit, Engine.release]

/-! ### What no cell touches -/

@[simp] theorem perform_env (V : VariantRecord) (t : Drive) (a : CellAction) (b : Bus) :
    (b.perform V t a).env = b.env := by
  cases a <;> simp [Bus.perform, pulse_eq, sendBit_eq, heldBit_eq, releaseBit_eq, recvBit_eq]

@[simp] theorem perform_heard (V : VariantRecord) (t : Drive) (a : CellAction) (b : Bus) :
    (b.perform V t a).heard = b.heard := by
  cases a <;> simp [Bus.perform, pulse_eq, sendBit_eq, heldBit_eq, releaseBit_eq, recvBit_eq]

@[simp] theorem perform_pull (V : VariantRecord) (t : Drive) (a : CellAction) (b : Bus) :
    (b.perform V t a).pull = b.pull := by
  cases a <;> simp [Bus.perform, pulse_eq, sendBit_eq, heldBit_eq, releaseBit_eq, recvBit_eq]

@[simp] theorem perform_stuck (V : VariantRecord) (t : Drive) (a : CellAction) (b : Bus) :
    (b.perform V t a).stuck = b.stuck := by
  cases a <;> simp [Bus.perform, pulse_eq, sendBit_eq, heldBit_eq, releaseBit_eq, recvBit_eq]

/-- A cell leaves the operand registers, `BUSY`, `IDX` and the validity of `RDATA` alone, and a clock that is low is
low after it. -/
theorem perform_keeps (V : VariantRecord) (t : Drive) (a : CellAction) (b : Bus) :
    (b.perform V t a).eng.dir = b.eng.dir ∧ (b.perform V t a).eng.addr = b.eng.addr ∧
    (b.perform V t a).eng.wdata = b.eng.wdata ∧ (b.perform V t a).eng.idx = b.eng.idx ∧
    (b.perform V t a).eng.busy = b.eng.busy ∧ (b.perform V t a).eng.rdataValid = b.eng.rdataValid ∧
    (b.eng.clk = false → (b.perform V t a).eng.clk = false) := by
  cases a <;> simp [Bus.perform, pulse_eq, sendBit_eq, heldBit_eq, releaseBit_eq, recvBit_eq]

/-! ### A cell and a run of cells -/

theorem cells_zero (V : VariantRecord) (pp : PhyParams) (b : Bus) : b.cells V pp 0 = b := rfl

theorem cells_succ (V : VariantRecord) (pp : PhyParams) (n : Nat) (b : Bus) :
    b.cells V pp (n + 1) = (b.cellStep V pp).cells V pp n := rfl

/-- A run of cells may be cut anywhere. -/
theorem cells_add (V : VariantRecord) (pp : PhyParams) (m n : Nat) (b : Bus) :
    b.cells V pp (m + n) = (b.cells V pp m).cells V pp n := by
  induction m generalizing b with
  | zero => simp [cells_zero]
  | succ m ih => rw [Nat.succ_add, cells_succ, ih, cells_succ]

theorem cells_succ_last (V : VariantRecord) (pp : PhyParams) (n : Nat) (b : Bus) :
    b.cells V pp (n + 1) = (b.cells V pp n).cellStep V pp := by
  rw [cells_add, cells_succ, cells_zero]

/-- A cell leaves the operand registers, `BUSY` and the validity of `RDATA` alone (10_state.md R24), and steps
`IDX` by one. -/
theorem cellStep_keeps (V : VariantRecord) (pp : PhyParams) (b : Bus) :
    (b.cellStep V pp).eng.dir = b.eng.dir ∧ (b.cellStep V pp).eng.addr = b.eng.addr ∧
    (b.cellStep V pp).eng.wdata = b.eng.wdata ∧ (b.cellStep V pp).eng.idx = b.eng.idx + 1 ∧
    (b.cellStep V pp).eng.busy = b.eng.busy ∧ (b.cellStep V pp).eng.rdataValid = b.eng.rdataValid ∧
    (b.eng.clk = false → (b.cellStep V pp).eng.clk = false) ∧
    (b.cellStep V pp).pull = b.pull ∧ (b.cellStep V pp).stuck = b.stuck := by
  obtain ⟨h1, h2, h3, h4, h5, h6, h7⟩ := perform_keeps V (b.drive V b.eng.idx.toNat)
    (cellAction V b.eng.dir b.eng.addr b.eng.wdata b.eng.idx.toNat) b
  simpa [Bus.cellStep, h1, h2, h3, h4, h5, h6] using h7

/-! ### The machine's operations -/

theorem whenIdle_next {v : Variant} {s t : State} {act : State → State}
    (h : s.whenIdle v act = .next t) : s.mayRequest = true ∧ (s.bus v).pinsIdle = true ∧ t = act s := by
  unfold State.whenIdle at h
  split at h
  · split at h
    · cases h; exact ⟨‹_›, ‹_›, rfl⟩
    · cases h
  · cases h

theorem whenIdle_ready {v : Variant} {s : State} {act : State → State} (h1 : s.mayRequest = true)
    (h2 : (s.bus v).pinsIdle = true) : s.whenIdle v act = .next (act s) := by
  simp [State.whenIdle, h1, h2]

end Sys2Proof.Machine
end

