-- ==== Sys2Proof/Laws/Frames.lean ====
section
/-! SUPPORT. What a whole frame does to an instance (40_bus_primitives.md R90): `busWrite_eq` and
`busRead_eq` say it once, for the provers to cite. -/

namespace Sys2Proof.Machine

/-! ### Cells in which the engine drives -/

/-- The level on the wire in a driven cell: the bit sent, or the idle 1 of the preamble. -/
def CellAction.level (a : CellAction) : Level :=
  match a with
  | .send l => l
  | .pulse => true
  | .release => true
  | .hold => true
  | .recv => true
  | .nothing => true

/-- The pin trace of a driven cell. -/
def CellAction.events (V : VariantRecord) (a : CellAction) : List PinEvent :=
  match a with
  | .send l => sendEvents V l
  | .pulse => pulseEvents V
  | .release => []
  | .hold => []
  | .recv => []
  | .nothing => []

/-- The cell is a preamble cell or sends a bit. -/
def CellAction.driven (a : CellAction) : Bool :=
  match a with
  | .send _ => true
  | .pulse => true
  | .release => false
  | .hold => false
  | .recv => false
  | .nothing => false

/-- The level of a driven cell of a frame. -/
def levelAt (V : VariantRecord) (dir : Dir) (addr : Addr) (wdata : RegWord) (c : Nat) : Level :=
  (cellAction V dir addr wdata c).level

/-- What the targets have read after the first `k` cells, all of them driven. -/
def heardAfter (V : VariantRecord) (dir : Dir) (addr : Addr) (wdata : RegWord) (stuck : Option Level) (h : Heard)
    (k : Nat) : Heard :=
  (List.range k).foldl (fun h c => h.listen V c (stuck.getD (levelAt V dir addr wdata c))) h

theorem heardAfter_succ (V : VariantRecord) (dir : Dir) (addr : Addr) (wdata : RegWord) (stuck : Option Level)
    (h : Heard) (k : Nat) :
    heardAfter V dir addr wdata stuck h (k + 1) =
      (heardAfter V dir addr wdata stuck h k).listen V k (stuck.getD (levelAt V dir addr wdata k)) := by
  simp [heardAfter, List.range_succ]

theorem seen_driving {b : Bus} (h : b.eng.datOe = true) : b.seen = some (b.stuck.getD b.eng.datO) := by
  unfold Bus.seen
  cases b.stuck <;> simp [h]

theorem seen_released {b : Bus} (h : b.eng.datOe = false) : b.seen = b.stuck := by
  unfold Bus.seen
  cases b.stuck <;> simp [h]

theorem commit_early {V : VariantRecord} {pp : PhyParams} {c : Nat} (h : Heard) (e : Environment)
    (hc : c ≠ V.preLen + 31) : e.commit V pp c h = e := by
  cases e <;> simp [Environment.commit, hc]

theorem commit_not_write {V : VariantRecord} {pp : PhyParams} {c : Nat} {h : Heard} (e : Environment)
    (hop : h.op ≠ V.opWr) : e.commit V pp c h = e := by
  cases e <;> simp [Environment.commit, hop]

/-- One driven cell. In a preamble cell the latch must hold the idle 1. -/
theorem cellStep_driven {V : VariantRecord} {pp : PhyParams} {b : Bus}
    (hd : (cellAction V b.eng.dir b.eng.addr b.eng.wdata b.eng.idx.toNat).driven = true)
    (hp : cellAction V b.eng.dir b.eng.addr b.eng.wdata b.eng.idx.toNat = .pulse → b.eng.datO = true)
    (ho : b.eng.datOe = true) :
    b.cellStep V pp =
      { b with
        eng := { b.eng with
                 clk := false
                 datO := levelAt V b.eng.dir b.eng.addr b.eng.wdata b.eng.idx.toNat
                 idx := b.eng.idx + 1 }
        trace := b.trace ++ (cellAction V b.eng.dir b.eng.addr b.eng.wdata b.eng.idx.toNat).events V
        heard := b.heard.listen V b.eng.idx.toNat
          (b.stuck.getD (levelAt V b.eng.dir b.eng.addr b.eng.wdata b.eng.idx.toNat))
        env := b.env.commit V pp b.eng.idx.toNat (b.heard.listen V b.eng.idx.toNat
          (b.stuck.getD (levelAt V b.eng.dir b.eng.addr b.eng.wdata b.eng.idx.toNat))) } := by
  unfold Bus.cellStep levelAt
  cases ha : cellAction V b.eng.dir b.eng.addr b.eng.wdata b.eng.idx.toNat with
  | pulse =>
    have hp' := hp ha
    simp [Bus.perform, pulse_eq, Bus.hear, Bus.commit, Bus.advance, seen_driving, ho, hp',
      CellAction.level, CellAction.events]
  | send l =>
    simp [Bus.perform, sendBit_eq, Bus.hear, Bus.commit, Bus.advance, seen_driving, ho,
      CellAction.level, CellAction.events]
  | release => rw [ha] at hd; cases hd
  | hold => rw [ha] at hd; cases hd
  | recv => rw [ha] at hd; cases hd
  | nothing => rw [ha] at hd; cases hd

/-- `ofNat` of the index and back. -/
theorem idx_toNat {k : Nat} (h : k < 128) : (BitVec.ofNat 7 k).toNat = k := by
  simp only [BitVec.toNat_ofNat]
  omega

theorem idx_succ (k : Nat) : BitVec.ofNat 7 k + 1 = BitVec.ofNat 7 (k + 1) := by
  apply BitVec.eq_of_toNat_eq
  simp [BitVec.toNat_add]

theorem idx_succ_literal (k : Nat) : BitVec.ofNat 7 k + 1#7 = BitVec.ofNat 7 (k + 1) := idx_succ k

/-- The first `k` cells of a frame, all driven, from the pins as `StartStep` leaves them. -/
theorem cells_driven {V : VariantRecord} {pp : PhyParams} {b : Bus} {k : Nat}
    (h0 : b.eng.idx = 0) (hclk : b.eng.clk = false) (ho : b.eng.datOe = true) (hd : b.eng.datO = true)
    (hk : k ≤ 127)
    (hdriven : ∀ c < k, (cellAction V b.eng.dir b.eng.addr b.eng.wdata c).driven = true)
    (hpulse : ∀ c < k, cellAction V b.eng.dir b.eng.addr b.eng.wdata c = .pulse → c < V.preLen) :
    ∀ j ≤ k, j ≤ V.preLen + 32 →
    b.cells V pp j =
      { b with
        eng := { b.eng with
                 datO := (match j with
                   | 0 => true
                   | j + 1 => levelAt V b.eng.dir b.eng.addr b.eng.wdata j)
                 idx := BitVec.ofNat 7 j }
        trace := b.trace ++
          (List.range j).flatMap (fun c => (cellAction V b.eng.dir b.eng.addr b.eng.wdata c).events V)
        heard := heardAfter V b.eng.dir b.eng.addr b.eng.wdata b.stuck b.heard j
        env := if j = V.preLen + 32 then
            b.env.commit V pp (V.preLen + 31)
              (heardAfter V b.eng.dir b.eng.addr b.eng.wdata b.stuck b.heard (V.preLen + 32))
          else b.env } := by
  intro j
  induction j with
  | zero =>
    intro _ _
    rcases b with ⟨⟨clk, datO, datOe, dir, addr, wdata, rdata, rv, idx, busy⟩, trace, heard, env, pull, stuck, draws⟩
    simp at h0 hclk ho hd
    simp [cells_zero, heardAfter, h0, hd]
  | succ j ih =>
    intro hj hj'
    have hlt : j < 128 := by omega
    have hne : ¬ j = V.preLen + 32 := by omega
    rw [cells_succ_last, ih (by omega) (by omega)]
    rw [cellStep_driven]
    · simp only [idx_toNat hlt, idx_succ, ← heardAfter_succ, List.range_succ, List.flatMap_append,
        List.flatMap_cons, List.flatMap_nil, List.append_nil, List.append_assoc, hne, if_false, hclk]
      by_cases hl : j = V.preLen + 31
      · subst hl
        simp
      · have hl' : ¬ j + 1 = V.preLen + 32 := by omega
        rw [if_neg hl', commit_early _ _ hl]
    · simpa only [idx_toNat hlt] using hdriven j (by omega)
    · intro hpl
      simp only [idx_toNat hlt] at hpl
      have hjp := hpulse j (by omega) hpl
      cases j with
      | zero => rfl
      | succ i =>
        have : cellAction V b.eng.dir b.eng.addr b.eng.wdata i = .pulse := cellAction_preamble _ _ _ (by omega)
        simp [levelAt, this, CellAction.level]
    · exact ho

/-! ### The frame's cells, one by one -/

theorem heard_preamble (V : VariantRecord) (dir : Dir) (addr : Addr) (wdata : RegWord) (stuck : Option Level)
    (h : Heard) (k : Nat) (hk : k ≤ V.preLen) : heardAfter V dir addr wdata stuck h k = h := by
  induction k with
  | zero => rfl
  | succ k ih =>
    rw [heardAfter_succ, ih (by omega)]
    simp [Heard.listen, phase_preamble (show k < V.preLen by omega)]

/-- What one cell after the preamble adds to what the targets have read. -/
def Heard.listenAfter (k : Nat) (level : Level) (h : Heard) : Heard :=
  match phaseAfter k with
  | .op => { h with op := (h.op.2, level) }
  | .addr => { h with addr := shiftIn h.addr level }
  | .data => { h with data := shiftIn h.data level }
  | .pre => h
  | .st => if k = 0 then h.nextFrame else h
  | .ta => h
  | .fin => h

theorem heard_after (V : VariantRecord) (dir : Dir) (addr : Addr) (wdata : RegWord) (stuck : Option Level)
    (h : Heard) (k : Nat) :
    heardAfter V dir addr wdata stuck h (V.preLen + k) =
      (List.range k).foldl
        (fun h c => h.listenAfter c (stuck.getD (actionAfter V dir addr wdata c).level)) h := by
  induction k with
  | zero => simpa using heard_preamble V dir addr wdata stuck h V.preLen (Nat.le_refl _)
  | succ k ih =>
    rw [← Nat.add_assoc, heardAfter_succ, ih, List.range_succ, List.foldl_append]
    simp only [List.foldl_cons, List.foldl_nil, levelAt, cellAction_after]
    unfold Heard.listen Heard.listenAfter
    rw [phase_after]
    cases phaseAfter k <;> simp

/-- A write frame is heard whole: op-code, address and data (20_memory.md R48); what was heard before is an earlier
frame's. -/
theorem heard_write (V : VariantRecord) (addr : Addr) (wdata : RegWord) (h : Heard) :
    heardAfter V .wr addr wdata none h (V.preLen + 32) =
      { op := V.opWr, addr := addr, data := wdata, earlier := h.nextFrame.earlier } := by
  have ha := foldl_shiftIn_msbFirst addr h.addr
  have hw := foldl_shiftIn_msbFirst wdata h.data
  rw [heard_after]
  simp only [msbFirst, List.range, List.range.loop, List.map, List.foldl] at ha hw ⊢
  simp [Heard.listenAfter, Heard.nextFrame, phaseAfter, actionAfter, CellAction.level, pick, opCode, Option.getD]
    at ha hw ⊢
  exact ⟨ha, hw⟩

/-- A read frame is heard up to its address. -/
theorem heard_read (V : VariantRecord) (addr : Addr) (wdata : RegWord) (h : Heard) :
    heardAfter V .rd addr wdata none h (V.preLen + 14) =
      { op := V.opRd, addr := addr, data := h.data, earlier := h.nextFrame.earlier } := by
  have ha := foldl_shiftIn_msbFirst addr h.addr
  rw [heard_after]
  simp only [msbFirst, List.range, List.range.loop, List.map, List.foldl] at ha ⊢
  simp [Heard.listenAfter, Heard.nextFrame, phaseAfter, actionAfter, CellAction.level, pick, opCode, Option.getD]
    at ha ⊢
  exact ha

/-- On a stuck line the two op-code cells are heard at the stuck level. -/
theorem heard_stuck (V : VariantRecord) (dir : Dir) (addr : Addr) (wdata : RegWord) (l : Level) (h : Heard)
    (k : Nat) (hk : 4 ≤ k) :
    (heardAfter V dir addr wdata (some l) h (V.preLen + k)).op = (l, l) := by
  induction k, hk using Nat.le_induction with
  | base =>
    rw [heard_after]
    simp [List.range, List.range.loop, Heard.listenAfter, phaseAfter]
  | succ k hk ih =>
    rw [← Nat.add_assoc, heardAfter_succ]
    have h0 : ¬ k = 0 := by omega
    have h2 : ¬ k < 2 := by omega
    have h4 : ¬ k < 4 := by omega
    unfold Heard.listen
    rw [phase_after]
    unfold phaseAfter
    simp only [h2, h4, if_false]
    split <;> simp_all

/-! ### A whole write -/

theorem pulses_flatMap (V : VariantRecord) (dir : Dir) (addr : Addr) (wdata : RegWord) (k : Nat)
    (hk : k ≤ V.preLen) :
    (List.range k).flatMap (fun c => (cellAction V dir addr wdata c).events V) =
      (List.replicate k (pulseEvents V)).flatten := by
  induction k with
  | zero => rfl
  | succ k ih =>
    rw [List.range_succ, List.flatMap_append, ih (by omega), List.replicate_succ']
    simp [cellAction_preamble dir addr wdata (show k < V.preLen by omega), CellAction.events]

theorem after_flatMap (V : VariantRecord) (dir : Dir) (addr : Addr) (wdata : RegWord) (k : Nat) :
    (List.range (V.preLen + k)).flatMap (fun c => (cellAction V dir addr wdata c).events V) =
      (List.replicate V.preLen (pulseEvents V)).flatten ++
        (List.range k).flatMap (fun c => (actionAfter V dir addr wdata c).events V) := by
  induction k with
  | zero => simpa using pulses_flatMap V dir addr wdata V.preLen (Nat.le_refl _)
  | succ k ih =>
    rw [← Nat.add_assoc, List.range_succ, List.flatMap_append, ih, List.range_succ, List.flatMap_append]
    simp [cellAction_after]

theorem events_write (V : VariantRecord) (addr : Addr) (wdata : RegWord) :
    (List.range 32).flatMap (fun c => (actionAfter V .wr addr wdata c).events V) =
      ([V.st.1, V.st.2, V.opWr.1, V.opWr.2] ++ msbFirst addr ++ [V.taWr.1, V.taWr.2]
        ++ msbFirst wdata).flatMap (sendEvents V) := by
  simp [msbFirst, List.range, List.range.loop, actionAfter, phaseAfter, CellAction.events, pick, opCode]

theorem driven_write (V : VariantRecord) (addr : Addr) (wdata : RegWord) {c : Nat} (h : c < V.preLen + 32) :
    (cellAction V .wr addr wdata c).driven = true ∧
      (cellAction V .wr addr wdata c = .pulse → c < V.preLen) := by
  by_cases hc : c < V.preLen
  · simp [cellAction_preamble _ _ _ hc, CellAction.driven, hc]
  · obtain ⟨k, rfl⟩ := Nat.exists_eq_add_of_le (Nat.le_of_not_lt hc)
    rw [cellAction_after]
    have hk : k < 32 := by omega
    unfold actionAfter phaseAfter
    by_cases h1 : k < 2
    · simp [h1, CellAction.driven]
    by_cases h2 : k < 4
    · simp [h1, h2, CellAction.driven]
    by_cases h3 : k < 14
    · simp [h1, h2, h3, CellAction.driven]
    by_cases h4 : k < 16
    · simp [h1, h2, h3, h4, CellAction.driven]
    · simp [h1, h2, h3, h4, hk, CellAction.driven]

theorem driven_read (V : VariantRecord) (addr : Addr) (wdata : RegWord) {c : Nat} (h : c < V.preLen + 14) :
    (cellAction V .rd addr wdata c).driven = true ∧
      (cellAction V .rd addr wdata c = .pulse → c < V.preLen) := by
  by_cases hc : c < V.preLen
  · simp [cellAction_preamble _ _ _ hc, CellAction.driven, hc]
  · obtain ⟨k, rfl⟩ := Nat.exists_eq_add_of_le (Nat.le_of_not_lt hc)
    rw [cellAction_after]
    have hk : k < 14 := by omega
    unfold actionAfter phaseAfter
    by_cases h1 : k < 2
    · simp [h1, CellAction.driven]
    by_cases h2 : k < 4
    · simp [h1, h2, CellAction.driven]
    · simp [h1, h2, hk, CellAction.driven]

/-- A bus write from `StartStep` to `FinishStep` (41_mdio_ops.md R101, 42_tws_ops.md R111), whatever hangs on the
wires. -/
theorem busWrite_eq {V : VariantRecord} {pp : PhyParams} {b : Bus} (hN : V.nCells = V.preLen + 32)
    (hP : V.preLen ≤ 95) (hclk : b.eng.clk = false) (addr : Addr) (wdata : RegWord) :
    (b.runFrame V pp .wr addr wdata).finishStep =
      { b with
        eng := { b.eng with datO := true, datOe := true, dir := .wr, addr := addr, wdata := wdata, idx := 0,
                            busy := false }
        trace := b.trace ++ writeTrace V addr wdata
        heard := heardAfter V .wr addr wdata b.stuck b.heard (V.preLen + 32)
        env := b.env.commit V pp (V.preLen + 31)
          (heardAfter V .wr addr wdata b.stuck b.heard (V.preLen + 32)) } := by
  have h := cells_driven (V := V) (pp := pp) (b := b.startStep V .wr addr wdata) (k := V.preLen + 32)
    (by simp [startStep_eq, Engine.accept]) (by simpa [startStep_eq, Engine.accept] using hclk)
    (by simp [startStep_eq]) (by simp [startStep_eq]) (by omega)
    (fun c hc => by simpa [startStep_eq, Engine.accept] using (driven_write V addr wdata hc).1)
    (fun c hc => by simpa [startStep_eq, Engine.accept] using (driven_write V addr wdata hc).2)
    (V.preLen + 32) (Nat.le_refl _) (Nat.le_refl _)
  unfold Bus.runFrame
  rw [hN, h, startStep_eq]
  simp [finishStep_eq, Engine.accept, Engine.release, after_flatMap, events_write, writeTrace, preambleEvents]

/-! ### A whole read -/

/-- What the targets have heard of a read of `addr` once its address has passed. -/
def Heard.ofRead (V : VariantRecord) (addr : Addr) (h : Heard) : Heard :=
  { op := V.opRd, addr := addr, data := h.data, earlier := h.nextFrame.earlier }

@[simp] theorem ofRead_op (V : VariantRecord) (addr : Addr) (h : Heard) : (h.ofRead V addr).op = V.opRd := rfl
@[simp] theorem ofRead_addr (V : VariantRecord) (addr : Addr) (h : Heard) : (h.ofRead V addr).addr = addr := rfl
@[simp] theorem ofRead_data (V : VariantRecord) (addr : Addr) (h : Heard) : (h.ofRead V addr).data = h.data := rfl
@[simp] theorem ofRead_earlier (V : VariantRecord) (addr : Addr) (h : Heard) :
    (h.ofRead V addr).earlier = h.nextFrame.earlier := rfl

/-- The level of the `k`-th sample of a read, the targets having heard `h` (10_state.md R23): stuck, or what the devices
drive, or free. -/
def sampleHearing (V : VariantRecord) (h : Heard) (b : Bus) (k : Nat) : Level :=
  b.stuck.getD (match b.env.drive V (V.preLen + 16 + k) h (b.draws + k) with
    | .off => b.pull.getD (Config.freeLevel V.name (b.draws + k))
    | .level l => l
    | .clash => Config.freeLevel V.name (b.draws + k))

/-- The level of the `k`-th sample of a read of `addr`. -/
def sampleAt (V : VariantRecord) (addr : Addr) (b : Bus) (k : Nat) : Level :=
  sampleHearing V (b.heard.ofRead V addr) b k

/-- The sixteen samples of a read of `addr`. -/
def readSamples (V : VariantRecord) (addr : Addr) (b : Bus) : List Level :=
  (List.range 16).map (sampleAt V addr b)

theorem length_readSamples (V : VariantRecord) (addr : Addr) (b : Bus) : (readSamples V addr b).length = 16 := by
  simp [readSamples]

/-- One data cell of a read. -/
theorem cellStep_recv {V : VariantRecord} {pp : PhyParams} {b : Bus}
    (ha : cellAction V b.eng.dir b.eng.addr b.eng.wdata b.eng.idx.toNat = .recv)
    (hop : b.heard.op ≠ V.opWr) (hph : phase V b.eng.idx.toNat = .data) :
    b.cellStep V pp =
      { b with
        eng := { b.eng with
                 clk := false
                 datOe := false
                 rdata := shiftIn b.eng.rdata (b.toInput.line V (b.drive V b.eng.idx.toNat))
                 idx := b.eng.idx + 1 }
        trace := b.trace ++ (if b.eng.datOe then [.setDirIn] else [])
          ++ recvEvents V (b.toInput.line V (b.drive V b.eng.idx.toNat))
        heard := { b.heard with
                   data := (match b.stuck with
                     | some l => shiftIn b.heard.data l
                     | none => b.heard.data) }
        draws := b.draws + 1 } := by
  unfold Bus.cellStep
  rw [ha]
  rcases b with ⟨eng, trace, heard, env, pull, stuck, draws⟩
  simp only [Bus.perform, recvBit_eq, Bus.hear, Bus.commit, Bus.advance]
  have hop' : heard.op ≠ V.opWr := hop
  have hph' : phase V eng.idx.toNat = .data := hph
  cases stuck with
  | none => simp [Bus.seen, commit_not_write env hop']
  | some l =>
    have hl : ({ heard with data := shiftIn heard.data l } : Heard).op ≠ V.opWr := hop'
    simp [Bus.seen, Heard.listen, hph', commit_not_write env hl]

/-- The data cells of a read, from the state before the first of them. -/
theorem cells_recv {V : VariantRecord} {pp : PhyParams} {b : Bus} {h : Heard} (hP : V.preLen ≤ 95)
    (hdir : b.eng.dir = .rd) (hidx : b.eng.idx = BitVec.ofNat 7 (V.preLen + 16)) (hclk : b.eng.clk = false)
    (hoe : b.eng.datOe = true) (hop : b.heard.op ≠ V.opWr)
    (hheard : b.stuck = none → b.heard = h) :
    ∀ j ≤ 16, ∃ data, (b.stuck = none → data = b.heard.data) ∧
      b.cells V pp j =
        { b with
          eng := { b.eng with
                   datOe := decide (j = 0)
                   rdata := ((List.range j).map (sampleHearing V h b)).foldl shiftIn b.eng.rdata
                   idx := BitVec.ofNat 7 (V.preLen + 16 + j) }
          trace := b.trace ++ (if j = 0 then [] else
            .setDirIn :: ((List.range j).map (sampleHearing V h b)).flatMap (recvEvents V))
          heard := { b.heard with data := data }
          draws := b.draws + j } := by
  intro j
  induction j with
  | zero =>
    intro _
    refine ⟨b.heard.data, fun _ => rfl, ?_⟩
    rcases b with ⟨⟨clk, datO, datOe, dir, a, wdata, rdata, rv, idx, busy⟩, trace, heard, env, pull, stuck, draws⟩
    simp at hidx hoe
    simp [cells_zero, hidx, hoe]
  | succ j ih =>
    intro hj
    obtain ⟨data, hdata, hd⟩ := ih (by omega)
    have hlt : V.preLen + 16 + j < 128 := by omega
    have hact : ∀ w, cellAction V .rd b.eng.addr w (V.preLen + 16 + j) = .recv := by
      intro w
      rw [Nat.add_assoc, cellAction_after]
      have h1 : ¬ 16 + j < 2 := by omega
      have h2 : ¬ 16 + j < 4 := by omega
      have h3 : ¬ 16 + j < 14 := by omega
      have h4 : ¬ 16 + j < 16 := by omega
      have h5 : 16 + j < 32 := by omega
      simp [actionAfter, phaseAfter, h1, h2, h3, h5]
    have hph : phase V (V.preLen + 16 + j) = .data := by
      rw [Nat.add_assoc, phase_after]
      have h1 : ¬ 16 + j < 2 := by omega
      have h2 : ¬ 16 + j < 4 := by omega
      have h3 : ¬ 16 + j < 14 := by omega
      have h4 : ¬ 16 + j < 16 := by omega
      have h5 : 16 + j < 32 := by omega
      simp [phaseAfter, h1, h2, h3, h5]
    have hidx' : (BitVec.ofNat 7 (V.preLen + 16 + j)).toNat = V.preLen + 16 + j := idx_toNat hlt
    rw [cells_succ_last, hd]
    have hs : ∀ e : Engine, ∀ tr : List PinEvent,
        Bus.line V
          (Bus.drive V (V.preLen + 16 + j)
            { eng := e, trace := tr, heard := { b.heard with data := data }, env := b.env, pull := b.pull,
              stuck := b.stuck, draws := b.draws + j })
          (Bus.toInput
            { eng := e, trace := tr, heard := { b.heard with data := data }, env := b.env, pull := b.pull,
              stuck := b.stuck, draws := b.draws + j }) = sampleHearing V h b j := by
      intro e tr
      rw [line_toInput]
      unfold sampleHearing Bus.anyLevel Bus.drive
      cases hst : b.stuck with
      | some l => simp
      | none =>
        rw [hdata hst, ← hheard hst]
        all_goals
          generalize Environment.drive V _ _ _ b.env = t
          cases t <;> simp
    refine ⟨(match b.stuck with
      | some l => shiftIn data l
      | none => data), fun hst => by rw [hst]; exact hdata hst, ?_⟩
    rw [cellStep_recv]
    · simp only [hidx', hs, idx_succ]
      by_cases hj0 : j = 0
      · subst hj0
        simp [hclk, List.range_succ]
      · simp [hclk, hj0, List.range_succ, Nat.add_assoc, List.map_append, List.flatMap_append]
    · simp only [hidx', hdir]
      exact hact _
    · exact hop
    · simp only [hidx']
      exact hph

/-- A turnaround cell of a read: nothing is heard and no write is taken. -/
theorem cellStep_turnaround {V : VariantRecord} {pp : PhyParams} {b : Bus}
    (hph : phase V b.eng.idx.toNat = .ta) (hc : b.eng.idx.toNat ≠ V.preLen + 31) :
    b.cellStep V pp =
      Bus.advance (b.perform V (b.drive V b.eng.idx.toNat)
        (cellAction V b.eng.dir b.eng.addr b.eng.wdata b.eng.idx.toNat)) := by
  unfold Bus.cellStep
  generalize hb : b.perform V (b.drive V b.eng.idx.toNat)
    (cellAction V b.eng.dir b.eng.addr b.eng.wdata b.eng.idx.toNat) = b'
  rcases b' with ⟨eng, trace, heard, env, pull, stuck, draws⟩
  have hh : Bus.hear V b.eng.idx.toNat
      { eng := eng, trace := trace, heard := heard, env := env, pull := pull, stuck := stuck, draws := draws } =
      { eng := eng, trace := trace, heard := heard, env := env, pull := pull, stuck := stuck, draws := draws } := by
    unfold Bus.hear
    generalize Bus.seen _ = o
    cases o <;> simp [Heard.listen, hph]
  rw [hh]
  simp [Bus.commit, commit_early _ _ hc]

theorem phase_turnaround (V : VariantRecord) {k : Nat} (h1 : 14 ≤ k) (h2 : k < 16) :
    phase V (V.preLen + k) = .ta := by
  rw [phase_after]
  have h3 : ¬ k < 2 := by omega
  have h4 : ¬ k < 4 := by omega
  have h5 : ¬ k < 14 := by omega
  simp [phaseAfter, h3, h4, h5, h2]

theorem events_read (V : VariantRecord) (addr : Addr) (wdata : RegWord) :
    (List.range 14).flatMap (fun c => (actionAfter V .rd addr wdata c).events V) =
      ([V.st.1, V.st.2, V.opRd.1, V.opRd.2] ++ msbFirst addr).flatMap (sendEvents V) := by
  simp [msbFirst, List.range, List.range.loop, actionAfter, phaseAfter, CellAction.events, pick, opCode]

/-- A read up to its last address cell: the latch holds some level, the targets have heard the read op-code and
the address (or, on a stuck line, no write op-code). -/
theorem cells_readHead {V : VariantRecord} {pp : PhyParams} {b : Bus} (hP : V.preLen ≤ 95)
    (hop : V.opRd ≠ V.opWr) (hop' : V.opWr.1 ≠ V.opWr.2) (hclk : b.eng.clk = false) (addr : Addr)
    (wdata : RegWord) :
    ∃ (latch : Level) (H : Heard),
      ((b.startStep V .rd addr wdata).cells V pp (V.preLen + 14) =
        { b with
          eng := { b.eng with clk := false, datO := latch, datOe := true, dir := .rd, addr := addr,
                              idx := BitVec.ofNat 7 (V.preLen + 14), busy := true }
          trace := b.trace ++ (preambleEvents V ++
            ([V.st.1, V.st.2, V.opRd.1, V.opRd.2] ++ msbFirst addr).flatMap (sendEvents V))
          heard := H }) ∧
      H.op ≠ V.opWr ∧ (b.stuck = none → H = b.heard.ofRead V addr) := by
  have h := cells_driven (V := V) (pp := pp) (b := b.startStep V .rd addr wdata) (k := V.preLen + 14)
    (by simp [startStep_eq, Engine.accept]) (by simpa [startStep_eq, Engine.accept] using hclk)
    (by simp [startStep_eq]) (by simp [startStep_eq]) (by omega)
    (fun c hc => by simpa [startStep_eq, Engine.accept] using (driven_read V addr b.eng.wdata hc).1)
    (fun c hc => by simpa [startStep_eq, Engine.accept] using (driven_read V addr b.eng.wdata hc).2)
    (V.preLen + 14) (Nat.le_refl _) (by omega)
  have hne : ¬ V.preLen + 14 = V.preLen + 32 := by omega
  rw [h]
  generalize hl : (match V.preLen + 14 with
    | 0 => true
    | j + 1 => levelAt V (b.startStep V .rd addr wdata).eng.dir (b.startStep V .rd addr wdata).eng.addr
        (b.startStep V .rd addr wdata).eng.wdata j) = latch
  refine ⟨latch, heardAfter V .rd addr b.eng.wdata b.stuck b.heard (V.preLen + 14), ?_, ?_⟩
  · simp [startStep_eq, Engine.accept, hclk, after_flatMap, events_read, preambleEvents]
  · cases hst : b.stuck with
    | none => rw [heard_read]; simp [hop, Heard.ofRead]
    | some l =>
      rw [heard_stuck _ _ _ _ _ _ _ (by omega)]
      refine ⟨fun hl => hop' ?_, by simp⟩
      rw [← hl]

/-- The two turnaround cells of a read (40_bus_primitives.md R83, R84). -/
theorem cells_readTurnaround {V : VariantRecord} {pp : PhyParams} {b : Bus} (hP : V.preLen ≤ 95)
    (hdir : b.eng.dir = .rd) (hidx : b.eng.idx = BitVec.ofNat 7 (V.preLen + 14)) :
    b.cells V pp 2 =
      { b with
        eng := { b.eng with clk := false, datOe := true, idx := BitVec.ofNat 7 (V.preLen + 16) }
        trace := b.trace ++ ((.setDirIn :: pulseEvents V) ++ (.setDirOut :: pulseEvents V)) } := by
  have hlt : V.preLen + 14 < 128 := by omega
  have hlt' : V.preLen + 15 < 128 := by omega
  have h1 : ∀ w, cellAction V .rd b.eng.addr w (V.preLen + 14) = .release := by
    intro w; rw [cellAction_after]; simp [actionAfter, phaseAfter]
  have h2 : ∀ w, cellAction V .rd b.eng.addr w (V.preLen + 15) = .hold := by
    intro w; rw [cellAction_after]; simp [actionAfter, phaseAfter]
  have e1 : b.cellStep V pp = (b.releaseBit V).advance := by
    rw [cellStep_turnaround]
    · simp only [hidx, hdir, idx_toNat hlt, h1, Bus.perform]
    · simp only [hidx, idx_toNat hlt]; exact phase_turnaround V (by omega) (by omega)
    · simp only [hidx, idx_toNat hlt]; omega
  have hidx' : (b.releaseBit V).advance.eng.idx = BitVec.ofNat 7 (V.preLen + 15) := by
    simp [releaseBit_eq, hidx, idx_succ_literal]
  have hdir' : (b.releaseBit V).advance.eng.dir = .rd := by simp [releaseBit_eq, hdir]
  have haddr' : (b.releaseBit V).advance.eng.addr = b.eng.addr := by simp [releaseBit_eq]
  rw [cells_succ, cells_succ, cells_zero, e1, cellStep_turnaround]
  · simp only [hidx', hdir', haddr', idx_toNat hlt', h2, Bus.perform, heldBit_eq]
    simp [releaseBit_eq, Bus.advance, hidx, hdir, idx_succ_literal]
  · simp only [hidx', idx_toNat hlt']; exact phase_turnaround V (by omega) (by omega)
  · simp only [hidx', idx_toNat hlt']; omega

/-- A bus read from `StartStep` to `FinishStep` (41_mdio_ops.md R102, 42_tws_ops.md R112), whatever hangs on the
wires. -/
theorem busRead_eq {V : VariantRecord} {pp : PhyParams} {b : Bus} (hN : V.nCells = V.preLen + 32)
    (hP : V.preLen ≤ 95) (hop : V.opRd ≠ V.opWr) (hop' : V.opWr.1 ≠ V.opWr.2) (hclk : b.eng.clk = false)
    (addr : Addr) (wdata : RegWord) :
    ∃ heard, (b.stuck = none → heard = b.heard.ofRead V addr) ∧
      (b.runFrame V pp .rd addr wdata).finishStep =
        { b with
          eng := { b.eng with datO := true, datOe := true, dir := .rd, addr := addr,
                              rdata := (readSamples V addr b).foldl shiftIn b.eng.rdata, rdataValid := true,
                              idx := 0, busy := false }
          trace := b.trace ++ readTrace V addr (readSamples V addr b)
          heard := heard
          draws := b.draws + 16 } := by
  obtain ⟨latch, H, hhead, hH, hH'⟩ := cells_readHead (pp := pp) hP hop hop' hclk addr wdata
  unfold Bus.runFrame
  rw [hN, show V.preLen + 32 = (V.preLen + 14) + (2 + 16) by omega, cells_add, hhead, cells_add,
    cells_readTurnaround hP rfl rfl]
  obtain ⟨data, hdata, hr⟩ := cells_recv (V := V) (pp := pp) (h := b.heard.ofRead V addr)
    (b := { b with
      eng := { b.eng with clk := false, datO := latch, datOe := true, dir := .rd, addr := addr,
                          idx := BitVec.ofNat 7 (V.preLen + 16), busy := true }
      trace := b.trace ++ (preambleEvents V ++
        ([V.st.1, V.st.2, V.opRd.1, V.opRd.2] ++ msbFirst addr).flatMap (sendEvents V)) ++
        ((.setDirIn :: pulseEvents V) ++ (.setDirOut :: pulseEvents V))
      heard := H }) hP rfl rfl rfl rfl hH hH' 16 (Nat.le_refl _)
  refine ⟨{ H with data := data }, fun hst => by rw [hdata hst]; exact hH' hst, ?_⟩
  rw [hr]
  have hs : ∀ (e : Engine) (tr : List PinEvent),
      (List.range 16).map (sampleHearing V (b.heard.ofRead V addr)
        { b with eng := e, trace := tr, heard := H }) = readSamples V addr b := fun _ _ => rfl
  simp [finishStep_eq, Engine.release, readTrace, hs, hclk]

/-- After a read `RDATA` holds the sixteen samples, the first in bit 15, whatever it held before
(10_state.md R25). -/
theorem msbFirst_read_samples (V : VariantRecord) (addr : Addr) (b : Bus) (old : RegWord) :
    msbFirst ((readSamples V addr b).foldl shiftIn old) = readSamples V addr b :=
  msbFirst_foldl_shiftIn _ (length_readSamples V addr b) old

end Sys2Proof.Machine
end

