-- ==== Sys2Proof/Laws/BusOps.lean ====
section
/-! SUPPORT. What a whole bus operation and a whole composite operation do to the machine (40_bus_primitives.md R90;
43_phy_wrappers.md R121, R122), one equation for each. -/

namespace Sys2Proof.Machine

/-! ### The variant records -/

theorem nCells_eq (v : Variant) : (variantRecord v).nCells = (variantRecord v).preLen + 32 := by cases v <;> rfl
theorem preLen_le (v : Variant) : (variantRecord v).preLen ≤ 95 := by cases v <;> decide
theorem opRd_ne_opWr (v : Variant) : (variantRecord v).opRd ≠ (variantRecord v).opWr := by cases v <;> decide
theorem opWr_unequal (v : Variant) : (variantRecord v).opWr.1 ≠ (variantRecord v).opWr.2 := by
  cases v <;> decide
@[simp] theorem variantRecord_name (v : Variant) : (variantRecord v).name = v := by cases v <;> rfl

/-! ### Presenting -/

theorem pinsIdle_iff {b : Bus} :
    b.pinsIdle = true ↔ b.eng.clk = false ∧ b.eng.datOe = true ∧ b.eng.datO = true := by
  simp [Bus.pinsIdle, and_assoc]

/-- Where a request may be presented, no instance is busy. -/
theorem mayRequest_idle {s : State} (h : s.mayRequest = true) (w : Variant) : (s.bus w).eng.busy = false := by
  simp [State.mayRequest] at h
  cases w <;> simp [h]

theorem performBusOp_ready {pp : PhyParams} {v : Variant} {dir : Dir} {addr : Addr} {wdata : RegWord} {s : State}
    (h : Ready v s) : s.performBusOp pp v dir addr wdata = .next (s.busOp pp v dir addr wdata) :=
  whenIdle_ready h.1 h.2

theorem exec_busWrite {i : Instr} {v : Variant} {addr : Addr} {data : RegWord} (h : IsBusWrite i v addr data)
    (s : State) : exec i s = s.performBusOp Config.phyParams v .wr addr data := by
  rcases h with ⟨p, r, rfl, rfl, rfl⟩ | ⟨r, rfl, rfl, rfl⟩ <;> rfl

theorem exec_busRead {i : Instr} {v : Variant} {addr : Addr} (h : IsBusRead i v addr) (s : State) :
    exec i s = s.performBusOp Config.phyParams v .rd addr 0 := by
  rcases h with ⟨p, r, rfl, rfl, rfl⟩ | ⟨r, rfl, rfl, rfl⟩ <;> rfl

/-! ### A bus write -/

/-- An instance with idle pins after a bus write. -/
def Bus.afterWrite (v : Variant) (pp : PhyParams) (addr : Addr) (data : RegWord) (b : Bus) : Bus :=
  { b with
    eng := { b.eng with dir := .wr, addr := addr, wdata := data, idx := 0, busy := false }
    trace := b.trace ++ writeTrace (variantRecord v) addr data
    heard := heardAfter (variantRecord v) .wr addr data b.stuck b.heard ((variantRecord v).preLen + 32)
    env := b.env.commit (variantRecord v) pp ((variantRecord v).preLen + 31)
      (heardAfter (variantRecord v) .wr addr data b.stuck b.heard ((variantRecord v).preLen + 32)) }

theorem afterWrite_pinsIdle {v : Variant} {pp : PhyParams} {addr : Addr} {data : RegWord} {b : Bus}
    (h : b.pinsIdle = true) : (b.afterWrite v pp addr data).pinsIdle = true := h

theorem runFrame_dir (V : VariantRecord) (pp : PhyParams) (dir : Dir) (addr : Addr) (wdata : RegWord) (b : Bus) :
    (b.runFrame V pp dir addr wdata).eng.dir = dir := by
  have h : ∀ (n : Nat) (b : Bus), (b.cells V pp n).eng.dir = b.eng.dir := by
    intro n
    induction n with
    | zero => intro b; rfl
    | succ n ih => intro b; rw [cells_succ, ih]; exact (cellStep_keeps V pp b).1
  unfold Bus.runFrame
  rw [h]
  simp [startStep_eq, Engine.accept]

/-- A bus write, whatever hangs on the wires. -/
theorem busOp_write (pp : PhyParams) (v : Variant) (addr : Addr) (data : RegWord) (s : State)
    (h : (s.bus v).pinsIdle = true) :
    s.busOp pp v .wr addr data = s.setBus v ((s.bus v).afterWrite v pp addr data) := by
  obtain ⟨h1, h2, h3⟩ := pinsIdle_iff.1 h
  unfold State.busOp State.finish
  simp only [bus_setBus, runFrame_dir, setBus_setBus]
  rw [busWrite_eq (nCells_eq v) (preLen_le v) h1]
  unfold Bus.afterWrite
  rcases hb : s.bus v with
    ⟨⟨clk, datO, datOe, dir, addr, wdata, rdata, rv, idx, busy⟩, trace, heard, env, pull, stuck, draws⟩
  simp [hb] at h1 h2 h3
  simp [h1, h2, h3]

/-- What hangs on the wires after a write that was heard: every claiming target has taken it. -/
theorem afterWrite_env (v : Variant) (pp : PhyParams) (addr : Addr) (data : RegWord) {b : Bus}
    (hs : b.stuck = none) {ts : List RefTarget} (he : b.env = .reference ts) :
    (b.afterWrite v pp addr data).env =
      .reference (ts.map (RefTarget.takeWrite (variantRecord v) pp addr data)) := by
  simp [Bus.afterWrite, hs, he, heard_write, Environment.commit]

theorem exec_write_next {i : Instr} {v : Variant} {addr : Addr} {data : RegWord} {s : State}
    (hi : IsBusWrite i v addr data) (h : Ready v s) :
    exec i s = .next (s.setBus v ((s.bus v).afterWrite v Config.phyParams addr data)) := by
  rw [exec_busWrite hi, performBusOp_ready h, busOp_write _ _ _ _ _ h.2]

theorem ready_afterWrite {v : Variant} {pp : PhyParams} {addr : Addr} {data : RegWord} {s : State}
    (h : Ready v s) : Ready v (s.setBus v ((s.bus v).afterWrite v pp addr data)) := by
  obtain ⟨h1, h2⟩ := h
  refine ⟨?_, by rw [bus_setBus]; exact h2⟩
  cases v <;> simp [State.mayRequest, Bus.afterWrite] at h1 ⊢ <;> simp_all

/-! ### A bus read -/

/-- An instance with idle pins after a bus read. -/
def Bus.afterRead (v : Variant) (addr : Addr) (heard : Heard) (b : Bus) : Bus :=
  { b with
    eng := { b.eng with
             dir := .rd
             addr := addr
             rdata := (readSamples (variantRecord v) addr b).foldl shiftIn b.eng.rdata
             rdataValid := true
             idx := 0
             busy := false }
    trace := b.trace ++ readTrace (variantRecord v) addr (readSamples (variantRecord v) addr b)
    heard := heard
    draws := b.draws + 16 }

/-- The machine after a bus read: the host has the value. -/
def State.afterRead (v : Variant) (addr : Addr) (heard : Heard) (s : State) : State :=
  { s.setBus v ((s.bus v).afterRead v addr heard) with
    returned := s.returned ++ [(v, ((s.bus v).afterRead v addr heard).eng.rdata)] }

@[simp] theorem afterRead_bus (v : Variant) (addr : Addr) (heard : Heard) (s : State) :
    (s.afterRead v addr heard).bus v = (s.bus v).afterRead v addr heard := by
  cases v <;> simp [State.afterRead]

/-- A bus read, whatever hangs on the wires. -/
theorem busOp_read (pp : PhyParams) (v : Variant) (addr : Addr) (wdata : RegWord) (s : State)
    (h : (s.bus v).pinsIdle = true) :
    ∃ heard, ((s.bus v).stuck = none → heard = (s.bus v).heard.ofRead (variantRecord v) addr) ∧
      s.busOp pp v .rd addr wdata = s.afterRead v addr heard := by
  obtain ⟨h1, h2, h3⟩ := pinsIdle_iff.1 h
  obtain ⟨heard, hh, hr⟩ := busRead_eq (pp := pp) (nCells_eq v) (preLen_le v) (opRd_ne_opWr v) (opWr_unequal v) h1
    addr wdata
  refine ⟨heard, hh, ?_⟩
  unfold State.busOp State.finish State.afterRead
  simp only [bus_setBus, runFrame_dir, setBus_setBus]
  rw [hr]
  unfold Bus.afterRead
  rcases hb : s.bus v with
    ⟨⟨clk, datO, datOe, dir, addr, wdata, rdata, rv, idx, busy⟩, trace, heard, env, pull, stuck, draws⟩
  simp [hb] at h1 h2 h3
  simp [h1, h2, h3]

theorem exec_read_next {i : Instr} {v : Variant} {addr : Addr} {s : State} (hi : IsBusRead i v addr)
    (h : Ready v s) :
    ∃ heard, ((s.bus v).stuck = none → heard = (s.bus v).heard.ofRead (variantRecord v) addr) ∧
      exec i s = .next (s.afterRead v addr heard) := by
  obtain ⟨heard, hh, hr⟩ := busOp_read Config.phyParams v addr 0 s h.2
  exact ⟨heard, hh, by rw [exec_busRead hi, performBusOp_ready h, hr]⟩

/-- The trace of a read holds the bits of `RDATA` as its samples. -/
theorem afterRead_trace (v : Variant) (addr : Addr) (heard : Heard) (b : Bus) :
    (b.afterRead v addr heard).trace =
      b.trace ++ readTrace (variantRecord v) addr (msbFirst (b.afterRead v addr heard).eng.rdata) := by
  simp [Bus.afterRead, msbFirst_read_samples]

/-- The `k`-th sample of a read is bit `15 - k` of the result. -/
theorem read_bit {V : VariantRecord} {addr : Addr} {b : Bus} (old : RegWord) {k : Nat} (hk : k < 16) :
    ((readSamples V addr b).foldl shiftIn old).getLsbD (15 - k) = sampleAt V addr b k := by
  have h1 : 16 - 1 - (15 - k) = k := by omega
  have h2 : 15 - k < 16 := by omega
  rw [getLsbD_foldl_shiftIn, length_readSamples, h1]
  simp [readSamples, h2, hk, List.getD]

/-- A read whose every sample is a bit of `x` returns `x`. -/
theorem read_value {V : VariantRecord} {addr : Addr} {b : Bus} {x : RegWord}
    (h : ∀ k < 16, sampleAt V addr b k = x.getLsbD (15 - k)) (old : RegWord) :
    (readSamples V addr b).foldl shiftIn old = x := by
  apply BitVec.eq_of_getLsbD_eq
  intro i hi
  have hb := read_bit (V := V) (addr := addr) (b := b) old (k := 15 - i) (by omega)
  rw [show 15 - (15 - i) = i by omega] at hb
  rw [hb, h _ (by omega), show 15 - (15 - i) = i by omega]

/-! ### A composite operation -/

theorem compositeOp_write {pp : PhyParams} {s : State} (h : Ready pp.port.bus s) (preg : Nat) (data : RegWord) :
    s.performComposite pp .wr preg data = .next (s.setBus pp.port.bus
      (((((s.bus pp.port.bus).afterWrite pp.port.bus pp pp.port.cmdAddr (pp.cmdWord .wr preg)).delay
        200000).afterWrite pp.port.bus pp pp.port.dataAddr data).delay 200000)) := by
  unfold State.performComposite
  rw [whenIdle_ready h.1 h.2]
  unfold State.compositeOp State.settle
  rw [busOp_write _ _ _ _ _ h.2]
  simp only [bus_setBus, setBus_setBus]
  rw [busOp_write _ _ _ _ _ (by rw [bus_setBus]; exact h.2)]
  simp [Config.settleDelay]

theorem compositeOp_read {pp : PhyParams} {s : State} (h : Ready pp.port.bus s) (preg : Nat) (data : RegWord) :
    ∃ heard, s.performComposite pp .rd preg data = .next
      { s.setBus pp.port.bus
          (((((s.bus pp.port.bus).afterWrite pp.port.bus pp pp.port.cmdAddr (pp.cmdWord .rd preg)).delay
            200000).afterRead pp.port.bus pp.port.dataAddr heard).delay 200000) with
        returned := s.returned ++ [(pp.port.bus,
          ((((s.bus pp.port.bus).afterWrite pp.port.bus pp pp.port.cmdAddr (pp.cmdWord .rd preg)).delay
            200000).afterRead pp.port.bus pp.port.dataAddr heard).eng.rdata)] } := by
  unfold State.performComposite
  rw [whenIdle_ready h.1 h.2]
  unfold State.compositeOp State.settle
  rw [busOp_write _ _ _ _ _ h.2]
  simp only [bus_setBus, setBus_setBus]
  obtain ⟨heard, _, e⟩ := busOp_read pp pp.port.bus pp.port.dataAddr data
    (s.setBus pp.port.bus
      (((s.bus pp.port.bus).afterWrite pp.port.bus pp pp.port.cmdAddr (pp.cmdWord .rd preg)).delay 200000))
    (by rw [bus_setBus]; exact h.2)
  refine ⟨heard, ?_⟩
  rw [show Config.settleDelay = 200000 from rfl, e, afterRead_bus]
  cases pp.port.bus <;> simp [State.afterRead, Bus.afterRead]

end Sys2Proof.Machine
end

