-- ==== Sys2Proof/Laws/Memory.lean ====
section
/-! SUPPORT. The laws of a target's register arrays: a read after a write, and that a write keeps the canonical
form (20_memory.md R49, R50). -/

namespace Sys2Proof.Machine

theorem memory_read_entry (m : Memory) (a : Nat) (v : RegWord) (x : Nat) (h : Memory.read m a = unlistedRegister) :
    Memory.read (Memory.entry a v m) x = if x = a then v else Memory.read m x := by
  unfold Memory.entry
  split
  · rename_i hv
    split
    · next hx => rw [hx, h, hv]
    · rfl
  · simp [Memory.read, eq_comm]

theorem memory_read_below {lo a : Nat} {m : Memory} (hw : Memory.wfFrom lo m = true) (ha : a < lo) :
    Memory.read m a = unlistedRegister := by
  induction m generalizing lo with
  | nil => rfl
  | cons e rest ih =>
    obtain ⟨k, v⟩ := e
    simp only [Memory.wfFrom, Bool.and_eq_true, decide_eq_true_eq] at hw
    have hk : k ≠ a := by omega
    simp only [Memory.read, hk, if_false]
    exact ih hw.2 (by omega)

/-- A read after a write: the value written at that address, every other address as before. -/
theorem memory_read_write {lo : Nat} {m : Memory} (hw : Memory.wfFrom lo m = true) (a : Nat) (v : RegWord)
    (x : Nat) : Memory.read (Memory.write m a v) x = if x = a then v else Memory.read m x := by
  induction m generalizing lo with
  | nil =>
    simp only [Memory.write]
    exact memory_read_entry [] a v x rfl
  | cons e rest ih =>
    obtain ⟨k, y⟩ := e
    have hw' := hw
    simp only [Memory.wfFrom, Bool.and_eq_true, decide_eq_true_eq] at hw'
    simp only [Memory.write]
    split
    · next h =>
      apply memory_read_entry
      have hk : k ≠ a := by omega
      simp only [Memory.read, hk, if_false]
      exact memory_read_below hw'.2 (by omega)
    · split
      · next _ h =>
        subst h
        rw [memory_read_entry rest a v x (memory_read_below hw'.2 (by omega))]
        by_cases hx : x = a
        · simp [hx]
        · simp [Memory.read, hx, Ne.symm hx]
      · next h1 h2 =>
        simp only [Memory.read]
        by_cases hx : k = x
        · have : x ≠ a := by omega
          simp [hx, this]
        · simp only [hx, if_false]
          exact ih hw'.2

theorem memory_wfFrom_mono {lo lo' : Nat} {m : Memory} (h : lo' ≤ lo) (hw : Memory.wfFrom lo m = true) :
    Memory.wfFrom lo' m = true := by
  cases m with
  | nil => rfl
  | cons e rest =>
    obtain ⟨k, v⟩ := e
    simp only [Memory.wfFrom, Bool.and_eq_true, decide_eq_true_eq] at hw ⊢
    exact ⟨⟨by omega, hw.1.2⟩, hw.2⟩

theorem memory_wf_entry {lo a : Nat} {m : Memory} (v : RegWord) (ha : lo ≤ a)
    (hw : Memory.wfFrom (a + 1) m = true) : Memory.wfFrom lo (Memory.entry a v m) = true := by
  unfold Memory.entry
  split
  · exact memory_wfFrom_mono (by omega) hw
  · next h => simp [Memory.wfFrom, ha, h, hw]

theorem memory_wfFrom_write {lo : Nat} {m : Memory} (hw : Memory.wfFrom lo m = true) (a : Nat) (v : RegWord)
    (ha : lo ≤ a) : Memory.wfFrom lo (Memory.write m a v) = true := by
  induction m generalizing lo with
  | nil => exact memory_wf_entry v ha rfl
  | cons e rest ih =>
    obtain ⟨k, y⟩ := e
    have hw' := hw
    simp only [Memory.wfFrom, Bool.and_eq_true, decide_eq_true_eq] at hw'
    simp only [Memory.write]
    split
    · next h =>
      refine memory_wf_entry v ha ?_
      simp [Memory.wfFrom, hw'.1.2, hw'.2, Nat.succ_le_of_lt h]
    · split
      · next _ h => subst h; exact memory_wf_entry v ha hw'.2
      · next h1 h2 =>
        simp [Memory.wfFrom, hw'.1.1, hw'.1.2, ih hw'.2 (by omega)]

/-- Every write keeps the canonical form. -/
theorem memory_wf_write {m : Memory} (hw : m.wf = true) (a : Nat) (v : RegWord) : (m.write a v).wf = true :=
  memory_wfFrom_write hw a v (Nat.zero_le a)

theorem memory_wf_nil : Memory.wf [] = true := rfl

/-- Reading after a write, at the address written. -/
theorem memory_read_write_same {m : Memory} (hw : m.wf = true) (a : Nat) (v : RegWord) :
    (m.write a v).read a = v := by
  simp [memory_read_write hw]

/-- Reading after a write, at another address. -/
theorem memory_read_write_other {m : Memory} (hw : m.wf = true) {a x : Nat} (h : x ≠ a) (v : RegWord) :
    (m.write a v).read x = m.read x := by
  simp [memory_read_write hw, h]

end Sys2Proof.Machine
end

