-- ==== Sys2Proof/Laws/PerInstr.lean ====
section
/-! SUPPORT. A law about each operation as syntax: its frame word is of its row of spec/opcode_table.json
(30_encoding.md R73), and carries its operands in the row's fields. -/

namespace Sys2Proof

/-- `F & mask = match` of a row. -/
def ofRow (mask row F : BitVec 32) : Prop := F &&& mask = row

/-- The word of an operation is of its row and carries its operands where the row has them; a composite has no word
(30_encoding.md R73) and is held by its operands. -/
def Laws.TableRow.Statement (i : Instr) : Prop :=
  match i with
  | .mdioWr phyad regad data =>
    ∃ F, encode i = .frame .mdio F ∧ ofRow 0xF0030000#32 0x50020000#32 F ∧
      F.extractLsb' 23 5 = phyad ∧ F.extractLsb' 18 5 = regad ∧ F.extractLsb' 0 16 = data
  | .mdioRd phyad regad =>
    ∃ F, encode i = .frame .mdio F ∧ ofRow 0xF0000000#32 0x60000000#32 F ∧
      F.extractLsb' 23 5 = phyad ∧ F.extractLsb' 18 5 = regad
  | .twsWr reg data =>
    ∃ F, encode i = .frame .tws F ∧ ofRow 0xFC030000#32 0x50020000#32 F ∧
      F.extractLsb' 18 8 = reg ∧ F.extractLsb' 0 16 = data
  | .twsRd reg =>
    ∃ F, encode i = .frame .tws F ∧ ofRow 0xFC000000#32 0x60000000#32 F ∧ F.extractLsb' 18 8 = reg
  | .phyWr preg data => encode i = .indirectWr preg data
  | .phyRd preg => encode i = .indirectRd preg

theorem Laws.TableRow.mdioWr (phyad regad : BitVec 5) (data : RegWord) :
    Laws.TableRow.Statement (.mdioWr phyad regad data) := by
  refine ⟨_, rfl, ?_, ?_, ?_, ?_⟩ <;> apply BitVec.eq_of_getLsbD_eq <;> intro i hi <;> interval_cases i <;>
    simp only [writeWord, assembleMdio, BitVec.getLsbD_append, BitVec.getLsbD_extractLsb', BitVec.getLsbD_and] <;>
    simp

theorem Laws.TableRow.mdioRd (phyad regad : BitVec 5) : Laws.TableRow.Statement (.mdioRd phyad regad) := by
  refine ⟨_, rfl, ?_, ?_, ?_⟩ <;> apply BitVec.eq_of_getLsbD_eq <;> intro i hi <;> interval_cases i <;>
    simp only [readWord, assembleMdio, BitVec.getLsbD_append, BitVec.getLsbD_extractLsb', BitVec.getLsbD_and] <;>
    simp

theorem Laws.TableRow.twsWr (reg : BitVec 8) (data : RegWord) : Laws.TableRow.Statement (.twsWr reg data) := by
  refine ⟨_, rfl, ?_, ?_, ?_⟩ <;> apply BitVec.eq_of_getLsbD_eq <;> intro i hi <;> interval_cases i <;>
    simp only [writeWord, assembleTws, BitVec.getLsbD_append, BitVec.getLsbD_extractLsb', BitVec.getLsbD_and] <;>
    simp

theorem Laws.TableRow.twsRd (reg : BitVec 8) : Laws.TableRow.Statement (.twsRd reg) := by
  refine ⟨_, rfl, ?_, ?_⟩ <;> apply BitVec.eq_of_getLsbD_eq <;> intro i hi <;> interval_cases i <;>
    simp only [readWord, assembleTws, BitVec.getLsbD_append, BitVec.getLsbD_extractLsb', BitVec.getLsbD_and] <;>
    simp

theorem Laws.TableRow.phyWr (preg : Nat) (data : RegWord) : Laws.TableRow.Statement (.phyWr preg data) := rfl

theorem Laws.TableRow.phyRd (preg : Nat) : Laws.TableRow.Statement (.phyRd preg) := rfl

end Sys2Proof
end

