-- ==== Sys2Proof/Laws/Steps.lean ====
section
/-! SUPPORT. Runs of the machine: which step is taken when, and a bus operation cell by cell
(40_bus_primitives.md R88, R90). -/

namespace Sys2Proof.Machine

/-! ### Runs -/

theorem run_zero (s : State) : run 0 s = .next s := rfl

theorem run_succ (k : Nat) (s : State) :
    run (k + 1) s = (match step s with
      | .next t => run k t
      | .fault r => .fault r
      | .refused r => .refused r) := rfl

theorem run_one {s t : State} (h : step s = .next t) : run 1 s = .next t := by
  rw [run_succ, h]
  rfl

/-- A run may be cut anywhere. -/
theorem run_add {m : Nat} (n : Nat) {s t : State} (h : run m s = .next t) : run (m + n) s = run n t := by
  induction m generalizing s with
  | zero => cases h; simp
  | succ m ih =>
    rw [Nat.succ_add, run_succ]
    rw [run_succ] at h
    cases hs : step s with
    | next u => rw [hs] at h; exact ih h
    | fault r => rw [hs] at h; cases h
    | refused r => rw [hs] at h; cases h

/-! ### The step taken -/

/-- While one instance is busy, and the other is not, the step is the sequencer's. -/
theorem step_busy {v : Variant} {s : State} (h1 : s.resetIn = false) (h2 : (s.bus v).eng.busy = true)
    (h3 : ∀ w, w ≠ v → (s.bus w).eng.busy = false) : step s = s.sequencer Config.phyParams v := by
  cases v
  · have h4 := h3 .tws (by decide)
    simp at h2 h4
    simp [step, h1, h2, h4]
  · have h4 := h3 .mdio (by decide)
    simp at h2 h4
    simp [step, h1, h2, h4]

/-- With nothing in progress the step is the next line of the program. -/
theorem step_line {s : State} {l : HostLine} {rest : List HostLine} (hr : s.resetIn = false)
    (hm : s.mayRequest = true) (hp : s.program = l :: rest) :
    step s = State.hostLine l { s with program := rest } := by
  simp [State.mayRequest] at hm
  simp [step, hr, hm, State.hostMove, hp]

/-- With a composite in progress and no instance busy the step is the composite's next action. -/
theorem step_todo {s : State} {a : HostAction} {rest : List HostAction} (hr : s.resetIn = false)
    (hb : ∀ w, (s.bus w).eng.busy = false) (hp : s.todo = a :: rest) :
    step s = State.hostAction a { s with todo := rest } := by
  have h1 := hb .mdio
  have h2 := hb .tws
  simp at h1 h2
  simp [step, hr, h1, h2, State.hostMove, hp]

/-- A step from a state in which an instance is busy is a cell or the finish of that instance. -/
theorem step_from_busy {v : Variant} {s t : State} (hr : s.resetIn = false) (hb : (s.bus v).eng.busy = true)
    (h : step s = .next t) : t = s.cell Config.phyParams v ∨ t = s.finish v := by
  have seq : s.sequencer Config.phyParams v = .next t → t = s.cell Config.phyParams v ∨ t = s.finish v := by
    intro h
    unfold State.sequencer at h
    split at h
    · cases h; exact Or.inl rfl
    · split at h <;> cases h
      exact Or.inr rfl
  apply seq
  cases v
  · simp at hb
    cases h2 : s.tws.eng.busy <;> simp [step, hr, hb, h2] at h
    exact h
  · simp at hb
    cases h2 : s.mdio.eng.busy <;> simp [step, hr, hb, h2] at h
    exact h

theorem finish_bus (v : Variant) (s : State) : (s.finish v).bus v = (s.bus v).finishStep := by
  unfold State.finish
  cases (s.bus v).eng.dir <;> cases v <;> simp

/-! ### An operation cell by cell -/

theorem cells_busy (V : VariantRecord) (pp : PhyParams) (n : Nat) (b : Bus) :
    (b.cells V pp n).eng.busy = b.eng.busy := by
  induction n generalizing b with
  | zero => rfl
  | succ n ih => rw [cells_succ, ih]; exact (cellStep_keeps V pp b).2.2.2.2.1

theorem cellStep_idx (v : Variant) (pp : PhyParams) (b : Bus) (h : b.eng.idx.toNat < (variantRecord v).nCells) :
    (b.cellStep (variantRecord v) pp).eng.idx.toNat = b.eng.idx.toNat + 1 := by
  have hN := nCells_eq v
  have hP := preLen_le v
  rw [(cellStep_keeps _ pp b).2.2.2.1]
  simp [BitVec.toNat_add]
  omega

theorem cells_idx {v : Variant} {pp : PhyParams} {n : Nat} {b : Bus}
    (h : b.eng.idx.toNat + n ≤ (variantRecord v).nCells) :
    (b.cells (variantRecord v) pp n).eng.idx.toNat = b.eng.idx.toNat + n := by
  induction n generalizing b with
  | zero => rfl
  | succ n ih =>
    have h1 := cellStep_idx v pp b (by omega)
    rw [cells_succ, ih (by omega)]
    omega

theorem run_cells {v : Variant} {n : Nat} {s : State} (h1 : s.resetIn = false) (h2 : (s.bus v).eng.busy = true)
    (h3 : ∀ w, w ≠ v → (s.bus w).eng.busy = false)
    (hn : (s.bus v).eng.idx.toNat + n ≤ (variantRecord v).nCells) :
    run n s = .next (s.setBus v ((s.bus v).cells (variantRecord v) Config.phyParams n)) := by
  induction n generalizing s with
  | zero => simp [cells_zero, run_zero]
  | succ n ih =>
    rw [run_succ, step_busy h1 h2 h3, State.sequencer, if_pos (by omega)]
    simp only
    rw [ih]
    · simp [State.cell, cells_succ]
    · simp [State.cell, h1]
    · simp [State.cell, (cellStep_keeps (variantRecord v) Config.phyParams (s.bus v)).2.2.2.2.1, h2]
    · intro w hw; rw [State.cell, bus_setBus_of_ne hw]; exact h3 w hw
    · rw [State.cell, bus_setBus, cellStep_idx v _ _ (by omega)]
      omega

/-- After the start step of a bus operation: the cells one by one, and with the finish step the whole operation. -/
theorem run_started {v : Variant} {s : State} {dir : Dir} {addr : Addr} {wdata : RegWord}
    (h : ∀ w, (s.bus w).eng.busy = false) (hr : s.resetIn = false) :
    (∀ k ≤ (variantRecord v).nCells,
      run k (s.setBus v ((s.bus v).startStep (variantRecord v) dir addr wdata)) =
        .next (s.setBus v (((s.bus v).startStep (variantRecord v) dir addr wdata).cells (variantRecord v)
          Config.phyParams k))) ∧
    run ((variantRecord v).nCells + 1) (s.setBus v ((s.bus v).startStep (variantRecord v) dir addr wdata)) =
      .next (s.busOp Config.phyParams v dir addr wdata) := by
  generalize hs : s.setBus v ((s.bus v).startStep (variantRecord v) dir addr wdata) = s1
  have a0 : s1.bus v = (s.bus v).startStep (variantRecord v) dir addr wdata := by rw [← hs, bus_setBus]
  have a1 : s1.resetIn = false := by rw [← hs]; simp [hr]
  have a2 : (s1.bus v).eng.busy = true := by simp [a0, startStep_eq, Engine.accept]
  have a3 : ∀ w, w ≠ v → (s1.bus w).eng.busy = false := by
    intro w hw
    rw [← hs, bus_setBus_of_ne hw]
    exact h w
  have a4 : (s1.bus v).eng.idx.toNat = 0 := by simp [a0, startStep_eq, Engine.accept]
  have a5 : ∀ b, s1.setBus v b = s.setBus v b := by intro b; rw [← hs, setBus_setBus]
  refine ⟨fun k hk => ?_, ?_⟩
  · rw [run_cells a1 a2 a3 (by omega), a0, a5]
  · rw [run_add 1 (run_cells (n := (variantRecord v).nCells) a1 a2 a3 (by omega))]
    apply run_one
    rw [step_busy (v := v) (by simp [a1]) (by rw [bus_setBus, cells_busy, a2])
      (by intro w hw; rw [bus_setBus_of_ne hw]; exact a3 w hw)]
    rw [State.sequencer, bus_setBus, cells_idx (by omega), a4, Nat.zero_add, if_neg (by omega), if_pos rfl,
      a0, a5]
    rfl

end Sys2Proof.Machine
end

