-- ==== Sys2Proof/Laws/Targets.lean ====
section
/-! SUPPORT. The laws of the reference target: taking a write (20_memory.md R49; 43_phy_wrappers.md R124) and driving
the data wire in a read (20_memory.md R50). -/

namespace Sys2Proof.Machine

/-! ### Taking a write -/

theorem takeWrite_unclaimed {V : VariantRecord} {pp : PhyParams} {a : Addr} {d : RegWord} {t : RefTarget}
    (h : t.claims a = false) : t.takeWrite V pp a d = t := by
  simp [RefTarget.takeWrite, h]

/-- A claimed write that does not touch the indirect part writes one register. -/
theorem takeWrite_plain {v : Variant} {pp : PhyParams} {a : Addr} {d : RegWord} {t : RefTarget}
    (hc : t.claims a = true) (hp : PlainWrite pp v a t) :
    t.takeWrite (variantRecord v) pp a d = { t with treg := t.treg.write a.toNat d } := by
  unfold RefTarget.takeWrite RefTarget.afterWrite
  rw [if_pos hc]
  rcases hp with h | h | ⟨h1, h2⟩
  · simp [h]
  · cases hi : t.indirect <;> simp [Ne.symm h]
  · cases hi : t.indirect <;> simp [h1, h2]

/-- A write to `CMD_REG`. -/
theorem takeWrite_command {pp : PhyParams} {t : RefTarget} {ind : IndirectPart}
    (hc : t.claims pp.port.cmdAddr = true) (hi : t.indirect = some ind) (w : RegWord) :
    t.takeWrite (variantRecord pp.port.bus) pp pp.port.cmdAddr w =
      { t with
        treg := (match commandOf pp .rd w with
          | some p => (t.treg.write pp.port.cmdAddr.toNat w).write pp.port.dataAddr.toNat (ind.preg.read p)
          | none => t.treg.write pp.port.cmdAddr.toNat w)
        indirect := some { ind with pcmd := w } } := by
  unfold RefTarget.takeWrite RefTarget.afterWrite
  rw [if_pos hc]
  simp [hi, RefTarget.takeCommand]
  all_goals rfl

/-- A write to `DATA_REG`. -/
theorem takeWrite_data {pp : PhyParams} {t : RefTarget} {ind : IndirectPart}
    (hc : t.claims pp.port.dataAddr = true) (hi : t.indirect = some ind)
    (hne : pp.port.cmdAddr ≠ pp.port.dataAddr) (w : RegWord) :
    t.takeWrite (variantRecord pp.port.bus) pp pp.port.dataAddr w =
      { t with
        treg := t.treg.write pp.port.dataAddr.toNat w
        indirect := some { ind with
          preg := (match commandOf pp .wr ind.pcmd with
            | some p => ind.preg.write p w
            | none => ind.preg) } } := by
  unfold RefTarget.takeWrite RefTarget.afterWrite
  rw [if_pos hc]
  simp [hi, RefTarget.takeData, Ne.symm hne]
  split <;> simp_all

/-- Taking a write leaves the claimed set alone. -/
theorem takeWrite_claim {V : VariantRecord} {pp : PhyParams} {a : Addr} {d : RegWord} (t : RefTarget) :
    (t.takeWrite V pp a d).claim = t.claim := by
  unfold RefTarget.takeWrite RefTarget.afterWrite RefTarget.takeCommand RefTarget.takeData
  split
  · split
    · rfl
    · split
      · split
        · rfl
        · split
          · split <;> rfl
          · rfl
      · rfl
  · rfl

theorem takeWrite_claims {V : VariantRecord} {pp : PhyParams} {a : Addr} {d : RegWord} (t : RefTarget) (x : Addr) :
    (t.takeWrite V pp a d).claims x = t.claims x := by
  simp [RefTarget.claims, takeWrite_claim]

theorem wf_treg {t : RefTarget} (h : t.wf = true) : t.treg.wf = true := by
  simp [RefTarget.wf] at h
  exact h.1

theorem wf_preg {t : RefTarget} {ind : IndirectPart} (h : t.wf = true) (hi : t.indirect = some ind) :
    ind.preg.wf = true := by
  simp [RefTarget.wf, hi] at h
  exact h.2

/-- Taking a write keeps the register arrays in canonical form. -/
theorem wf_takeWrite {V : VariantRecord} {pp : PhyParams} {a : Addr} {d : RegWord} {t : RefTarget}
    (h : t.wf = true) : (t.takeWrite V pp a d).wf = true := by
  unfold RefTarget.takeWrite
  split
  · have h1 := memory_wf_write (wf_treg h) a.toNat d
    unfold RefTarget.afterWrite
    cases hi : t.indirect with
    | none => simp [RefTarget.wf, h1]
    | some ind =>
      have h2 := wf_preg h hi
      simp only
      split
      · split
        · unfold RefTarget.takeCommand RefTarget.wf
          simp only [h2, Bool.and_true]
          split
          · exact memory_wf_write h1 _ _
          · exact h1
        · split
          · unfold RefTarget.takeData
            split
            · simp [RefTarget.wf, h1, memory_wf_write h2]
            · simp [RefTarget.wf, h1, h2]
          · simp [RefTarget.wf, h1, h2]
      · simp [RefTarget.wf, h1, h2]
  · exact h

/-- A write, heard or not, keeps the register arrays of all that hangs on the wires in canonical form. -/
theorem wf_commit {V : VariantRecord} {pp : PhyParams} {c : Nat} {h : Heard} {e : Environment}
    (hw : e.wf = true) : (e.commit V pp c h).wf = true := by
  cases e with
  | unknown => rfl
  | reference ts =>
    simp only [Environment.commit]
    split
    · simp only [Environment.wf, List.all_eq_true, List.mem_map] at hw ⊢
      rintro t ⟨t0, h0, rfl⟩
      exact wf_takeWrite (hw t0 h0)
    · exact hw

/-- What a target makes of a frame cut short leaves the claimed set alone. -/
theorem takeCut_claim {V : VariantRecord} {pp : PhyParams} {w : Option (Addr × RegWord)} (t : RefTarget) :
    (t.takeCut V pp w).claim = t.claim := by
  cases w with
  | none => rfl
  | some p => exact takeWrite_claim t

theorem wf_takeCut {V : VariantRecord} {pp : PhyParams} {w : Option (Addr × RegWord)} {t : RefTarget}
    (h : t.wf = true) : (t.takeCut V pp w).wf = true := by
  cases w with
  | none => exact h
  | some p => exact wf_takeWrite h

/-- A frame cut short keeps the register arrays in canonical form. -/
theorem wf_cut {V : VariantRecord} {pp : PhyParams} {h : Heard} {n : Nat} {e : Environment} (hw : e.wf = true) :
    (e.cut V pp h n).wf = true := by
  cases e with
  | unknown => rfl
  | reference ts =>
    simp only [Environment.cut, Environment.wf, List.all_eq_true] at hw ⊢
    intro t ht
    obtain ⟨k, hk, rfl⟩ := List.mem_mapIdx.1 ht
    exact wf_takeCut (hw _ (List.getElem_mem hk))

/-! ### The command word -/

theorem findFrom_unique {f : Nat → Bool} {k n p : Nat} (h1 : k ≤ p) (h2 : p < k + n) (hf : f p = true)
    (hu : ∀ q, k ≤ q → q < k + n → f q = true → q = p) : findFrom f k n = some p := by
  induction n generalizing k with
  | zero => omega
  | succ n ih =>
    unfold findFrom
    by_cases h : f k = true
    · rw [if_pos h, hu k (by omega) (by omega) h]
    · rw [if_neg h]
      have hk : k ≠ p := by rintro rfl; exact h hf
      exact ih (by omega) (by omega) (fun q h1 h2 => hu q (by omega) (by omega))

theorem findFrom_none {f : Nat → Bool} {k n : Nat} (h : ∀ q, k ≤ q → q < k + n → f q = false) :
    findFrom f k n = none := by
  induction n generalizing k with
  | zero => rfl
  | succ n ih =>
    unfold findFrom
    rw [if_neg (by simp [h k (by omega) (by omega)])]
    exact ih (fun q h1 h2 => h q (by omega) (by omega))

/-- Where `cmd_word` tells the indirect registers apart, a command word names its register. -/
theorem commandOf_cmdWord {pp : PhyParams} (hi : InjectiveCommand pp) (dir : Dir) {p : Nat}
    (hp : p < 2 ^ pp.pregWidth) : commandOf pp dir (pp.cmdWord dir p) = some p := by
  refine findFrom_unique (by omega) (by omega) (by simp) ?_
  intro q _ hq h
  simp only [decide_eq_true_eq] at h
  exact hi dir q p (by omega) hp h

theorem commandOf_other {pp : PhyParams} {dir : Dir} {w : RegWord}
    (h : ∀ p < 2 ^ pp.pregWidth, w ≠ pp.cmdWord dir p) : commandOf pp dir w = none := by
  refine findFrom_none ?_
  intro q _ hq
  have := h q (by omega)
  simp [Ne.symm this]

/-! ### Driving the data wire -/

theorem phase_data (V : VariantRecord) {k : Nat} (hk : k < 16) : phase V (V.preLen + 16 + k) = .data := by
  rw [Nat.add_assoc, phase_after]
  have h1 : ¬ 16 + k < 2 := by omega
  have h2 : ¬ 16 + k < 4 := by omega
  have h3 : ¬ 16 + k < 14 := by omega
  have h4 : ¬ 16 + k < 16 := by omega
  have h5 : 16 + k < 32 := by omega
  simp [phaseAfter, h1, h2, h3, h5]

theorem drive_claimed {V : VariantRecord} {h : Heard} {t : RefTarget} {k : Nat} (ho : h.op = V.opRd)
    (hc : t.claims h.addr = true) (hk : k < 16) :
    t.drive V (V.preLen + 16 + k) h = .level ((t.treg.read h.addr.toNat).getLsbD (15 - k)) := by
  unfold RefTarget.drive
  rw [if_pos ⟨ho, hc, phase_data V hk⟩]
  congr 3
  omega

theorem drive_unclaimed {V : VariantRecord} {h : Heard} {t : RefTarget} {c : Nat} (hc : t.claims h.addr = false) :
    t.drive V c h = .off := by
  simp [RefTarget.drive, hc]

/-- Targets of which those that claim the address agree on its register drive that register's bits; targets none of
which claims it drive nothing. -/
theorem drives_agree {V : VariantRecord} {h : Heard} {k : Nat} (hk : k < 16) (ho : h.op = V.opRd)
    {ts : List RefTarget} (x : RegWord)
    (hx : ∀ tg ∈ ts, tg.claims h.addr = true → tg.treg.read h.addr.toNat = x) :
    (ts.map (RefTarget.drive V (V.preLen + 16 + k) h)).foldr Drive.join .off =
      if (∃ tg ∈ ts, tg.claims h.addr = true) then .level (x.getLsbD (15 - k)) else .off := by
  induction ts with
  | nil => simp
  | cons t ts ih =>
    have ih := ih (fun tg m => hx tg (List.mem_cons_of_mem _ m))
    rw [List.map_cons, List.foldr_cons, ih]
    by_cases hc : t.claims h.addr = true
    · rw [drive_claimed ho hc hk, hx t (by simp) hc]
      by_cases h' : ∃ tg ∈ ts, tg.claims h.addr = true
      · simp [h', Drive.join]
      · simp [h', hc, Drive.join]
    · have hc' : t.claims h.addr = false := by simpa using hc
      rw [drive_unclaimed hc']
      simp [hc', Drive.join]

/-- The sample of a line that is not stuck. -/
theorem sampleAt_free {V : VariantRecord} {addr : Addr} {b : Bus} {k : Nat} (hs : b.stuck = none) :
    sampleAt V addr b k =
      (match b.env.drive V (V.preLen + 16 + k) (b.heard.ofRead V addr) (b.draws + k) with
      | .off => b.pull.getD (Config.freeLevel V.name (b.draws + k))
      | .level l => l
      | .clash => Config.freeLevel V.name (b.draws + k)) := by
  unfold sampleAt sampleHearing
  rw [hs]
  rfl

end Sys2Proof.Machine
end

