-- ==== Sys2Proof/Tests/Slice0.lean ====
section
/-! SUPPORT. Tests: expected results are those of spec/95_test_vectors.md or worked out by hand from the rules; and for
every statement of Certificates/Slice0/Obligations.lean that has hypotheses, a witness that meets them together. -/

open Sys2Proof Sys2Proof.Machine

namespace Sys2Proof.Tests

set_option maxRecDepth 40000

/-! ### Helpers -/

/-- The MDIO target of program P1 (95_test_vectors.md section 3): `CLAIM = 0x020..0x03F`, `TREG[0x023] = 0x1111`. -/
def mdioTarget : RefTarget := { claim := [⟨0x020, 0x03F⟩], treg := [(0x23, 0x1111)], indirect := none }

/-- The TWS target of program P2: `CLAIM = 0x000..0x0FF`, `TREG[0x04E] = 0xFFFF`, `TREG[0x04F] = 0x0F0F`. -/
def twsTarget : RefTarget :=
  { claim := [⟨0x000, 0x0FF⟩], treg := [(0x4E, 0xFFFF), (0x4F, 0x0F0F)], indirect := none }

/-- The indirect part of program P3: `PREG[0x22] = 0x7777`. -/
def p3Part : IndirectPart := { preg := [(0x22, 0x7777)], pcmd := 0 }

/-- The target of program P3: all 256 addresses claimed, `TREG` all zero, with the indirect part. -/
def p3Target : RefTarget := { claim := [⟨0x000, 0x0FF⟩], treg := [], indirect := some p3Part }

/-- The illustrative parameters of 95_test_vectors.md section 2.5, with a narrower `preg` so that they evaluate
quickly. -/
def illustrative : PhyParams :=
  { port := .tws 0x0A 0x0B
    pregWidth := 6
    cmdWord := fun dir p =>
      match dir with
      | .wr => 0x8000#16 ||| BitVec.ofNat 16 p
      | .rd => 0x4000#16 ||| BitVec.ofNat 16 p }

/-- The machine after reset with these devices on the two pairs of wires. -/
def withTargets (m t : Environment) : State :=
  { State.reset with mdio := { Bus.reset with env := m }, tws := { Bus.reset with env := t } }

def twoTargets : State := withTargets (.reference [mdioTarget]) (.reference [twsTarget])
def nobodyThere : State := withTargets (.reference []) (.reference [])
def p3Start : State := withTargets .unknown (.reference [p3Target])

/-- The MDIO instance in the middle of an operation. -/
def busyAt (dir : Dir) (idx : BitVec 7) (datOe datO : Level) : State :=
  { twoTargets with
    mdio :=
      { twoTargets.mdio with
        eng := { Engine.reset with busy := true, dir := dir, addr := 0x23, idx := idx, datOe := datOe, datO := datO }
        heard := { op := (true, false), addr := 0x23, data := 0, earlier := [] } } }

/-- The next state, or the state after reset where there is none. -/
def after (o : Host.Outcome State Fault Refusal) : State :=
  match o with
  | .next s => s
  | .fault _ => State.reset
  | .refused _ => State.reset

/-- Whether there is a next state. -/
def goesOn (o : Host.Outcome State Fault Refusal) : Bool :=
  match o with
  | .next _ => true
  | .fault _ => false
  | .refused _ => false

theorem bus_next {o : Host.Outcome State Fault Refusal} (h : goesOn o = true) : o = .next (after o) := by
  cases o with
  | next s => rfl
  | fault r => cases h
  | refused r => cases h

/-! ### WellFormed: an ill-formed term for each check -/

theorem test_wellFormed_phyWr_too_wide (data : RegWord) :
    wellFormed (.phyWr (2 ^ Config.phyParams.pregWidth) data) = false := by
  simp [wellFormed]

theorem test_wellFormed_phyRd_too_wide : wellFormed (.phyRd (2 ^ Config.phyParams.pregWidth)) = false := by
  simp [wellFormed]

theorem test_wellFormed_register_zero : wellFormed (.phyRd 0) = true := by
  simp [wellFormed]

/-! ### Decoding: words written out bit by bit (95_test_vectors.md, and the table of 30_encoding.md section 3) -/

/-- V40, `MDIO.WR 1, 2, 0xA5C3`. -/
theorem test_decode_mdioWr :
    decodeFrame .mdio 0b01_01_00001_00010_10_1010010111000011#32 = .ok (.mdioWr 1 2 0xA5C3) := by decide

/-- V45: `PHYAD` and `REGAD` not mixed up, data not reversed. -/
theorem test_decode_mdioWr_fields :
    decodeFrame .mdio 0b01_01_00011_11110_10_0100010101100111#32 = .ok (.mdioWr 3 30 0x4567) := by decide

/-- V53: the two ends of the address field. -/
theorem test_decode_mdioRd :
    decodeFrame .mdio 0b01_10_10000_00001_00_0000000000000000#32 = .ok (.mdioRd 16 1) := by decide

/-- The bits a read's engine does not drive are not looked at. -/
theorem test_decode_mdioRd_undriven_bits :
    decodeFrame .mdio 0b01_10_10000_00001_11_1010010111000011#32 = .ok (.mdioRd 16 1) := by decide

/-- V60, `TWS.WR 0x4E, 0x1234`. -/
theorem test_decode_twsWr :
    decodeFrame .tws 0b01_01_00_01001110_10_0001001000110100#32 = .ok (.twsWr 0x4E 0x1234) := by decide

/-- The same word as V60 in the other format (95_test_vectors.md section 2.4, corner cases). -/
theorem test_decode_other_format :
    decodeFrame .mdio 0b01_01_00010_01110_10_0001001000110100#32 = .ok (.mdioWr 2 14 0x1234) := by decide

/-- V70, `TWS.RD 0x4E`. -/
theorem test_decode_twsRd :
    decodeFrame .tws 0b01_10_00_01001110_00_0000000000000000#32 = .ok (.twsRd 0x4E) := by decide

theorem test_decode_composites :
    decode (.indirectWr 0x21 0x00FF) = .ok (.phyWr 0x21 0x00FF) ∧ decode (.indirectRd 0x21) = .ok (.phyRd 0x21) := by
  decide

theorem test_decode_refuses_start :
    decodeFrame .mdio 0b11_01_00001_00010_10_1010010111000011#32 = .error .badStart := by decide

theorem test_decode_refuses_opcodes :
    decodeFrame .mdio 0b01_00_00001_00010_10_1010010111000011#32 = .error .badOpcode ∧
    decodeFrame .tws 0b01_11_00_01001110_10_0001001000110100#32 = .error .badOpcode := by decide

theorem test_decode_refuses_header :
    decodeFrame .tws 0b01_10_01_01001110_00_0000000000000000#32 = .error .badHeader := by decide

theorem test_decode_refuses_turnaround :
    decodeFrame .mdio 0b01_01_00001_00010_01_1010010111000011#32 = .error .badTurnaround := by decide

/-- V42 and V62 from their operands: the header stays 00 although `REG` is all ones. -/
theorem test_encode_all_ones :
    encode (.mdioWr 31 31 0xFFFF) = .frame .mdio 0x5FFEFFFF#32 ∧
    encode (.twsWr 0xFF 0xFFFF) = .frame .tws 0x53FEFFFF#32 := by decide

/-- V50 and V72. -/
theorem test_encode_reads :
    encode (.mdioRd 1 2) = .frame .mdio 0x60880000#32 ∧ encode (.twsRd 0xFF) = .frame .tws 0x63FC0000#32 := by decide

/-- The table's words: 64 cells or a frame word read as MDIO, 40 cells as TWS (log 2). -/
theorem test_decode_table_words :
    decodeTableWord 32 0x50020000 = some (.mdioWr 0 0 0) ∧ decodeTableWord 32 0x60000000 = some (.mdioRd 0 0) ∧
    decodeTableWord 40 0xFF50020000 = some (.twsWr 0 0) ∧ decodeTableWord 40 0xFF60000000 = some (.twsRd 0) ∧
    decodeTableWord 32 0 = none := by decide

/-! ### Operations: one step each -/

/-- P1: `MDIO.WR 1, 2, 0xA5C3` stores at `0x022` and leaves `0x023`; 292 events. -/
theorem test_mdioWr_stores :
    (after (exec (.mdioWr 1 2 0xA5C3) twoTargets)).mdio.env =
      .reference [{ mdioTarget with treg := [(0x22, 0xA5C3), (0x23, 0x1111)] }] ∧
    (after (exec (.mdioWr 1 2 0xA5C3) twoTargets)).mdio.trace.length = 292 := by decide

/-- V42: the cells on the wires, all operand bits one. -/
theorem test_mdioWr_cells :
    (cellsOf CellScan.start (after (exec (.mdioWr 31 31 0xFFFF) twoTargets)).mdio.trace).map (fun e => e.level) =
      List.replicate 32 (some true) ++ [some false, some true, some false, some true]
        ++ List.replicate 10 (some true) ++ [some true, some false] ++ List.replicate 16 (some true) := by decide

/-- P1: `MDIO.RD 1, 3` returns `0x1111`, the first sample in bit 15; 294 events. -/
theorem test_mdioRd_returns :
    (after (exec (.mdioRd 1 3) twoTargets)).returned = [(.mdio, 0x1111)] ∧
    (after (exec (.mdioRd 1 3) twoTargets)).mdio.trace.length = 294 := by decide

/-- V56 with a line the platform pulls to 1 (decision D15): nobody answers at `PHYAD = 7`. -/
theorem test_mdioRd_unanswered_pulled_up :
    (after (exec (.mdioRd 7 0)
      { twoTargets with mdio := { twoTargets.mdio with pull := some true } })).mdio.eng.rdata = 0xFFFF := by decide

/-- P2: `TWS.WR 0x4E, 0x0000` overwrites `0xFFFF`; 196 events. -/
theorem test_twsWr_stores :
    (after (exec (.twsWr 0x4E 0x0000) twoTargets)).tws.env =
      .reference [{ twsTarget with treg := [(0x4F, 0x0F0F)] }] ∧
    (after (exec (.twsWr 0x4E 0x0000) twoTargets)).tws.trace.length = 196 := by decide

/-- P2: `TWS.RD 0x4F` returns `0x0F0F`; 198 events; the other instance is untouched. -/
theorem test_twsRd_returns :
    (after (exec (.twsRd 0x4F) twoTargets)).returned = [(.tws, 0x0F0F)] ∧
    (after (exec (.twsRd 0x4F) twoTargets)).tws.trace.length = 198 ∧
    (after (exec (.twsRd 0x4F) twoTargets)).mdio = twoTargets.mdio := by decide

/-- V80 and P3: the composite write, at the illustrative parameters. -/
theorem test_phyWr_reaches_preg :
    (after (p3Start.performComposite illustrative .wr 0x21 0x00FF)).tws.env =
      .reference [{ p3Target with
        treg := [(0x0A, 0x8021), (0x0B, 0x00FF)]
        indirect := some { preg := [(0x21, 0x00FF), (0x22, 0x7777)], pcmd := 0x8021 } }] := by decide

/-- V81 and P3: the composite read of `PREG[0x22]`, at the illustrative parameters. -/
theorem test_phyRd_returns :
    (after (p3Start.performComposite illustrative .rd 0x22 0)).returned = [(.tws, 0x7777)] ∧
    (after (p3Start.performComposite illustrative .rd 0x22 0)).tws.eng.wdata = 0x4022 := by decide

/-! ### The parts of the sequencer -/

/-- 95_test_vectors.md section 2.1, shift-in sample by sample. -/
theorem test_shiftIn_sequence :
    [true, false, true, false, false, true, false, true, true, true, false, false, false, false, true, true].foldl
      shiftIn (0xFFFF : RegWord) = 0xA5C3 ∧
    shiftIn (0x8001 : RegWord) false = 0x0002 := by decide

/-- V13 to V27, and the two clauses of every boundary of 10_state.md section 6. -/
theorem test_phase_boundaries_mdio :
    [0, 31, 32, 33, 34, 35, 36, 45, 46, 47, 48, 63, 64].map (phase (variantRecord .mdio)) =
      [.pre, .pre, .st, .st, .op, .op, .addr, .addr, .ta, .ta, .data, .data, .fin] := by decide

/-- V28 to V37. -/
theorem test_phase_boundaries_tws :
    [0, 7, 8, 9, 10, 11, 12, 21, 22, 23, 24, 39, 40].map (phase (variantRecord .tws)) =
      [.pre, .pre, .st, .st, .op, .op, .addr, .addr, .ta, .ta, .data, .data, .fin] := by decide

/-- V13 to V26 for a write of `0x8000` at `0x201`: the ends of every clause. -/
theorem test_write_cells :
    [0, 31, 32, 33, 34, 35, 36, 37, 44, 45, 46, 47, 48, 63, 64].map
        (cellAction (variantRecord .mdio) .wr 0x201 0x8000) =
      [.pulse, .pulse, .send false, .send true, .send false, .send true, .send true, .send false, .send false,
        .send true, .send true, .send false, .send true, .send false, .nothing] := by decide

/-- V28 to V36 for a read at `0x0FE`. -/
theorem test_read_cells :
    [0, 7, 8, 9, 10, 11, 12, 13, 14, 21, 22, 23, 24, 39, 40].map
        (cellAction (variantRecord .tws) .rd 0x0FE 0) =
      [.pulse, .pulse, .send false, .send true, .send true, .send false, .send false, .send false, .send true,
        .send false, .release, .hold, .recv, .recv, .nothing] := by decide

/-- V90: before cell 63 ends the target has its old contents, after it the new. -/
theorem test_write_lands_in_the_last_cell :
    let b := (twoTargets.mdio.startStep (variantRecord .mdio) .wr 0x22 0xA5C3).cells (variantRecord .mdio) illustrative 63
    b.env = .reference [mdioTarget] ∧ b.env ≠ (b.cellStep (variantRecord .mdio) illustrative).env := by decide

/-- P1 and 70_reset_and_hazards.md section 1: a reset after the last cell of the write frame V40, its finish step not
yet taken, leaves `TREG[0x022]` as the write left it. -/
theorem test_reset_after_the_last_cell :
    let b := (twoTargets.mdio.startStep (variantRecord .mdio) .wr 0x22 0xA5C3).cells (variantRecord .mdio) illustrative 64
    b.eng.busy = true ∧ (b.applyReset (variantRecord .mdio) illustrative).eng = Engine.reset ∧
    (b.applyReset (variantRecord .mdio) illustrative).env =
      .reference [{ mdioTarget with treg := [(0x22, 0xA5C3), (0x23, 0x1111)] }] := by decide

/-- What a target makes of a frame cut short (log 9): nothing, or one write; elsewhere its registers stay. -/
theorem test_cut_frame :
    mdioTarget.takeCut (variantRecord .mdio) illustrative none = mdioTarget ∧
    (mdioTarget.takeCut (variantRecord .mdio) illustrative (some (0x22, 7))).treg = [(0x22, 7), (0x23, 0x1111)] ∧
    mdioTarget.takeCut (variantRecord .mdio) illustrative (some (0x50, 7)) = mdioTarget := by decide

/-- After V40 and V50 the target has heard both frames: the earlier one is the write of `0xA5C3` at `0x022`. -/
theorem test_heard_earlier_frames :
    let s := after (exec (.mdioRd 1 2) (after (exec (.mdioWr 1 2 0xA5C3) twoTargets)))
    s.mdio.heard.op = (true, false) ∧ s.mdio.heard.addr = 0x22 ∧
    s.mdio.heard.earlier.head? = some ⟨(false, true), 0x22, 0xA5C3⟩ := by decide

/-! ### Witnesses -/

theorem ready_reset (v : Variant) : Ready v State.reset := by
  cases v
  · exact ⟨rfl, rfl⟩
  · exact ⟨rfl, rfl⟩

/-- Frames with any `c` and `k` at the ends of their ranges (FrameCellsCarryTheFrameWord). -/
theorem witness_frame_cells :
    (frame (variantRecord .mdio) .wr 0x22 0xA5C3)[0]? = some (.drive true) ∧
    (frame (variantRecord .mdio) .wr 0x22 0xA5C3)[31]? = some (.drive true) ∧
    (frame (variantRecord .mdio) .wr 0x22 0xA5C3)[32 + 0]? = some (.drive false) ∧
    (frame (variantRecord .mdio) .wr 0x22 0xA5C3)[32 + 31]? = some (.drive true) ∧
    (frame (variantRecord .tws) .rd 0x22 0)[8 + 13]? = some (.drive false) ∧
    (frame (variantRecord .tws) .rd 0x22 0)[8 + 14]? = some .released ∧
    (frame (variantRecord .tws) .rd 0x22 0)[8 + 15]? = some .held ∧
    (frame (variantRecord .tws) .rd 0x22 0)[8 + 16 + 0]? = some .sampled ∧
    (frame (variantRecord .tws) .rd 0x22 0)[8 + 16 + 15]? = some .sampled := by decide

/-- The two ends of both address fields (MdioAddressIsPhyadThenRegad, TwsAddressIsZeroHeaderThenReg): V53, V62. -/
theorem witness_address_cells :
    assembleMdio 16 1 = 0x201 ∧ assembleTws 0xFF = 0x0FF ∧
    (frame (variantRecord .mdio) .rd 0x201 0)[36 + 0]? = some (.drive true) ∧
    (frame (variantRecord .mdio) .rd 0x201 0)[36 + 4]? = some (.drive false) ∧
    (frame (variantRecord .mdio) .rd 0x201 0)[41 + 0]? = some (.drive false) ∧
    (frame (variantRecord .mdio) .rd 0x201 0)[41 + 4]? = some (.drive true) ∧
    (frame (variantRecord .tws) .rd 0x0FF 0)[12 + 1]? = some (.drive false) ∧
    (frame (variantRecord .tws) .rd 0x0FF 0)[14 + 0]? = some (.drive true) ∧
    (frame (variantRecord .tws) .rd 0x0FF 0)[14 + 7]? = some (.drive true) := by decide

/-- EncodeOfDecodedWordIsTheWord: a write word and a read word that decode (V40, V52). -/
theorem witness_decoded_words :
    decodeFrame .mdio 0x508AA5C3#32 = .ok (.mdioWr 1 2 0xA5C3) ∧
    decodeFrame .mdio 0x6FFC0000#32 = .ok (.mdioRd 31 31) := by decide

/-- BitSelectionAndShiftIn: `k` at both ends of the width, sixteen samples, an index just inside the frame. -/
theorem witness_bits :
    (msbFirst (0x8001 : RegWord))[0]? = some true ∧ (msbFirst (0x8001 : RegWord))[1]? = some false ∧
    (msbFirst (0x8001 : RegWord))[15]? = some true ∧ (List.replicate 16 true).length = 16 ∧
    (busyAt .wr 63 true true).mdio.eng.idx.toNat < (variantRecord .mdio).nCells := by decide

/-- LineLevelByCases: an action that is not a sample; a line that drives, against nothing, the same level and the
other; and one that is released, fixed and not fixed. -/
theorem witness_line :
    CellAction.pulse ≠ .recv ∧ Bus.reset.stuck = none ∧ Bus.reset.eng.datOe = true ∧
    true = Bus.reset.eng.datO ∧ false ≠ Bus.reset.eng.datO ∧
    (busyAt .rd 49 false true).mdio.eng.datOe = false ∧ (busyAt .rd 49 false true).mdio.stuck = none ∧
    (busyAt .rd 49 false true).mdio.pull = none ∧
    (Bus.line (variantRecord .mdio) .off { (busyAt .rd 49 false true).mdio with pull := some false }) = false := by
  decide

/-- SendBitAndReleaseBit, PulseHeldBitAndRecvBit: the clock low, the pin an output and an input (V2, V5, V7, V8). -/
theorem witness_primitives :
    Bus.reset.eng.clk = false ∧ Bus.reset.eng.datOe = true ∧
    (busyAt .rd 47 false false).mdio.eng.clk = false ∧ (busyAt .rd 47 false false).mdio.eng.datOe = false ∧
    (Bus.recvBit (variantRecord .mdio) (.level true) (busyAt .rd 48 true false).mdio).eng.rdata = 1 := by decide

/-- A bus write and a bus read on each instance, where they may be presented: RequestIsTheStartStep,
MdioWriteCompletes, MdioReadCompletes, TwsWriteCompletes, TwsReadCompletes, BusWritePinTrace, BusReadPinTrace,
OperationPutsItsFrameOnTheWires, OperationPulsesDelaysAndEvents, TargetsReadTheFrame, ReadDoesNotDependOnOldRdata,
and (first clause) BusWriteReachesTheIndirectPart. -/
theorem witness_ready :
    Ready .mdio twoTargets ∧ Ready .tws twoTargets ∧
    IsBusWrite (.mdioWr 1 2 0xA5C3) .mdio 0x22 0xA5C3 ∧ IsBusRead (.mdioRd 1 2) .mdio 0x22 ∧
    IsBusWrite (.twsWr 0x4E 0x1234) .tws 0x4E 0x1234 ∧ IsBusRead (.twsRd 0x4E) .tws 0x4E ∧
    twoTargets.mdio.stuck = none ∧ twoTargets.tws.stuck = none :=
  ⟨⟨rfl, rfl⟩, ⟨rfl, rfl⟩, .inl ⟨1, 2, rfl, rfl, rfl⟩, .inl ⟨1, 2, rfl, rfl, rfl⟩, .inr ⟨0x4E, rfl, rfl, rfl⟩,
    .inr ⟨0x4E, rfl, rfl, rfl⟩, rfl, rfl⟩

/-- RequestIsTheStartStep, second clause: a busy instance. -/
theorem witness_request_while_busy :
    ((busyAt .wr 0 true true).bus .mdio).eng.busy = true ∧
    State.request (.mdioRd 1 2) (busyAt .wr 0 true true) = .fault .requestWhileBusy := ⟨rfl, rfl⟩

/-- FinishStepReturnsToIdle, SequencerTakesTheOneEnabledStep: after the last cell of a write and of a read. -/
theorem witness_finish (dir : Dir) (datOe : Level) :
    (busyAt dir 64 datOe false).resetIn = false ∧ ((busyAt dir 64 datOe false).bus .mdio).eng.busy = true ∧
    (∀ w, w ≠ .mdio → ((busyAt dir 64 datOe false).bus w).eng.busy = false) ∧
    ((busyAt dir 64 datOe false).bus .mdio).eng.idx.toNat = (variantRecord .mdio).nCells ∧
    ((busyAt dir 64 datOe false).bus .mdio).eng.clk = false := by
  refine ⟨rfl, rfl, ?_, rfl, rfl⟩
  intro w hw
  cases w
  · exact absurd rfl hw
  · rfl

/-- SequencerTakesTheOneEnabledStep: the first and the last cell, and the machine with nothing to do; the lines that
present nothing are in `witness_waiting_lines`. -/
theorem witness_sequencer :
    ((busyAt .wr 0 true true).bus .mdio).eng.idx.toNat < (variantRecord .mdio).nCells ∧
    ((busyAt .wr 63 true true).bus .mdio).eng.idx.toNat < (variantRecord .mdio).nCells ∧
    State.reset.resetIn = false ∧ State.reset.mdio.eng.busy = false ∧ State.reset.tws.eng.busy = false ∧
    State.reset.todo = [] ∧ State.reset.program = [] := by decide

/-- PhyWriteCompletes, PhyReadCompletes: the composites may be presented after reset, over whichever instance. -/
theorem witness_composite_ready : Ready Config.phyParams.port.bus State.reset := ready_reset _

/-- BusWriteStoresOneRegister, WriteIsTakenAtTheLastDataCell, ReadReturnsTheRegister, WriteThenReadReturnsTheValue,
WriteElsewhereDoesNotChangeARead: one reference target, a claimed address at each end of its range and others. -/
theorem witness_claimed :
    (twoTargets.bus .mdio).env = .reference [mdioTarget] ∧ mdioTarget.claims 0x022 = true ∧
    mdioTarget.claims 0x020 = true ∧ mdioTarget.claims 0x03F = true ∧ mdioTarget.claims 0x023 = true ∧
    mdioTarget.claims 0x01F = false ∧ mdioTarget.claims 0x040 = false ∧ (0x023 : Addr) ≠ 0x022 ∧
    mdioTarget.treg.wf = true ∧ mdioTarget.treg.read 0x23 = 0x1111 ∧
    twoTargets.resetIn = false ∧ PlainWrite Config.phyParams .mdio 0x022 mdioTarget :=
  ⟨rfl, rfl, rfl, rfl, rfl, rfl, rfl, by decide, rfl, rfl, rfl, .inl rfl⟩

/-- WriteIsTakenAtTheLastDataCell, SixtySixOrFortyTwoStepsMakeTheOperation: a program with a request next. -/
theorem witness_request_program :
    let s := { twoTargets with program := [.request (encode (.mdioWr 1 2 0xA5C3))] }
    Ready .mdio s ∧ s.resetIn = false ∧ (s.bus .mdio).stuck = none ∧
    s.program = .request (encode (.mdioWr 1 2 0xA5C3)) :: [] := ⟨⟨rfl, rfl⟩, rfl, rfl, rfl⟩

/-- WriteIsTakenAtTheLastDataCell and ReadReturnsTheRegister, the drive of a target: a heard write op-code, a heard
read op-code at a claimed address, and the cells on both sides of the data cells. -/
theorem witness_drive :
    (⟨(false, true), 0x22, 0, []⟩ : Heard).op = (variantRecord .mdio).opWr ∧
    (⟨(true, false), 0x23, 0, []⟩ : Heard).op = (variantRecord .mdio).opRd ∧
    [47, 48, 51, 63, 64].map (fun c => mdioTarget.drive (variantRecord .mdio) c ⟨(true, false), 0x23, 0, []⟩) =
      [.off, .level false, .level true, .level true, .off] := by decide

/-- NobodyAnswers: no target at all, and a target that does not claim the address; a fixed and a free `PULL`. -/
theorem witness_nobody :
    (nobodyThere.bus .mdio).env = .reference [] ∧ mdioTarget.claims 0x0E0 = false ∧
    Ready .mdio nobodyThere ∧ (nobodyThere.bus .mdio).stuck = none ∧ (nobodyThere.bus .mdio).pull = none ∧
    Ready .mdio { twoTargets with mdio := { twoTargets.mdio with pull := some false } } :=
  ⟨rfl, rfl, ⟨rfl, rfl⟩, rfl, rfl, ⟨rfl, rfl⟩⟩

/-- StuckLine: stuck low and stuck high. -/
theorem witness_stuck (l : Level) :
    Ready .mdio { twoTargets with mdio := { twoTargets.mdio with stuck := some l } } ∧
    (State.bus .mdio { twoTargets with mdio := { twoTargets.mdio with stuck := some l } }).stuck = some l :=
  ⟨⟨rfl, rfl⟩, rfl⟩

/-- TwoDevicesAnswerAtOnce: two targets that claim one address and differ in some bits only. -/
theorem witness_two_devices :
    let other : RefTarget := { mdioTarget with treg := [(0x23, 0x1110)] }
    let s := withTargets (.reference [mdioTarget, other]) .unknown
    Ready .mdio s ∧ (s.bus .mdio).stuck = none ∧ mdioTarget.claims 0x23 = true ∧ other.claims 0x23 = true ∧
    (mdioTarget.treg.read 0x23).getLsbD 15 = (other.treg.read 0x23).getLsbD 15 ∧
    (mdioTarget.treg.read 0x23).getLsbD 0 ≠ (other.treg.read 0x23).getLsbD 0 :=
  ⟨⟨rfl, rfl⟩, rfl, rfl, rfl, rfl, by decide⟩

/-- The illustrative command words tell the registers apart. -/
theorem illustrative_injective : InjectiveCommand illustrative := by
  have h : ∀ dir : Dir, ∀ p < 64, ∀ q < 64,
      illustrative.cmdWord dir p = illustrative.cmdWord dir q → p = q := by
    intro dir
    cases dir <;> decide
  exact fun dir p q hp hq he => h dir p hp q hq he

/-- BusWriteReachesTheIndirectPart, CompositeWriteReachesPreg, CompositeReadReturnsPreg, CompositeRoundTrip: a target with an indirect part
that claims both registers, and registers at both ends of the range of `preg`. -/
theorem witness_indirect :
    Ready illustrative.port.bus p3Start ∧ (p3Start.bus illustrative.port.bus).stuck = none ∧
    (p3Start.bus illustrative.port.bus).env = .reference [p3Target] ∧ p3Target.wf = true ∧
    p3Target.indirect = some p3Part ∧ p3Target.claims illustrative.port.cmdAddr = true ∧
    p3Target.claims illustrative.port.dataAddr = true ∧
    illustrative.port.cmdAddr ≠ illustrative.port.dataAddr ∧ InjectiveCommand illustrative ∧
    0 < 2 ^ illustrative.pregWidth ∧ 63 < 2 ^ illustrative.pregWidth :=
  ⟨⟨rfl, rfl⟩, rfl, rfl, rfl, rfl, rfl, rfl, by decide, illustrative_injective, by decide, by decide⟩

/-- BusWriteReachesTheIndirectPart, its clauses on the word: a command to read, one to write and one that is none. -/
theorem witness_command_words :
    0x4021 = illustrative.cmdWord .rd 0x21 ∧ 0x8021 = illustrative.cmdWord .wr 0x21 ∧
    (∀ p < 2 ^ illustrative.pregWidth, (0x1234 : RegWord) ≠ illustrative.cmdWord .rd p) ∧
    (∀ p < 2 ^ illustrative.pregWidth, p3Part.pcmd ≠ illustrative.cmdWord .wr p) := by decide

/-- CompositeWriteReachesPreg, CompositeReadReturnsPreg, their other clauses: a target that claims neither register, and
one without an indirect part. -/
theorem witness_composite_other_targets :
    mdioTarget.claims illustrative.port.cmdAddr = false ∧ mdioTarget.claims illustrative.port.dataAddr = false ∧
    mdioTarget.wf = true ∧ mdioTarget.indirect = none ∧ twsTarget.indirect = none ∧ twsTarget.wf = true ∧
    twsTarget.claims illustrative.port.cmdAddr = true ∧ twsTarget.claims illustrative.port.dataAddr = true := by
  decide

/-- WriteDoesNotDependOnTheTarget: different targets, the same engine and trace. -/
theorem witness_fire_blind :
    Ready .mdio twoTargets ∧ Ready .mdio nobodyThere ∧ (twoTargets.bus .mdio).eng = (nobodyThere.bus .mdio).eng ∧
    (twoTargets.bus .mdio).trace = (nobodyThere.bus .mdio).trace ∧
    (twoTargets.bus .mdio).env ≠ (nobodyThere.bus .mdio).env := ⟨⟨rfl, rfl⟩, ⟨rfl, rfl⟩, rfl, rfl, by decide⟩

/-- OperationIgnoresTheOtherInstance: another idle instance. -/
theorem witness_other_instance : Variant.tws ≠ .mdio ∧ nobodyThere.tws.eng.busy = false := by decide

/-- TurnaroundLevelsDoNotMatter: V94, the clock low. -/
theorem witness_turnaround : twoTargets.mdio.eng.clk = false := rfl

/-- SixtySixOrFortyTwoStepsMakeTheOperation: `k` at both ends on each instance. -/
theorem witness_step_counts :
    1 < (if Variant.mdio = .mdio then 66 else 42) ∧ 65 < (if Variant.mdio = .mdio then 66 else 42) ∧
    41 < (if Variant.tws = .mdio then 66 else 42) := by decide

/-- CompositeRunsStepByStep: register 0 fits whatever the width of `preg`. -/
theorem witness_composite_steps :
    wellFormed (.phyWr 0 0x00FF) = true ∧ wellFormed (.phyRd 0) = true ∧
    Ready Config.phyParams.port.bus State.reset ∧ State.reset.resetIn = false :=
  ⟨by simp [wellFormed], by simp [wellFormed], ready_reset _, rfl⟩

theorem inv_reset : State.Inv State.reset := by
  refine ⟨?_, ?_, ?_, rfl, ?_⟩
  · unfold Bus.Inv; decide
  · unfold Bus.Inv; decide
  · decide
  · intro a h; cases h

/-- StepKeepsTheInvariant: the state after reset and its step. -/
theorem witness_invariant_step : State.Inv State.reset ∧ step State.reset = .next State.reset := ⟨inv_reset, rfl⟩

/-- RequestedOperationNeverStops, OperandsAreConstantWhileBusy: an operation in progress, in a state of the
invariant, and its step. -/
theorem witness_busy :
    State.Inv (busyAt .wr 0 true true) ∧ (busyAt .wr 0 true true).mdio.eng.busy = true ∧
    (busyAt .wr 0 true true).resetIn = false ∧
    step (busyAt .wr 0 true true) = .next (after (step (busyAt .wr 0 true true))) := by
  refine ⟨⟨?_, ?_, ?_, rfl, ?_⟩, rfl, rfl, bus_next (by decide)⟩
  · unfold Bus.Inv; decide
  · unfold Bus.Inv; decide
  · decide
  · intro a h; cases h

/-- RequestedOperationNeverStops: a composite between its two bus operations. -/
theorem witness_composite_in_progress :
    let s := { State.reset with todo := [.settle .tws, .present .tws .wr 0x0B 0x00FF, .settle .tws] }
    State.Inv s ∧ s.todo ≠ [] := by
  refine ⟨⟨?_, ?_, ?_, rfl, ?_⟩, by decide⟩
  · unfold Bus.Inv; decide
  · unfold Bus.Inv; decide
  · decide
  · intro a h
    simp only [List.mem_cons, List.not_mem_nil, or_false] at h
    rcases h with h | h | h <;> subst h
    · exact trivial
    · exact fun _ => rfl
    · exact trivial

/-- A machine with a delay and a read of a register that holds a value next in its program. -/
def waiting : State :=
  { State.reset with
    mdio := { Bus.reset with eng := { Engine.reset with rdataValid := true } }
    program := [.delay 200000, .readRdata .mdio] }

/-- SequencerTakesTheOneEnabledStep, IdleEngineStaysIdle, StepPerformsTheOtherLines: lines that present nothing, of both
kinds, a step over each, and a program of delays alone. -/
theorem witness_waiting_lines :
    waiting.resetIn = false ∧ waiting.mayRequest = true ∧ waiting.todo = [] ∧
    (∀ l ∈ waiting.program, presentsNothing l = true) ∧
    waiting.program = .delay 200000 :: [.readRdata .mdio] ∧ goesOn (step waiting) = true ∧
    (after (step waiting)).program = .readRdata .mdio :: [] ∧ goesOn (step (after (step waiting))) = true ∧
    (waiting.bus .mdio).eng.rdataValid = true := by decide

theorem inv_waiting : State.Inv waiting := by
  refine ⟨?_, ?_, ?_, rfl, ?_⟩
  · unfold Bus.Inv; decide
  · unfold Bus.Inv; decide
  · decide
  · intro a h; cases h

/-- IdleEngineStaysIdle, its clauses on the program: reads of registers that hold a value; delays alone. -/
theorem witness_waiting_programs :
    (∀ w, .readRdata w ∈ waiting.program → (waiting.bus w).eng.rdataValid = true) ∧
    (∀ l ∈ [HostLine.delay 1, .delay 2], ∃ us, l = .delay us) := by
  refine ⟨?_, ?_⟩
  · intro w
    cases w <;> decide
  · intro l h
    simp only [List.mem_cons, List.not_mem_nil, or_false] at h
    rcases h with rfl | rfl
    · exact ⟨1, rfl⟩
    · exact ⟨2, rfl⟩

/-- StepPerformsTheOtherLines: a request line next. -/
theorem witness_request_line :
    let s := { twoTargets with program := [.request (.frame .mdio 0x60880000#32)] }
    s.resetIn = false ∧ s.mayRequest = true ∧ s.program = .request (.frame .mdio 0x60880000#32) :: [] ∧
    decode (.frame .mdio 0x60880000#32) = .ok (.mdioRd 1 2) ∧ wellFormed (.mdioRd 1 2) = true := by decide

/-- IdleEngineStaysIdle. -/
theorem witness_idle :
    State.Inv State.reset ∧ State.reset.resetIn = false ∧ State.reset.mdio.eng.busy = false ∧
    State.reset.tws.eng.busy = false ∧ State.reset.todo = [] ∧ State.reset.program = [] :=
  ⟨inv_reset, rfl, rfl, rfl, rfl, rfl⟩

/-- RdataIsWrittenOnlyInReadDataCells: data cell 51 of a read of `0x1111`, whose bit 12 is 1. -/
theorem witness_rdata_changes :
    (busyAt .rd 51 false true).resetIn = false ∧ ((busyAt .rd 51 false true).bus .mdio).eng.busy = true ∧
    ((after (step (busyAt .rd 51 false true))).bus .mdio).eng.rdata ≠
      ((busyAt .rd 51 false true).bus .mdio).eng.rdata := by decide

/-- ResetInputResetsTheEngines: a reset that waits, with an operation in progress and without. -/
theorem witness_reset_waits :
    let s := { busyAt .wr 5 true true with resetIn := true }
    s.resetIn = true ∧ (s.bus .mdio).eng.busy = true ∧ (s.bus .mdio).inFrame (variantRecord .mdio) = true ∧
    (s.bus .mdio).env = .reference [mdioTarget] ∧ mdioTarget.indirect = none ∧ mdioTarget.treg.wf = true ∧
    (s.bus .tws).eng.busy = false := ⟨rfl, rfl, rfl, rfl, rfl, rfl, rfl⟩

/-- ResetInputResetsTheEngines, its other clauses: before the first cell, after the last, and with an unknown device. -/
theorem witness_reset_between_cells :
    (busyAt .wr 0 true true).mdio.eng.idx = 0 ∧
    (busyAt .wr 64 true true).mdio.eng.idx.toNat = (variantRecord .mdio).nCells ∧
    (busyAt .wr 0 true true).mdio.inFrame (variantRecord .mdio) = false ∧
    (busyAt .wr 64 true true).mdio.inFrame (variantRecord .mdio) = false ∧ State.reset.mdio.env = .unknown := by decide

/-- StepRunsTheDecodedOperation: `MDIO.WR 1, 2, 0xA5C3` next, nothing in progress. -/
theorem witness_operation_next :
    let s := { twoTargets with program := [.op (.frame .mdio 0x508AA5C3#32)] }
    s.resetIn = false ∧ s.mayRequest = true ∧ s.program = .op (.frame .mdio 0x508AA5C3#32) :: [] ∧
    decode (.frame .mdio 0x508AA5C3#32) = .ok (.mdioWr 1 2 0xA5C3) ∧ wellFormed (.mdioWr 1 2 0xA5C3) = true := by
  decide

/-- StepRefusesWhatCannotBePresented: a word that is no operation, and an operand too wide. -/
theorem witness_refused :
    let s := { State.reset with program := [.op (.frame .mdio 0#32)] }
    s.resetIn = false ∧ s.mayRequest = true ∧ decode (.frame .mdio 0#32) = .error .badStart ∧
    decode (.indirectRd (2 ^ Config.phyParams.pregWidth)) = .ok (.phyRd (2 ^ Config.phyParams.pregWidth)) ∧
    wellFormed (.phyRd (2 ^ Config.phyParams.pregWidth)) = false :=
  ⟨rfl, rfl, rfl, rfl, test_wellFormed_phyRd_too_wide⟩

/-- OperationNotReadyStops: an operation in progress on this instance and on the other, a composite in progress; and pins
away from the idle levels. -/
theorem witness_not_ready :
    let s := { State.reset with mdio := { Bus.reset with eng := { Engine.reset with clk := true } } }
    (busyAt .wr 0 true true).mdio.eng.busy = true ∧ instrBus (.twsRd 0) = .tws ∧
    { State.reset with todo := [.settle .tws] }.todo ≠ [] ∧ s.mayRequest = true ∧
    (s.bus (instrBus (.mdioRd 0 0))).pinsIdle = false := by decide

/-- HostReadsRdata: busy; idle without a value; idle with one. -/
theorem witness_host_reads :
    ((busyAt .rd 0 true true).bus .mdio).eng.busy = true ∧
    (State.reset.bus .mdio).eng.busy = false ∧ (State.reset.bus .mdio).eng.rdataValid = false ∧
    ((after (exec (.mdioRd 1 3) twoTargets)).bus .mdio).eng.busy = false ∧
    ((after (exec (.mdioRd 1 3) twoTargets)).bus .mdio).eng.rdataValid = true := by decide

end Sys2Proof.Tests
end

section
/-! The address field of a frame (30_encoding.md R64): its cells in every frame, and what the MDIO assembly puts there. -/

namespace Sys2Proof.Machine

/-! ### The address cells of a frame -/

theorem getElem?_msbFirst {w : Nat} (x : BitVec w) {k : Nat} (h : k < w) :
    (msbFirst x)[k]? = some (x.getLsbD (w - 1 - k)) := by
  simp [msbFirst, h]

/-- The address cells stand behind the preamble and four more cells, start and op-code (30_encoding.md R68). -/
theorem frame_eq_head_addr_tail (V : VariantRecord) (dir : Dir) (addr : Addr) (wdata : RegWord) :
    ∃ head tail, head.length = V.preLen + 4 ∧
      frame V dir addr wdata = head ++ ((msbFirst addr).map .drive ++ tail) := by
  unfold frame
  refine ⟨_, _, ?_, (List.append_assoc _ _ _).trans (List.append_assoc _ _ _)⟩
  cases dir <;> simp

theorem getElem?_frame_addr (V : VariantRecord) (dir : Dir) (addr : Addr) (wdata : RegWord) {k : Nat} (h : k < 10) :
    (frame V dir addr wdata)[V.preLen + 4 + k]? = some (.drive (addr.getLsbD (9 - k))) := by
  obtain ⟨head, tail, hlen, hframe⟩ := frame_eq_head_addr_tail V dir addr wdata
  have hk : k < ((msbFirst addr).map CellSym.drive).length := by simpa [length_msbFirst] using h
  rw [hframe, ← hlen, List.getElem?_append_right (Nat.le_add_right _ _), Nat.add_sub_cancel_left,
    List.getElem?_append_left hk, List.getElem?_map, getElem?_msbFirst addr h, Option.map_some]

/-! ### The MDIO address field -/

theorem extractLsb'_assembleMdio_phyad (phyad regad : BitVec 5) :
    (assembleMdio phyad regad).extractLsb' 5 5 = phyad :=
  BitVec.extractLsb'_append_eq_left

theorem extractLsb'_assembleMdio_regad (phyad regad : BitVec 5) :
    (assembleMdio phyad regad).extractLsb' 0 5 = regad :=
  BitVec.extractLsb'_append_eq_right

theorem toNat_assembleMdio (phyad regad : BitVec 5) :
    (assembleMdio phyad regad).toNat = 32 * phyad.toNat + regad.toNat := by
  have h : (phyad ++ regad).toNat = 2 ^ 5 * phyad.toNat + regad.toNat := by
    rw [BitVec.toNat_append, ← Nat.shiftLeft_add_eq_or_of_lt regad.isLt, Nat.shiftLeft_eq, Nat.mul_comm]
  exact h

theorem getLsbD_assembleMdio (phyad regad : BitVec 5) (i : Nat) :
    (assembleMdio phyad regad).getLsbD i = if i < 5 then regad.getLsbD i else phyad.getLsbD (i - 5) :=
  BitVec.getLsbD_append

theorem getElem?_mdioFrame_addr (dir : Dir) (addr : Addr) (wdata : RegWord) {k : Nat} (h : k < 10) :
    (frame (variantRecord .mdio) dir addr wdata)[36 + k]? = some (.drive (addr.getLsbD (9 - k))) :=
  getElem?_frame_addr (variantRecord .mdio) dir addr wdata h

/-- Settles O6: the ten address cells are the bits of `ADDR`, so the first five are PHYAD's and the last five REGAD's. -/
theorem mdioAddressIsPhyadThenRegad : Obligations.MdioAddressIsPhyadThenRegad := by
  intro phyad regad dir data
  have hcell {k : Nat} (hk : k < 10) :=
    getElem?_mdioFrame_addr dir (assembleMdio phyad regad) data hk
  refine ⟨rfl, extractLsb'_assembleMdio_phyad phyad regad, extractLsb'_assembleMdio_regad phyad regad,
    toNat_assembleMdio phyad regad, fun k hk => hcell hk, fun k hk => ?_, fun k hk => ?_⟩
  · have hbit : 9 - k - 5 = 4 - k := by omega
    rw [hcell (by omega), getLsbD_assembleMdio, if_neg (by omega), hbit]
  · have hbit : 9 - (5 + k) = 4 - k := by omega
    rw [show 41 + k = 36 + (5 + k) by omega, hcell (by omega), getLsbD_assembleMdio, if_pos (by omega), hbit]

end Sys2Proof.Machine
end

section
/-! Shift-in as arithmetic (40_bus_primitives.md R91): one sample doubles the register and adds the sample, so as many
samples as it has bits leave their weighted sum. -/

namespace Sys2Proof.Machine

theorem shiftIn_eq_append {w : Nat} (x : BitVec (w + 1)) (b : Level) :
    shiftIn x b = x.extractLsb' 0 w ++ BitVec.ofBool b := by
  apply BitVec.eq_of_getLsbD_eq
  intro i hi
  rw [getLsbD_shiftIn, BitVec.getLsbD_append]
  cases i with
  | zero => simp
  | succ i => simp [hi, show i < w by omega]

/-- One more level behind the ones in `n`, the earlier ones with twice their weight. -/
def pushLevel (n : Nat) (b : Level) : Nat := 2 * n + b.toNat

theorem toNat_shiftIn {w : Nat} (x : BitVec w) (b : Level) :
    (shiftIn x b).toNat = pushLevel x.toNat b % 2 ^ w := by
  rw [shiftIn, BitVec.toNat_setWidth, BitVec.toNat_concat, pushLevel, Nat.mul_comm]

theorem foldl_pushLevel (l : List Level) (n : Nat) :
    l.foldl pushLevel n = 2 ^ l.length * n + l.foldl pushLevel 0 := by
  induction l generalizing n with
  | nil => simp
  | cons b l ih =>
    rw [List.foldl_cons, List.foldl_cons, ih (pushLevel n b), ih (pushLevel 0 b), List.length_cons, Nat.pow_succ]
    simp only [pushLevel]
    ring

theorem foldl_pushLevel_zero_lt (l : List Level) : l.foldl pushLevel 0 < 2 ^ l.length := by
  induction l using List.reverseRecOn with
  | nil => simp
  | append_singleton l b ih =>
    have hb := b.toNat_lt
    rw [List.foldl_append, List.length_append, List.length_singleton, Nat.pow_succ]
    simp only [List.foldl_cons, List.foldl_nil, pushLevel]
    omega

theorem toNat_foldl_shiftIn {w : Nat} (l : List Level) (x : BitVec w) :
    (l.foldl shiftIn x).toNat = l.foldl pushLevel x.toNat % 2 ^ w := by
  induction l using List.reverseRecOn with
  | nil => simp [Nat.mod_eq_of_lt x.isLt]
  | append_singleton l b ih =>
    simp only [List.foldl_append, List.foldl_cons, List.foldl_nil, toNat_shiftIn, ih, pushLevel]
    simp [Nat.add_mod, Nat.mul_mod]

/-- As many levels as the register has bits push out whatever it held. -/
theorem toNat_foldl_shiftIn_full {w : Nat} {l : List Level} (h : l.length = w) (x : BitVec w) :
    (l.foldl shiftIn x).toNat = l.foldl pushLevel 0 := by
  subst h
  rw [toNat_foldl_shiftIn, foldl_pushLevel, Nat.mul_add_mod, Nat.mod_eq_of_lt (foldl_pushLevel_zero_lt l)]

/-- Settles O9: the bits of a field are `getElem?_msbFirst`'s, the counter's step is `cellStep_idx`'s, and shift-in is
the arithmetic above. -/
theorem bitSelectionAndShiftIn : Obligations.BitSelectionAndShiftIn :=
  ⟨fun _ x _ hk => getElem?_msbFirst x hk,
    fun x b => ⟨shiftIn_eq_append x b, toNat_shiftIn x b⟩,
    fun x _ hl => toNat_foldl_shiftIn_full hl x,
    fun v pp b h => cellStep_idx v pp b h⟩

end Sys2Proof.Machine
end

section
/-! A bus operation from its request to its finish (40_bus_primitives.md R90): the host's line presents the encoded
operation, and the start, the cells and the finish make the big step. -/

namespace Sys2Proof.Machine

/-! ### The coded form read back -/

/-- A field under the ones of a row's mask is the row's. -/
theorem extractLsb'_of_ofRow {mask row F : BitVec 32} (h : ofRow mask row F) {start len : Nat}
    (hmask : mask.extractLsb' start len = BitVec.allOnes len) :
    F.extractLsb' start len = row.extractLsb' start len := by
  rw [← show F &&& mask = row from h, BitVec.extractLsb'_and, hmask, BitVec.and_allOnes]

theorem decode_encode (i : Instr) : decode (encode i) = .ok i := by
  cases i with
  | mdioWr phyad regad data =>
    obtain ⟨F, hF, hrow, hphyad, hregad, hdata⟩ := Laws.TableRow.mdioWr phyad regad data
    have hst := extractLsb'_of_ofRow hrow (start := 30) (len := 2) rfl
    have hop := extractLsb'_of_ofRow hrow (start := 28) (len := 2) rfl
    have hta := extractLsb'_of_ofRow hrow (start := 16) (len := 2) rfl
    simp [hF, decode, decodeFrame, hst, hop, hta, hphyad, hregad, hdata]
  | mdioRd phyad regad =>
    obtain ⟨F, hF, hrow, hphyad, hregad⟩ := Laws.TableRow.mdioRd phyad regad
    have hst := extractLsb'_of_ofRow hrow (start := 30) (len := 2) rfl
    have hop := extractLsb'_of_ofRow hrow (start := 28) (len := 2) rfl
    simp [hF, decode, decodeFrame, hst, hop, hphyad, hregad]
  | twsWr reg data =>
    obtain ⟨F, hF, hrow, hreg, hdata⟩ := Laws.TableRow.twsWr reg data
    have hst := extractLsb'_of_ofRow hrow (start := 30) (len := 2) rfl
    have hop := extractLsb'_of_ofRow hrow (start := 28) (len := 2) rfl
    have hhead := extractLsb'_of_ofRow hrow (start := 26) (len := 2) rfl
    have hta := extractLsb'_of_ofRow hrow (start := 16) (len := 2) rfl
    simp [hF, decode, decodeFrame, hst, hop, hhead, hta, hreg, hdata]
  | twsRd reg =>
    obtain ⟨F, hF, hrow, hreg⟩ := Laws.TableRow.twsRd reg
    have hst := extractLsb'_of_ofRow hrow (start := 30) (len := 2) rfl
    have hop := extractLsb'_of_ofRow hrow (start := 28) (len := 2) rfl
    have hhead := extractLsb'_of_ofRow hrow (start := 26) (len := 2) rfl
    simp [hF, decode, decodeFrame, hst, hop, hhead, hreg]
  | phyWr preg data => rfl
  | phyRd preg => rfl

theorem withDecoded_encode {i : Instr} (hw : wellFormed i = true) (s : State)
    (act : Instr → State → Host.Outcome State Fault Refusal) : s.withDecoded (encode i) act = act i s := by
  simp [State.withDecoded, decode_encode, hw]

/-! ### The program beside the instances -/

@[simp] theorem bus_withProgram (v : Variant) (s : State) (p : List HostLine) :
    ({ s with program := p } : State).bus v = s.bus v := by
  cases v <;> rfl

theorem step_withProgram {s : State} (hr : s.resetIn = false) (hm : s.mayRequest = true) (l : HostLine)
    (rest : List HostLine) :
    step { s with program := l :: rest } = State.hostLine l { s with program := rest } :=
  step_line (s := { s with program := l :: rest }) hr hm rfl

theorem ready_withProgram {v : Variant} {s : State} (p : List HostLine) (h : Ready v s) :
    Ready v { s with program := p } :=
  ⟨h.1, by rw [bus_withProgram]; exact h.2⟩

/-! ### Presenting a bus operation -/

theorem requestBusOp_ready {v : Variant} {s : State} (h : Ready v s) (dir : Dir) (addr : Addr) (wdata : RegWord) :
    s.requestBusOp v dir addr wdata =
      .next (s.setBus v ((s.bus v).startStep (variantRecord v) dir addr wdata)) := by
  obtain ⟨hmay, hpins⟩ := h
  rw [State.requestBusOp, if_pos hmay, State.start, if_pos hpins]

theorem request_busWrite {i : Instr} {v : Variant} {addr : Addr} {data : RegWord} (h : IsBusWrite i v addr data)
    (s : State) : State.request i s = s.requestBusOp v .wr addr data := by
  rcases h with ⟨p, r, rfl, rfl, rfl⟩ | ⟨r, rfl, rfl, rfl⟩ <;> rfl

theorem request_busRead {i : Instr} {v : Variant} {addr : Addr} (h : IsBusRead i v addr) (s : State) :
    State.request i s = s.requestBusOp v .rd addr 0 := by
  rcases h with ⟨p, r, rfl, rfl, rfl⟩ | ⟨r, rfl, rfl, rfl⟩ <;> rfl

theorem wellFormed_busOperation {i : Instr} {v : Variant} {addr : Addr} {data : RegWord}
    (h : IsBusWrite i v addr data ∨ IsBusRead i v addr) : wellFormed i = true := by
  rcases h with (⟨_, _, rfl, _⟩ | ⟨_, rfl, _⟩) | (⟨_, _, rfl, _⟩ | ⟨_, rfl, _⟩) <;> rfl

/-- Performed or requested, a bus operation is one direction and one write operand at its address. -/
theorem exec_request_busOperation {i : Instr} {v : Variant} {addr : Addr} {data : RegWord}
    (h : IsBusWrite i v addr data ∨ IsBusRead i v addr) :
    ∃ dir wdata, (∀ s, exec i s = s.performBusOp Config.phyParams v dir addr wdata) ∧
      ∀ s, State.request i s = s.requestBusOp v dir addr wdata := by
  rcases h with h | h
  · exact ⟨.wr, data, exec_busWrite h, request_busWrite h⟩
  · exact ⟨.rd, 0, exec_busRead h, request_busRead h⟩

/-- The frame's cells with the start and the finish step (40_bus_primitives.md R90). -/
theorem nCells_add_two (v : Variant) : (variantRecord v).nCells + 2 = if v = .mdio then 66 else 42 := by
  cases v <;> rfl

/-- Settles O43: the request takes the start step, `run_started` the rest. -/
theorem sixtySixOrFortyTwoStepsMakeTheOperation : Obligations.SixtySixOrFortyTwoStepsMakeTheOperation := by
  intro i v addr data s rest hi hready hreset
  have hw := wellFormed_busOperation hi
  obtain ⟨dir, wdata, hexec, hrequest⟩ := exec_request_busOperation hi
  have hready' := ready_withProgram rest hready
  have hline l := step_withProgram hreset hready.1 l rest
  have hop : step { s with program := .op (encode i) :: rest } =
      .next (State.busOp Config.phyParams v dir addr wdata { s with program := rest }) := by
    rw [hline, State.hostLine, withDecoded_encode hw, hexec, performBusOp_ready hready']
  have hstart : run 1 { s with program := .request (encode i) :: rest } = .next _ := run_one <| by
    rw [hline, State.hostLine, withDecoded_encode hw, hrequest, requestBusOp_ready hready']
  obtain ⟨hcells, hall⟩ := run_started (v := v) (s := { s with program := rest }) (dir := dir) (addr := addr)
    (wdata := wdata) (mayRequest_idle hready'.1) hreset
  refine ⟨_, hop, ?_, fun k hk1 hk => ?_⟩
  · rw [← nCells_add_two, show (variantRecord v).nCells + 2 = 1 + ((variantRecord v).nCells + 1) by omega,
      run_add _ hstart, hall]
  · rw [← nCells_add_two] at hk
    obtain ⟨j, rfl⟩ := Nat.exists_eq_add_of_le hk1
    refine ⟨_, (run_add j hstart).trans (hcells j (by omega)), ?_, ?_, fun w hne => ?_⟩
    · rw [bus_setBus, cells_busy, startStep_eq]
      rfl
    · rw [setBus_program]
    · rw [bus_setBus_of_ne hne, bus_withProgram]

end Sys2Proof.Machine
end

section
/-! The coded form and its frame word (30_encoding.md sections 1, 3 and 4): a word is its six fields, the decoder's test
of the fields is the table's mask and match, and the encoder puts the same fields back. -/

namespace Sys2Proof.Machine

/-- Settles O1: every operation's word is of its row of the table, and the decoder reads the row's fields back. -/
theorem decodeOfEncodeIsIdentity : Obligations.DecodeOfEncodeIsIdentity := decode_encode

/-! ### A frame word as its fields -/

/-- Two words are equal when they agree on start, op-code, header, register, turnaround and data. -/
theorem word_eq_iff_fields (F G : BitVec 32) :
    F = G ↔ F.extractLsb' 30 2 = G.extractLsb' 30 2 ∧ F.extractLsb' 28 2 = G.extractLsb' 28 2 ∧
      F.extractLsb' 26 2 = G.extractLsb' 26 2 ∧ F.extractLsb' 18 8 = G.extractLsb' 18 8 ∧
      F.extractLsb' 16 2 = G.extractLsb' 16 2 ∧ F.extractLsb' 0 16 = G.extractLsb' 0 16 := by
  refine ⟨by rintro rfl; simp, ?_⟩
  rintro ⟨hst, hop, hhead, hreg, hta, hdata⟩
  have fields (W : BitVec 32) : W = W.extractLsb' 30 2 ++ W.extractLsb' 28 2 ++ W.extractLsb' 26 2 ++
      W.extractLsb' 18 8 ++ W.extractLsb' 16 2 ++ W.extractLsb' 0 16 := by
    rw [BitVec.extractLsb'_append_extractLsb'_eq_extractLsb' (by rfl),
      BitVec.extractLsb'_append_extractLsb'_eq_extractLsb' (by rfl),
      BitVec.extractLsb'_append_extractLsb'_eq_extractLsb' (by rfl),
      BitVec.extractLsb'_append_extractLsb'_eq_extractLsb' (by rfl),
      BitVec.extractLsb'_append_extractLsb'_eq_extractLsb' (by rfl)]
    simp
  rw [fields F, fields G, hst, hop, hhead, hreg, hta, hdata]

/-- A field of two bits is unchanged under a mask of ones. -/
theorem ones_and (x : BitVec 2) : x &&& 3#2 = x := BitVec.and_allOnes

/-- The write row of the table, `F[31:28] = 0101` and `F[17:16] = 10` (30_encoding.md R73). -/
theorem mdioWriteRow_iff (F : BitVec 32) : F &&& 0xF0030000#32 = 0x50020000#32 ↔
    F.extractLsb' 30 2 = 1#2 ∧ F.extractLsb' 28 2 = 1#2 ∧ F.extractLsb' 16 2 = 2#2 := by
  simp [word_eq_iff_fields, BitVec.extractLsb'_and, ones_and]

theorem mdioReadRow_iff (F : BitVec 32) : F &&& 0xF0000000#32 = 0x60000000#32 ↔
    F.extractLsb' 30 2 = 1#2 ∧ F.extractLsb' 28 2 = 2#2 := by
  simp [word_eq_iff_fields, BitVec.extractLsb'_and, ones_and]

theorem twsWriteRow_iff (F : BitVec 32) : F &&& 0xFC030000#32 = 0x50020000#32 ↔
    F.extractLsb' 30 2 = 1#2 ∧ F.extractLsb' 28 2 = 1#2 ∧ F.extractLsb' 26 2 = 0#2 ∧ F.extractLsb' 16 2 = 2#2 := by
  simp [word_eq_iff_fields, BitVec.extractLsb'_and, ones_and]

theorem twsReadRow_iff (F : BitVec 32) : F &&& 0xFC000000#32 = 0x60000000#32 ↔
    F.extractLsb' 30 2 = 1#2 ∧ F.extractLsb' 28 2 = 2#2 ∧ F.extractLsb' 26 2 = 0#2 := by
  simp [word_eq_iff_fields, BitVec.extractLsb'_and, ones_and]

/-! ### What the decoder accepts -/

/-- The write a word of a format stands for. -/
def writeOfWord (v : Variant) (F : BitVec 32) : Instr :=
  match v with
  | .mdio => .mdioWr (F.extractLsb' 23 5) (F.extractLsb' 18 5) (F.extractLsb' 0 16)
  | .tws => .twsWr (F.extractLsb' 18 8) (F.extractLsb' 0 16)

/-- The read a word of a format stands for. -/
def readOfWord (v : Variant) (F : BitVec 32) : Instr :=
  match v with
  | .mdio => .mdioRd (F.extractLsb' 23 5) (F.extractLsb' 18 5)
  | .tws => .twsRd (F.extractLsb' 18 8)

theorem decodeFrame_ok_iff {v : Variant} {F : BitVec 32} {i : Instr} : decodeFrame v F = .ok i ↔
    F.extractLsb' 30 2 = 1#2 ∧ (v = .tws → F.extractLsb' 26 2 = 0#2) ∧
      ((F.extractLsb' 28 2 = 1#2 ∧ F.extractLsb' 16 2 = 2#2 ∧ writeOfWord v F = i) ∨
        (F.extractLsb' 28 2 = 2#2 ∧ readOfWord v F = i)) := by
  unfold decodeFrame
  by_cases hst : F.extractLsb' 30 2 = 1#2
  swap; · simp [hst]
  by_cases hhead : v = .tws ∧ F.extractLsb' 26 2 ≠ 0#2
  · simp [hst, hhead]
  rw [if_neg (not_not.2 hst), if_neg hhead]
  have hhead' : v = .tws → F.extractLsb' 26 2 = 0#2 := by simpa using hhead
  by_cases hwr : F.extractLsb' 28 2 = 1#2
  · by_cases hta : F.extractLsb' 16 2 = 2#2
    · cases v <;> simp_all [writeOfWord]
    · simp [hwr, hta]
  · by_cases hrd : F.extractLsb' 28 2 = 2#2
    · cases v <;> simp_all [readOfWord]
    · simp [hwr, hrd]

/-- Settles O3: the fields `decodeFrame` looks at are those under the masks of the format's two rows. -/
theorem decoderAcceptsExactlyTheTableRows : Obligations.DecoderAcceptsExactlyTheTableRows := by
  intro F
  constructor
  · simp only [decodeFrame_ok_iff, mdioWriteRow_iff, mdioReadRow_iff]
    constructor
    · rintro ⟨i, hst, -, ⟨hop, hta, -⟩ | ⟨hop, -⟩⟩
      · exact .inl ⟨hst, hop, hta⟩
      · exact .inr ⟨hst, hop⟩
    · rintro (⟨hst, hop, hta⟩ | ⟨hst, hop⟩)
      · exact ⟨_, hst, nofun, .inl ⟨hop, hta, rfl⟩⟩
      · exact ⟨_, hst, nofun, .inr ⟨hop, rfl⟩⟩
  · rw [twsWriteRow_iff, twsReadRow_iff]
    simp only [decodeFrame_ok_iff (v := .tws), forall_const]
    constructor
    · rintro ⟨i, hst, hhead, ⟨hop, hta, -⟩ | ⟨hop, -⟩⟩
      · exact .inl ⟨hst, hop, hhead, hta⟩
      · exact .inr ⟨hst, hop, hhead⟩
    · rintro (⟨hst, hop, hhead, hta⟩ | ⟨hst, hop, hhead⟩)
      · exact ⟨_, hst, hhead, .inl ⟨hop, hta, rfl⟩⟩
      · exact ⟨_, hst, hhead, .inr ⟨hop, rfl⟩⟩

/-! ### The word put back -/

/-- The address field of a word. -/
def wordAddr (F : BitVec 32) : Addr := F.extractLsb' 18 10

theorem assembleMdio_wordAddr (F : BitVec 32) :
    assembleMdio (F.extractLsb' 23 5) (F.extractLsb' 18 5) = wordAddr F :=
  BitVec.extractLsb'_append_extractLsb'_eq_extractLsb' rfl

theorem assembleTws_wordAddr {F : BitVec 32} (hhead : F.extractLsb' 26 2 = 0#2) :
    assembleTws (F.extractLsb' 18 8) = wordAddr F := by
  unfold assembleTws
  rw [← hhead]
  exact BitVec.extractLsb'_append_extractLsb'_eq_extractLsb' rfl

theorem writeWord_fields {F : BitVec 32} (hst : F.extractLsb' 30 2 = 1#2) (hop : F.extractLsb' 28 2 = 1#2)
    (hta : F.extractLsb' 16 2 = 2#2) : writeWord (wordAddr F) (F.extractLsb' 0 16) = F := by
  have hhead : 0b0101#4 = F.extractLsb' 30 2 ++ F.extractLsb' 28 2 := by rw [hst, hop]; rfl
  unfold writeWord wordAddr
  rw [hhead, ← hta, BitVec.extractLsb'_append_extractLsb'_eq_extractLsb' (by rfl),
    BitVec.extractLsb'_append_extractLsb'_eq_extractLsb' (by rfl),
    BitVec.extractLsb'_append_extractLsb'_eq_extractLsb' (by rfl),
    BitVec.extractLsb'_append_extractLsb'_eq_extractLsb' (by rfl)]
  simp

/-- A read word keeps the driven bits of the word it comes from. -/
theorem readWord_fields {F : BitVec 32} (hst : F.extractLsb' 30 2 = 1#2) (hop : F.extractLsb' 28 2 = 2#2) :
    readWord (wordAddr F) = F &&& 0xFFFC0000#32 := by
  have hhead : 0b0110#4 = F.extractLsb' 30 2 ++ F.extractLsb' 28 2 := by rw [hst, hop]; rfl
  have hdriven : F &&& 0xFFFC0000#32 = F.extractLsb' 18 14 ++ 0#18 := by
    calc F &&& 0xFFFC0000#32
        = (F.extractLsb' 18 14 ++ F.extractLsb' 0 18) &&& (BitVec.allOnes 14 ++ 0#18) := by
          rw [BitVec.extractLsb'_append_extractLsb' (w := 14) (len := 18) (x := F)]; rfl
      _ = F.extractLsb' 18 14 ++ 0#18 := by rw [BitVec.and_append, BitVec.and_allOnes, BitVec.and_zero]
  unfold readWord wordAddr
  rw [hdriven, hhead, BitVec.extractLsb'_append_extractLsb'_eq_extractLsb' (by rfl),
    BitVec.extractLsb'_append_extractLsb'_eq_extractLsb' (by rfl)]

/-- Settles O2: `decodeFrame_ok_iff` fixes the fields that are no operands, the rest are the operands. -/
theorem encodeOfDecodedWordIsTheWord : Obligations.EncodeOfDecodedWordIsTheWord := by
  intro v F i h
  obtain ⟨hst, hhead, ⟨hop, hta, rfl⟩ | ⟨hop, rfl⟩⟩ := decodeFrame_ok_iff.1 h
  · rw [if_pos hop]
    cases v
    · rw [writeOfWord, encode, assembleMdio_wordAddr, writeWord_fields hst hop hta]
    · rw [writeOfWord, encode, assembleTws_wordAddr (hhead rfl), writeWord_fields hst hop hta]
  · rw [if_neg (by rw [hop]; decide)]
    cases v
    · rw [readOfWord, encode, assembleMdio_wordAddr, readWord_fields hst hop]
    · rw [readOfWord, encode, assembleTws_wordAddr (hhead rfl), readWord_fields hst hop]

/-- Settles O4, by evaluating the decoder on the five coded forms. -/
theorem vectorWordsDecode : Obligations.VectorWordsDecode := by
  unfold Obligations.VectorWordsDecode
  decide

end Sys2Proof.Machine
end

section
/-! The cells of a frame (30_encoding.md R68, 40_bus_primitives.md R89): the action of each, its symbol in the frame,
and the bit of the frame word it carries. -/

namespace Sys2Proof.Machine

/-! ### Bit by bit, the frame word -/

theorem getLsbD_writeWord_data (addr : Addr) (data : RegWord) {i : Nat} (h : i < 16) :
    (writeWord addr data).getLsbD i = data.getLsbD i := by
  simp only [writeWord, BitVec.getLsbD_append, h, if_true]

theorem getLsbD_writeWord_addr (addr : Addr) (data : RegWord) {i : Nat} (h : i < 10) :
    (writeWord addr data).getLsbD (18 + i) = addr.getLsbD i := by
  have h1 : ¬ 18 + i < 16 := by omega
  have h2 : ¬ 18 + i - 16 < 2 := by omega
  have h3 : 18 + i - 16 - 2 = i := by omega
  simp only [writeWord, BitVec.getLsbD_append, h1, h2, h3, h, if_true, if_false]

theorem getLsbD_writeWord_turnaround (addr : Addr) (data : RegWord) {i : Nat} (h : i < 2) :
    (writeWord addr data).getLsbD (16 + i) = (0b10#2).getLsbD i := by
  have h1 : ¬ 16 + i < 16 := by omega
  have h2 : 16 + i - 16 = i := by omega
  simp only [writeWord, BitVec.getLsbD_append, h1, h2, h, if_true, if_false]

theorem getLsbD_writeWord_head (addr : Addr) (data : RegWord) (i : Nat) :
    (writeWord addr data).getLsbD (28 + i) = (0b0101#4).getLsbD i := by
  have h1 : ¬ 28 + i < 16 := by omega
  have h2 : ¬ 28 + i - 16 < 2 := by omega
  have h3 : ¬ 28 + i - 16 - 2 < 10 := by omega
  have h4 : 28 + i - 16 - 2 - 10 = i := by omega
  simp only [writeWord, BitVec.getLsbD_append, h1, h2, h3, h4, if_false]

theorem getLsbD_readWord_addr (addr : Addr) {i : Nat} (h : i < 10) :
    (readWord addr).getLsbD (18 + i) = addr.getLsbD i := by
  have h1 : ¬ 18 + i < 18 := by omega
  have h2 : 18 + i - 18 = i := by omega
  simp only [readWord, BitVec.getLsbD_append, h1, h2, h, if_true, if_false]

theorem getLsbD_readWord_head (addr : Addr) (i : Nat) :
    (readWord addr).getLsbD (28 + i) = (0b0110#4).getLsbD i := by
  have h1 : ¬ 28 + i < 18 := by omega
  have h2 : ¬ 28 + i - 18 < 10 := by omega
  have h3 : 28 + i - 18 - 10 = i := by omega
  simp only [readWord, BitVec.getLsbD_append, h1, h2, h3, if_false]

/-! ### The action of every cell, counted from the end of the preamble -/

theorem phaseAfter_addr {k : Nat} (h : k < 10) : phaseAfter (4 + k) = .addr := by
  simp [phaseAfter, show ¬ 4 + k < 2 by omega, show ¬ 4 + k < 4 by omega, show 4 + k < 14 by omega]

theorem phaseAfter_data {k : Nat} (h : k < 16) : phaseAfter (16 + k) = .data := by
  rw [← phase_after (variantRecord .mdio), ← Nat.add_assoc, phase_data _ h]

theorem actionAfter_addr (V : VariantRecord) (dir : Dir) (addr : Addr) (wdata : RegWord) {k : Nat} (h : k < 10) :
    actionAfter V dir addr wdata (4 + k) = .send (addr.getLsbD (9 - k)) := by
  simp [actionAfter, phaseAfter_addr h]

theorem actionAfter_writeData (V : VariantRecord) (addr : Addr) (wdata : RegWord) {k : Nat} (h : k < 16) :
    actionAfter V .wr addr wdata (16 + k) = .send (wdata.getLsbD (15 - k)) := by
  simp [actionAfter, phaseAfter_data h]

theorem actionAfter_readData (V : VariantRecord) (addr : Addr) (wdata : RegWord) {k : Nat} (h : k < 16) :
    actionAfter V .rd addr wdata (16 + k) = .recv := by
  simp [actionAfter, phaseAfter_data h]

theorem cellAction_addr (V : VariantRecord) (dir : Dir) (addr : Addr) (wdata : RegWord) {k : Nat} (h : k < 10) :
    cellAction V dir addr wdata (V.preLen + 4 + k) = .send (addr.getLsbD (9 - k)) := by
  rw [Nat.add_assoc, cellAction_after, actionAfter_addr _ _ _ _ h]

theorem cellAction_writeData (V : VariantRecord) (addr : Addr) (wdata : RegWord) {k : Nat} (h : k < 16) :
    cellAction V .wr addr wdata (V.preLen + 16 + k) = .send (wdata.getLsbD (15 - k)) := by
  rw [Nat.add_assoc, cellAction_after, actionAfter_writeData _ _ _ h]

theorem cellAction_readData (V : VariantRecord) (addr : Addr) (wdata : RegWord) {k : Nat} (h : k < 16) :
    cellAction V .rd addr wdata (V.preLen + 16 + k) = .recv := by
  rw [Nat.add_assoc, cellAction_after, actionAfter_readData _ _ _ h]

theorem cellAction_start (V : VariantRecord) (dir : Dir) (addr : Addr) (wdata : RegWord) :
    cellAction V dir addr wdata V.preLen = .send V.st.1 ∧
      cellAction V dir addr wdata (V.preLen + 1) = .send V.st.2 :=
  ⟨cellAction_after V dir addr wdata 0, cellAction_after V dir addr wdata 1⟩

theorem cellAction_opCode (V : VariantRecord) (dir : Dir) (addr : Addr) (wdata : RegWord) :
    cellAction V dir addr wdata (V.preLen + 2) = .send (opCode V dir).1 ∧
      cellAction V dir addr wdata (V.preLen + 3) = .send (opCode V dir).2 :=
  ⟨cellAction_after V dir addr wdata 2, cellAction_after V dir addr wdata 3⟩

theorem cellAction_writeTurnaround (V : VariantRecord) (addr : Addr) (wdata : RegWord) :
    cellAction V .wr addr wdata (V.preLen + 14) = .send V.taWr.1 ∧
      cellAction V .wr addr wdata (V.preLen + 15) = .send V.taWr.2 :=
  ⟨cellAction_after V .wr addr wdata 14, cellAction_after V .wr addr wdata 15⟩

theorem cellAction_readTurnaround (V : VariantRecord) (addr : Addr) (wdata : RegWord) :
    cellAction V .rd addr wdata (V.preLen + 14) = .release ∧
      cellAction V .rd addr wdata (V.preLen + 15) = .hold :=
  ⟨cellAction_after V .rd addr wdata 14, cellAction_after V .rd addr wdata 15⟩

theorem variantRecord_st (v : Variant) : (variantRecord v).st = (false, true) := by cases v <;> rfl
theorem variantRecord_opWr (v : Variant) : (variantRecord v).opWr = (false, true) := by cases v <;> rfl
theorem variantRecord_opRd (v : Variant) : (variantRecord v).opRd = (true, false) := by cases v <;> rfl
theorem variantRecord_taWr (v : Variant) : (variantRecord v).taWr = (true, false) := by cases v <;> rfl

/-- The cells of a write carry its frame word, `F[31]` first (30_encoding.md R63). -/
theorem cellAction_writeWord (v : Variant) (addr : Addr) (data : RegWord) {k : Nat} (h : k < 32) :
    cellAction (variantRecord v) .wr addr data ((variantRecord v).preLen + k) =
      .send ((writeWord addr data).getLsbD (31 - k)) := by
  by_cases h4 : k < 4
  · rw [show 31 - k = 28 + (3 - k) by omega, getLsbD_writeWord_head, cellAction_after]
    cases v <;> interval_cases k <;> rfl
  by_cases h14 : k < 14
  · rw [show 31 - k = 18 + (9 - (k - 4)) by omega, getLsbD_writeWord_addr _ _ (by omega),
      ← cellAction_addr _ .wr addr data (by omega), Nat.add_assoc, show 4 + (k - 4) = k by omega]
  by_cases h16 : k < 16
  · rw [show 31 - k = 16 + (15 - k) by omega, getLsbD_writeWord_turnaround _ _ (by omega), cellAction_after]
    cases v <;> interval_cases k <;> rfl
  · rw [getLsbD_writeWord_data _ _ (by omega), show 31 - k = 15 - (k - 16) by omega,
      ← cellAction_writeData _ addr data (by omega), Nat.add_assoc, show 16 + (k - 16) = k by omega]

/-- The driven cells of a read after the preamble carry its frame word. -/
theorem cellAction_readWord (v : Variant) (addr : Addr) (data : RegWord) {k : Nat} (h : k < 14) :
    cellAction (variantRecord v) .rd addr data ((variantRecord v).preLen + k) =
      .send ((readWord addr).getLsbD (31 - k)) := by
  by_cases h4 : k < 4
  · rw [show 31 - k = 28 + (3 - k) by omega, getLsbD_readWord_head, cellAction_after]
    cases v <;> interval_cases k <;> rfl
  · rw [show 31 - k = 18 + (9 - (k - 4)) by omega, getLsbD_readWord_addr _ (by omega),
      ← cellAction_addr _ .rd addr data (by omega), Nat.add_assoc, show 4 + (k - 4) = k by omega]

/-! ### The symbols of a frame -/

/-- The symbols of the cells are the frame, the preamble first, then the thirty-two cells of the frame word. -/
theorem symbols_eq_frame (V : VariantRecord) (dir : Dir) (addr : Addr) (wdata : RegWord) :
    (List.range (V.preLen + 32)).map (fun c => (cellAction V dir addr wdata c).symbol) =
      (frame V dir addr wdata).map some := by
  have hpre : (List.range V.preLen).map (fun c => (cellAction V dir addr wdata c).symbol) =
      List.replicate V.preLen (some (.drive true)) := by
    rw [List.map_congr_left (g := fun _ => some (.drive true)) fun c hc => by
      rw [cellAction_preamble _ _ _ (List.mem_range.1 hc)]; rfl]
    simp
  rw [List.range_add, List.map_append, hpre, List.map_map]
  cases dir <;>
    simp [frame, msbFirst, Function.comp_def, cellAction_after, List.range, List.range.loop, actionAfter, phaseAfter,
      CellAction.symbol, pick, opCode]

theorem length_frame (V : VariantRecord) (dir : Dir) (addr : Addr) (wdata : RegWord) :
    (frame V dir addr wdata).length = V.preLen + 32 := by
  simpa using (congrArg List.length (symbols_eq_frame V dir addr wdata)).symm

theorem getElem?_frame (V : VariantRecord) (dir : Dir) (addr : Addr) (wdata : RegWord) {c : Nat}
    (h : c < V.preLen + 32) : (frame V dir addr wdata)[c]? = (cellAction V dir addr wdata c).symbol := by
  have hc := congrArg (·[c]?) (symbols_eq_frame V dir addr wdata)
  simp only [List.getElem?_map, List.getElem?_range h, Option.map_some] at hc
  cases hf : (frame V dir addr wdata)[c]? with
  | none => simp [hf] at hc
  | some x => simpa [hf] using hc.symm

/-! ### The statements -/

/-- Settles O14: the ten address cells and the sixteen data cells by their ranges, the others one by one. -/
theorem cellActionOfEveryCell : Obligations.CellActionOfEveryCell := by
  intro v addr data
  refine ⟨fun dir c hc => cellAction_preamble _ _ _ hc, fun dir => ?_, ?_, ?_,
    fun dir k hk => cellAction_addr _ _ _ _ hk, ?_, cellAction_readTurnaround _ _ _,
    fun k hk => cellAction_writeData _ _ _ hk, fun k hk => cellAction_readData _ _ _ hk,
    fun dir => by rw [nCells_eq, symbols_eq_frame]⟩
  · simpa only [variantRecord_st] using cellAction_start (variantRecord v) dir addr data
  · simpa only [opCode, variantRecord_opWr] using cellAction_opCode (variantRecord v) .wr addr data
  · simpa only [opCode, variantRecord_opRd] using cellAction_opCode (variantRecord v) .rd addr data
  · obtain ⟨h14, h15⟩ := cellAction_writeTurnaround (variantRecord v) addr data
    exact ⟨h14, h15, variantRecord_taWr v⟩

/-- Settles O5: a cell of the frame is the symbol of its action, and the action sends a bit of the word. -/
theorem frameCellsCarryTheFrameWord : Obligations.FrameCellsCarryTheFrameWord := by
  intro v dir addr data
  obtain ⟨hreleased, hheld⟩ := cellAction_readTurnaround (variantRecord v) addr data
  refine ⟨by rw [length_frame, nCells_eq], fun c hc => ?_, fun k hk => ?_, fun k hk => ?_, ?_, ?_, fun k hk => ?_⟩
  · rw [getElem?_frame _ _ _ _ (by omega), cellAction_preamble _ _ _ hc]; rfl
  · rw [getElem?_frame _ _ _ _ (by omega), cellAction_writeWord _ _ _ hk]; rfl
  · rw [getElem?_frame _ _ _ _ (by omega), cellAction_readWord _ _ _ hk]; rfl
  · rw [getElem?_frame _ _ _ _ (by omega), hreleased]; rfl
  · rw [getElem?_frame _ _ _ _ (by omega), hheld]; rfl
  · rw [getElem?_frame _ _ _ _ (by omega), cellAction_readData _ _ _ hk]; rfl

/-! ### The TWS address field -/

theorem getLsbD_assembleTws (reg : BitVec 8) (i : Nat) : (assembleTws reg).getLsbD i = reg.getLsbD i := by
  rw [assembleTws, BitVec.getLsbD_append]
  split
  · rfl
  · next h => simp [BitVec.getLsbD_of_ge reg i (by omega)]

theorem getElem?_twsFrame_addr (dir : Dir) (addr : Addr) (wdata : RegWord) {k : Nat} (h : k < 10) :
    (frame (variantRecord .tws) dir addr wdata)[12 + k]? = some (.drive (addr.getLsbD (9 - k))) :=
  getElem?_frame_addr (variantRecord .tws) dir addr wdata h

theorem headerZero_assembleTws (reg : BitVec 8) : headerZero (assembleTws reg) :=
  BitVec.extractLsb'_append_eq_left

/-- Settles O7: the ten address cells are the bits of `ADDR`, of which REG sets the last eight. -/
theorem twsAddressIsZeroHeaderThenReg : Obligations.TwsAddressIsZeroHeaderThenReg := by
  intro reg dir data
  have hcell {k : Nat} (hk : k < 10) : (frame (variantRecord .tws) dir (assembleTws reg) data)[12 + k]? =
      some (.drive (reg.getLsbD (9 - k))) := by
    rw [getElem?_twsFrame_addr _ _ _ hk, getLsbD_assembleTws]
  refine ⟨headerZero_assembleTws reg, BitVec.extractLsb'_append_eq_right, ?_,
    fun k hk => getElem?_twsFrame_addr _ _ _ hk, fun k hk => ?_, fun k hk => ?_⟩
  · apply BitVec.eq_of_getLsbD_eq
    intro i hi
    rw [getLsbD_assembleTws, BitVec.getLsbD_setWidth]
    simp [hi]
  · rw [hcell (by omega), BitVec.getLsbD_of_ge reg _ (by omega)]
  · rw [show 14 + k = 12 + (2 + k) by omega, hcell (by omega), show 9 - (2 + k) = 7 - k by omega]

/-! ### The phases -/

/-- The parts of a frame of `P` preamble cells, each an interval (10_state.md R29). -/
theorem phase_boundaries (V : VariantRecord) (c : Nat) :
    (c < V.preLen → phase V c = .pre) ∧
    (V.preLen ≤ c ∧ c < V.preLen + 2 → phase V c = .st) ∧
    (V.preLen + 2 ≤ c ∧ c < V.preLen + 4 → phase V c = .op) ∧
    (V.preLen + 4 ≤ c ∧ c < V.preLen + 14 → phase V c = .addr) ∧
    (V.preLen + 14 ≤ c ∧ c < V.preLen + 16 → phase V c = .ta) ∧
    (V.preLen + 16 ≤ c ∧ c < V.preLen + 32 → phase V c = .data) ∧
    (c = V.preLen + 32 → phase V c = .fin) := by
  unfold phase
  split_ifs <;> simp <;> omega

/-- Settles O8: `phase_boundaries` at 32 and at 8 preamble cells. -/
theorem phaseBoundaries : Obligations.PhaseBoundaries :=
  ⟨phase_boundaries (variantRecord .mdio), phase_boundaries (variantRecord .tws), rfl, rfl⟩

end Sys2Proof.Machine
end

section
/-! The data line and the cell primitives one by one (10_state.md R23; 40_bus_primitives.md R81 to R87): what the
equations of each say from the clock low. -/

namespace Sys2Proof.Machine

theorem engine_clk_low {e : Engine} (h : e.clk = false) : { e with clk := false } = e := by
  rw [← h]

/-- Only a sample looks at what the targets drive (decision D3). -/
theorem perform_drive_irrelevant (V : VariantRecord) (d d' : Drive) {a : CellAction} (h : a ≠ .recv) (b : Bus) :
    b.perform V d a = b.perform V d' a := by
  cases a with
  | recv => exact absurd rfl h
  | _ => rfl

theorem line_driving {V : VariantRecord} {t : Drive} {b : Bus} (hs : b.stuck = none) (ho : b.eng.datOe = true) :
    b.line V t = (match t with
      | .off => b.eng.datO
      | .level l => if l = b.eng.datO then b.eng.datO else b.anyLevel V
      | .clash => b.anyLevel V) := by
  unfold Bus.line
  rw [hs]
  cases t <;> simp [ho]

/-- Settles O10: `line_driving` where the pin is an output, `line_released` where it is an input. -/
theorem lineLevelByCases : Obligations.LineLevelByCases := by
  refine ⟨fun v b a d d' ha => perform_drive_irrelevant _ d d' ha b, fun v b l hs => ⟨fun ho => ?_, fun ho => ?_⟩⟩
  · refine ⟨line_driving hs ho, fun hl => ?_, fun hl => ?_⟩
    · rw [line_driving hs ho]; exact if_pos hl
    · rw [line_driving hs ho]; simp [hl, Bus.anyLevel]
  · refine ⟨?_, fun hp => ?_, fun hp => ?_⟩
    · rw [line_released ho, hs]; rfl
    · rw [line_released ho, hs, hp]; rfl
    · rw [line_released ho, hs, hp]; simp [Bus.anyLevel]

/-- Settles O11: the equations of the two cells, the clock low before and after. -/
theorem sendBitAndReleaseBit : Obligations.SendBitAndReleaseBit := by
  intro v b l hclk
  refine ⟨fun _ => ?_, fun _ => ?_⟩
  · simp only [sendBit_eq, sendEvents, pulseEvents, hclk]
  · simp only [releaseBit_eq, pulseEvents, hclk]

/-- Settles O12: the level a cell samples is that of the line once the pin is an input. -/
theorem pulseHeldBitAndRecvBit : Obligations.PulseHeldBitAndRecvBit := by
  intro v b d hclk
  refine ⟨?_, fun _ => ?_, _, rfl, ?_⟩
  · rw [pulse_eq, engine_clk_low hclk]; rfl
  · simp only [heldBit_eq, pulseEvents, hclk]
  · rw [recvBit_eq, line_toInput, line_released rfl, shiftIn_eq_append]
    simp only [recvEvents, hclk]
    rfl

end Sys2Proof.Machine
end

section
/-! What a step can do (40_bus_primitives.md R88; 70_reset_and_hazards.md R150, R158), said once: a waiting reset, a
cell or the finish of the busy instance, or the host's move; and when the host's move stops. -/

namespace Sys2Proof.Machine

/-! ### The step by cases -/

theorem step_idle {s : State} (hr : s.resetIn = false) (hb : ∀ w, (s.bus w).eng.busy = false) :
    step s = s.hostMove := by
  have h1 := hb .mdio
  have h2 := hb .tws
  simp at h1 h2
  simp [step, hr, h1, h2]

theorem sequencer_cell {pp : PhyParams} {v : Variant} {s : State}
    (h : (s.bus v).eng.idx.toNat < (variantRecord v).nCells) : s.sequencer pp v = .next (s.cell pp v) :=
  if_pos h

theorem sequencer_finish {pp : PhyParams} {v : Variant} {s : State}
    (h : (s.bus v).eng.idx.toNat = (variantRecord v).nCells) : s.sequencer pp v = .next (s.finish v) := by
  rw [State.sequencer, if_neg (by omega), if_pos h]

theorem sequencer_next {pp : PhyParams} {v : Variant} {s t : State} (h : s.sequencer pp v = .next t) :
    ((s.bus v).eng.idx.toNat < (variantRecord v).nCells ∧ t = s.cell pp v) ∨
      ((s.bus v).eng.idx.toNat = (variantRecord v).nCells ∧ t = s.finish v) := by
  unfold State.sequencer at h
  split at h
  · cases h; exact .inl ⟨‹_›, rfl⟩
  · split at h <;> cases h
    exact .inr ⟨‹_›, rfl⟩

/-- Either one instance alone is busy, or both are, or neither is. -/
theorem busy_cases (s : State) :
    (∃ v, (s.bus v).eng.busy = true ∧ ∀ w, w ≠ v → (s.bus w).eng.busy = false) ∨
      (s.mdio.eng.busy = true ∧ s.tws.eng.busy = true) ∨ ∀ w, (s.bus w).eng.busy = false := by
  cases hm : s.mdio.eng.busy <;> cases ht : s.tws.eng.busy
  · exact .inr (.inr fun w => by cases w <;> assumption)
  · exact .inl ⟨.tws, ht, fun w hw => by cases w <;> simp_all⟩
  · exact .inl ⟨.mdio, hm, fun w hw => by cases w <;> simp_all⟩
  · exact .inr (.inl ⟨rfl, rfl⟩)

/-- All that a step can do. -/
theorem step_next_cases {s t : State} (h : step s = .next t) :
    (s.resetIn = true ∧ t = s.applyReset Config.phyParams) ∨
    (∃ v, (s.bus v).eng.busy = true ∧ (∀ w, w ≠ v → (s.bus w).eng.busy = false) ∧
      (((s.bus v).eng.idx.toNat < (variantRecord v).nCells ∧ t = s.cell Config.phyParams v) ∨
        ((s.bus v).eng.idx.toNat = (variantRecord v).nCells ∧ t = s.finish v))) ∨
    ((∀ w, (s.bus w).eng.busy = false) ∧ s.hostMove = .next t) := by
  cases hr : s.resetIn
  · obtain ⟨v, hb, hothers⟩ | ⟨hm, ht⟩ | hb := busy_cases s
    · rw [step_busy hr hb hothers] at h
      exact .inr (.inl ⟨v, hb, hothers, sequencer_next h⟩)
    · simp [step, hr, hm, ht] at h
    · rw [step_idle hr hb] at h
      exact .inr (.inr ⟨hb, h⟩)
  · rw [step, if_pos hr] at h
    cases h
    exact .inl ⟨rfl, rfl⟩

theorem hostMove_next_cases {s t : State} (h : s.hostMove = .next t) :
    (∃ a rest, s.todo = a :: rest ∧ State.hostAction a { s with todo := rest } = .next t) ∨
    (s.todo = [] ∧ ∃ l rest, s.program = l :: rest ∧ State.hostLine l { s with program := rest } = .next t) ∨
    t = s := by
  unfold State.hostMove at h
  split at h
  · exact .inl ⟨_, _, ‹_›, h⟩
  · split at h
    · exact .inr (.inl ⟨‹_›, _, _, ‹_›, h⟩)
    · cases h; exact .inr (.inr rfl)

theorem withDecoded_next {c : CodedOp} {s t : State} {act : Instr → State → Host.Outcome State Fault Refusal}
    (h : s.withDecoded c act = .next t) : ∃ i, act i s = .next t := by
  unfold State.withDecoded at h
  split at h
  · cases h
  · split at h
    · exact ⟨_, h⟩
    · cases h

theorem readRdata_next {v : Variant} {s t : State} (h : s.readRdata v = .next t) :
    t = { s with portReads := s.portReads ++ [(v, (s.bus v).eng.rdata)] } := by
  unfold State.readRdata at h
  split at h
  · cases h
  · split at h <;> cases h
    rfl

theorem hostLine_next_cases {l : HostLine} {s t : State} (h : State.hostLine l s = .next t) :
    (∃ i, exec i s = .next t) ∨ (∃ i, State.request i s = .next t) ∨ ∃ reads, t = { s with portReads := reads } := by
  cases l with
  | op c => exact .inl (withDecoded_next h)
  | request c => exact .inr (.inl (withDecoded_next h))
  | delay us => cases h; exact .inr (.inr ⟨_, rfl⟩)
  | readRdata v => exact .inr (.inr ⟨_, readRdata_next h⟩)

/-! ### Presenting an operation -/

/-- Performed or requested, an operation is a bus operation, on TWS with a zero header, or a composite. -/
theorem exec_request_cases (i : Instr) :
    (∃ dir addr wdata, (instrBus i = .tws → headerZero addr) ∧
      (∀ s, exec i s = s.performBusOp Config.phyParams (instrBus i) dir addr wdata) ∧
      ∀ s, State.request i s = s.requestBusOp (instrBus i) dir addr wdata) ∨
    (∃ dir preg data, instrBus i = Config.phyParams.port.bus ∧
      (∀ s, exec i s = s.performComposite Config.phyParams dir preg data) ∧
      ∀ s, State.request i s = s.requestComposite Config.phyParams dir preg data) := by
  cases i with
  | mdioWr phyad regad data => exact .inl ⟨.wr, assembleMdio phyad regad, data, nofun, fun _ => rfl, fun _ => rfl⟩
  | mdioRd phyad regad => exact .inl ⟨.rd, assembleMdio phyad regad, 0, nofun, fun _ => rfl, fun _ => rfl⟩
  | twsWr reg data =>
    exact .inl ⟨.wr, assembleTws reg, data, fun _ => headerZero_assembleTws reg, fun _ => rfl, fun _ => rfl⟩
  | twsRd reg => exact .inl ⟨.rd, assembleTws reg, 0, fun _ => headerZero_assembleTws reg, fun _ => rfl, fun _ => rfl⟩
  | phyWr preg data => exact .inr ⟨.wr, preg, data, rfl, fun _ => rfl, fun _ => rfl⟩
  | phyRd preg => exact .inr ⟨.rd, preg, 0, rfl, fun _ => rfl, fun _ => rfl⟩

@[simp] theorem bus_withTodo (v : Variant) (s : State) (todo : List HostAction) :
    ({ s with todo := todo } : State).bus v = s.bus v := by
  cases v <;> rfl

theorem whenIdle_busy {v : Variant} {s : State} {act : State → State} (h : s.mayRequest = false) :
    s.whenIdle v act = .fault .requestWhileBusy := by
  simp [State.whenIdle, h]

theorem whenIdle_pinsNotIdle {v : Variant} {s : State} {act : State → State} (h : s.mayRequest = true)
    (hp : (s.bus v).pinsIdle = false) : s.whenIdle v act = .refused .bootRequirementNotMet := by
  simp [State.whenIdle, h, hp]

theorem start_ready {v : Variant} {s : State} (h : (s.bus v).pinsIdle = true) (dir : Dir) (addr : Addr)
    (wdata : RegWord) :
    s.start v dir addr wdata = .next (s.setBus v ((s.bus v).startStep (variantRecord v) dir addr wdata)) :=
  if_pos h

theorem start_pinsNotIdle {v : Variant} {s : State} (h : (s.bus v).pinsIdle = false) (dir : Dir) (addr : Addr)
    (wdata : RegWord) : s.start v dir addr wdata = .refused .bootRequirementNotMet :=
  if_neg (by simp [h])

theorem start_next {v : Variant} {s t : State} {dir : Dir} {addr : Addr} {wdata : RegWord}
    (h : s.start v dir addr wdata = .next t) :
    t = s.setBus v ((s.bus v).startStep (variantRecord v) dir addr wdata) := by
  unfold State.start at h
  split at h <;> cases h
  rfl

theorem mayRequest_todo {s : State} (h : s.mayRequest = true) : s.todo = [] := by
  simp only [State.mayRequest, Bool.and_eq_true, List.isEmpty_iff] at h
  exact h.2

theorem mayRequest_eq_false_iff {s : State} :
    s.mayRequest = false ↔ s.mdio.eng.busy = true ∨ s.tws.eng.busy = true ∨ s.todo ≠ [] := by
  rw [← Bool.not_eq_true]
  simp only [State.mayRequest, Bool.and_eq_true, Bool.not_eq_true', List.isEmpty_iff, not_and_or, Bool.not_eq_false,
    or_assoc, ne_eq]

theorem exec_request_busy (i : Instr) {s : State} (h : s.mayRequest = false) :
    exec i s = .fault .requestWhileBusy ∧ State.request i s = .fault .requestWhileBusy := by
  obtain ⟨dir, addr, wdata, -, hexec, hrequest⟩ | ⟨dir, preg, data, -, hexec, hrequest⟩ := exec_request_cases i
  · rw [hexec, hrequest]
    exact ⟨whenIdle_busy h, if_neg (by simp [h])⟩
  · rw [hexec, hrequest]
    exact ⟨whenIdle_busy h, if_neg (by simp [h])⟩

theorem exec_request_pinsNotIdle (i : Instr) {s : State} (h : s.mayRequest = true)
    (hp : (s.bus (instrBus i)).pinsIdle = false) :
    exec i s = .refused .bootRequirementNotMet ∧ State.request i s = .refused .bootRequirementNotMet := by
  obtain ⟨dir, addr, wdata, -, hexec, hrequest⟩ | ⟨dir, preg, data, hbus, hexec, hrequest⟩ := exec_request_cases i
  · rw [hexec, hrequest]
    exact ⟨whenIdle_pinsNotIdle h hp, (if_pos h).trans (start_pinsNotIdle hp _ _ _)⟩
  · rw [hbus] at hp
    rw [hexec, hrequest]
    exact ⟨whenIdle_pinsNotIdle h hp, (if_pos h).trans (start_pinsNotIdle (by rwa [bus_withTodo]) _ _ _)⟩

/-- Settles O55: every operation presents itself to its instance, or to `PHY_BUS`, in the same way. -/
theorem operationNotReadyStops : Obligations.OperationNotReadyStops :=
  fun i _ => ⟨fun h => exec_request_busy i (mayRequest_eq_false_iff.2 h), exec_request_pinsNotIdle i⟩

theorem withDecoded_ok {c : CodedOp} {i : Instr} (hc : decode c = .ok i) (hw : wellFormed i = true) (s : State)
    (act : Instr → State → Host.Outcome State Fault Refusal) : s.withDecoded c act = act i s := by
  simp [State.withDecoded, hc, hw]

/-- Settles O53: the line next is taken off, decoded and performed. -/
theorem stepRunsTheDecodedOperation : Obligations.StepRunsTheDecodedOperation := by
  intro s c rest i hr hm hp hc hw
  rw [step_line hr hm hp, State.hostLine, withDecoded_ok hc hw]

/-- Settles O54: both kinds of line decode before they act. -/
theorem stepRefusesWhatCannotBePresented : Obligations.StepRefusesWhatCannotBePresented := by
  intro s c rest hr hm hp
  have hstep : ∃ act, step s = State.withDecoded c { s with program := rest } act := by
    obtain hp | hp := hp
    · exact ⟨exec, step_line hr hm hp⟩
    · exact ⟨State.request, step_line hr hm hp⟩
  obtain ⟨act, hstep⟩ := hstep
  rw [hstep]
  refine ⟨fun e hc => ?_, fun i hc hw => ?_⟩
  · simp [State.withDecoded, hc]
  · simp [State.withDecoded, hc, hw]

/-- Settles O56, by the two tests of `State.readRdata`. -/
theorem hostReadsRdata : Obligations.HostReadsRdata := by
  intro v s
  unfold State.readRdata
  refine ⟨fun hb => ?_, fun hb hv => ?_, fun hb hv => ?_⟩
  · rw [if_pos hb]
  · simp [hb, hv]
  · simp [hb, hv]

/-- Settles O57: `step_line` for each kind of line. -/
theorem stepPerformsTheOtherLines : Obligations.StepPerformsTheOtherLines := by
  intro s rest hr hm
  refine ⟨fun c i hp hc hw => ?_, fun us hp => step_line hr hm hp, fun v hp => step_line hr hm hp⟩
  rw [step_line hr hm hp, State.hostLine, withDecoded_ok hc hw]

/-! ### The start step -/

/-- From the idle pins the start step moves no pin. -/
theorem startStep_pinsIdle {b : Bus} (h : b.pinsIdle = true) (V : VariantRecord) (dir : Dir) (addr : Addr)
    (wdata : RegWord) :
    b.startStep V dir addr wdata =
      { b with
        eng := b.eng.accept dir addr wdata
        trace := b.trace ++ [.setDirOut, .setDat true, .delay V.tSetup] } := by
  obtain ⟨-, hoe, ho⟩ := pinsIdle_iff.1 h
  rw [startStep_eq]
  simp only [Engine.accept, hoe, ho]

theorem not_busRead_of_busWrite {i : Instr} {v : Variant} {addr : Addr} {data : RegWord} (h : IsBusWrite i v addr data)
    (v' : Variant) (addr' : Addr) : ¬ IsBusRead i v' addr' := by
  rcases h with ⟨_, _, rfl, _⟩ | ⟨_, rfl, _⟩ <;> rintro (⟨_, _, h, _⟩ | ⟨_, h, _⟩) <;> cases h

/-- Settles O13: from the idle pins the start step writes registers and trace, and a busy instance takes no request. -/
theorem requestIsTheStartStep : Obligations.RequestIsTheStartStep := by
  intro i v addr data s hi
  refine ⟨fun hready => ?_, fun hb => (exec_request_busy i ?_).2⟩
  · have hpins := hready.2
    obtain ⟨-, hoe, ho⟩ := pinsIdle_iff.1 hpins
    rcases hi with hw | hrd
    · refine ⟨_, (request_busWrite hw s).trans (requestBusOp_ready hready _ _ _), ?_⟩
      rw [bus_setBus, startStep_pinsIdle hpins]
      exact ⟨rfl, rfl, rfl, fun _ => rfl, fun h => absurd h (not_busRead_of_busWrite hw _ _), hoe, ho⟩
    · refine ⟨_, (request_busRead hrd s).trans (requestBusOp_ready hready _ _ _), ?_⟩
      rw [bus_setBus, startStep_pinsIdle hpins]
      exact ⟨rfl, rfl, rfl, fun h => absurd hrd (not_busRead_of_busWrite h _ _), fun _ => rfl, hoe, ho⟩
  · rw [← Bool.not_eq_true]
    intro hm
    simp [mayRequest_idle hm v] at hb

/-! ### The finish step and the cells -/

theorem finish_returned (v : Variant) (s : State) :
    (s.finish v).returned =
      s.returned ++ (if (s.bus v).eng.dir = .rd then [(v, (s.bus v).finishStep.eng.rdata)] else []) := by
  unfold State.finish
  cases (s.bus v).eng.dir <;> simp

theorem finish_bus_of_ne {v w : Variant} (h : w ≠ v) (s : State) : (s.finish v).bus w = s.bus w := by
  have hset := bus_setBus_of_ne h (s.bus v).finishStep s
  unfold State.finish
  cases (s.bus v).eng.dir
  · cases w <;> exact hset
  · exact hset

theorem finish_todo (v : Variant) (s : State) : (s.finish v).todo = s.todo := by
  unfold State.finish
  cases (s.bus v).eng.dir <;> simp

/-- Settles O15. -/
theorem finishStepReturnsToIdle : Obligations.FinishStepReturnsToIdle := by
  intro v s hr hb hothers hidx
  refine ⟨s.finish v, (step_busy hr hb hothers).trans (sequencer_finish hidx), ?_⟩
  rw [finish_returned, finish_bus, finishStep_eq]
  refine ⟨by simp, rfl, rfl, rfl, rfl, rfl, rfl, rfl, rfl, rfl, rfl, fun w hw => finish_bus_of_ne hw s, rfl,
    fun hclk => ?_⟩
  rw [pinsIdle_iff]
  exact ⟨hclk, rfl, rfl⟩

/-- Settles O16: the sequencer by `IDX`, and the host's move where nothing is busy. -/
theorem sequencerTakesTheOneEnabledStep : Obligations.SequencerTakesTheOneEnabledStep := by
  refine ⟨fun v s hr hb hothers => ⟨fun hlt => ⟨?_, ?_, ?_⟩, fun hidx => ?_⟩, fun s hr hm ht htodo => ?_⟩
  · rw [step_busy hr hb hothers, sequencer_cell hlt, State.cell]
  · obtain ⟨-, -, -, hidx, -⟩ := cellStep_keeps (variantRecord v) Config.phyParams (s.bus v)
    exact hidx
  · exact ⟨_, _, _, rfl⟩
  · exact ⟨_, (step_busy hr hb hothers).trans (sequencer_finish hidx), finish_bus v s⟩
  · have hmay : s.mayRequest = true := by simp [State.mayRequest, hm, ht, htodo]
    have hidle := step_idle hr (mayRequest_idle hmay)
    refine ⟨fun hp => by rw [hidle]; simp [State.hostMove, htodo, hp], fun l rest hp hl t h => ?_,
      fun us rest hp => step_line hr hmay hp⟩
    rw [step_line hr hmay hp] at h
    cases l with
    | op c => cases hl
    | request c => cases hl
    | delay us => cases h; exact ⟨rfl, rfl⟩
    | readRdata v => rw [readRdata_next h]; exact ⟨rfl, rfl⟩

/-- Settles O49: neither a cell nor the finish writes an operand register. -/
theorem operandsAreConstantWhileBusy : Obligations.OperandsAreConstantWhileBusy := by
  intro v s t hr hb h
  obtain rfl | rfl := step_from_busy hr hb h
  · obtain ⟨hdir, haddr, hwdata, -⟩ := cellStep_keeps (variantRecord v) Config.phyParams (s.bus v)
    rw [State.cell, bus_setBus]
    exact ⟨hdir, haddr, hwdata⟩
  · rw [finish_bus, finishStep_eq]
    exact ⟨rfl, rfl, rfl⟩

theorem cellAction_eq_recv {V : VariantRecord} {dir : Dir} {addr : Addr} {wdata : RegWord} {c : Nat}
    (h : cellAction V dir addr wdata c = .recv) : dir = .rd ∧ phase V c = .data := by
  unfold cellAction at h
  cases hp : phase V c <;> rw [hp] at h
  case data =>
    cases dir with
    | rd => exact ⟨rfl, rfl⟩
    | wr => cases h
  case ta =>
    cases dir with
    | rd => simp only at h; split at h <;> cases h
    | wr => cases h
  all_goals cases h

/-- Only a receive cell writes `RDATA`. -/
theorem cellStep_rdata (V : VariantRecord) (pp : PhyParams) (b : Bus) :
    (b.cellStep V pp).eng.rdata = b.eng.rdata ∨
      (cellAction V b.eng.dir b.eng.addr b.eng.wdata b.eng.idx.toNat = .recv ∧
        ∃ l, (b.cellStep V pp).eng.rdata = shiftIn b.eng.rdata l) := by
  unfold Bus.cellStep
  cases cellAction V b.eng.dir b.eng.addr b.eng.wdata b.eng.idx.toNat with
  | recv => exact .inr ⟨rfl, _, by simp [Bus.perform, recvBit_eq]; rfl⟩
  | _ => left; simp [Bus.perform, pulse_eq, sendBit_eq, heldBit_eq, releaseBit_eq]

/-- Settles O50: only a receive cell writes `RDATA`, and only a read's data cells are receive cells. -/
theorem rdataIsWrittenOnlyInReadDataCells : Obligations.RdataIsWrittenOnlyInReadDataCells := by
  intro v s t hr hb h hne
  obtain rfl | rfl := step_from_busy hr hb h
  · rw [State.cell, bus_setBus] at hne ⊢
    obtain hsame | ⟨hrecv, hshift⟩ := cellStep_rdata (variantRecord v) Config.phyParams (s.bus v)
    · exact absurd hsame hne
    · obtain ⟨hdir, hphase⟩ := cellAction_eq_recv hrecv
      exact ⟨hdir, hphase, hshift⟩
  · rw [finish_bus, finishStep_eq] at hne
    exact absurd rfl hne

end Sys2Proof.Machine
end

section
/-! The invariant (`State.Inv`): what each part of a step does to the invariant of one instance, and from that, that
every step keeps it and that nothing in progress stops. -/

namespace Sys2Proof.Machine

/-! ### One instance at rest -/

theorem inv_of_idle {v : Variant} {b : Bus} (hwf : b.env.wf = true) (hp : b.pinsIdle = true) (hb : b.eng.busy = false)
    (hi : b.eng.idx = 0) : b.Inv v := by
  obtain ⟨hclk, hoe, ho⟩ := pinsIdle_iff.1 hp
  refine ⟨hwf, hclk, by simp [hi], fun _ => ⟨hoe, ho, hi⟩, fun h => ?_⟩
  simp [hb] at h

/-- While idle the pins are at the idle levels. -/
theorem pinsIdle_of_inv {v : Variant} {b : Bus} (h : b.Inv v) (hb : b.eng.busy = false) : b.pinsIdle = true := by
  obtain ⟨-, hclk, -, hidle, -⟩ := h
  obtain ⟨hoe, ho, -⟩ := hidle hb
  exact pinsIdle_iff.2 ⟨hclk, hoe, ho⟩

theorem inv_applyReset {v : Variant} {b : Bus} (pp : PhyParams) (h : b.Inv v) :
    (b.applyReset (variantRecord v) pp).Inv v := by
  obtain ⟨hwf, -⟩ := h
  refine inv_of_idle ?_ rfl rfl rfl
  show (b.cutShort (variantRecord v) pp).env.wf = true
  unfold Bus.cutShort
  split
  · exact wf_cut hwf
  · exact hwf

theorem inv_delay {v : Variant} {b : Bus} (t : Nat) (h : b.Inv v) : (b.delay t).Inv v := h

theorem inv_afterWrite {v : Variant} {b : Bus} (pp : PhyParams) (addr : Addr) (data : RegWord) (h : b.Inv v)
    (hp : b.pinsIdle = true) : (b.afterWrite v pp addr data).Inv v := by
  obtain ⟨hwf, -⟩ := h
  exact inv_of_idle (wf_commit hwf) (afterWrite_pinsIdle hp) rfl rfl

theorem inv_afterRead {v : Variant} {b : Bus} (addr : Addr) (heard : Heard) (h : b.Inv v) (hp : b.pinsIdle = true) :
    (b.afterRead v addr heard).Inv v := by
  obtain ⟨hwf, -⟩ := h
  exact inv_of_idle hwf hp rfl rfl

/-! ### One instance in a frame -/

theorem inv_startStep {v : Variant} {b : Bus} (dir : Dir) (addr : Addr) (wdata : RegWord) (h : b.Inv v)
    (hp : b.pinsIdle = true) : (b.startStep (variantRecord v) dir addr wdata).Inv v := by
  obtain ⟨hwf, hclk, -⟩ := h
  obtain ⟨-, hoe, ho⟩ := pinsIdle_iff.1 hp
  rw [startStep_pinsIdle hp]
  refine ⟨hwf, hclk, Nat.zero_le _, nofun, fun _ => ⟨hoe.trans ?_, fun _ => ho⟩⟩
  cases dir <;> simp [Engine.accept, outputBefore]

/-- The direction of the data pin after a cell action. -/
def CellAction.outputAfter (a : CellAction) (before : Bool) : Bool :=
  match a with
  | .pulse => before
  | .send _ => before
  | .release => false
  | .hold => true
  | .recv => false
  | .nothing => before

theorem perform_datOe (V : VariantRecord) (t : Drive) (a : CellAction) (b : Bus) :
    (b.perform V t a).eng.datOe = a.outputAfter b.eng.datOe := by
  cases a <;> simp [Bus.perform, CellAction.outputAfter, pulse_eq, sendBit_eq, heldBit_eq, releaseBit_eq, recvBit_eq]

theorem cellStep_datOe (V : VariantRecord) (pp : PhyParams) (b : Bus) :
    (b.cellStep V pp).eng.datOe =
      (cellAction V b.eng.dir b.eng.addr b.eng.wdata b.eng.idx.toNat).outputAfter b.eng.datOe :=
  perform_datOe _ _ _ _

theorem outputAfter_driven {a : CellAction} (h : a.driven = true) (before : Bool) : a.outputAfter before = before := by
  cases a <;> simp_all [CellAction.outputAfter, CellAction.driven]

/-- The action of a cell takes the pin from the direction before it to that before the next cell. -/
theorem outputBefore_succ (V : VariantRecord) (dir : Dir) (addr : Addr) (wdata : RegWord) {k : Nat}
    (hk : k < V.preLen + 32) :
    outputBefore V dir (k + 1) = (cellAction V dir addr wdata k).outputAfter (outputBefore V dir k) := by
  cases dir with
  | wr => rw [outputAfter_driven (driven_write V addr wdata hk).1]; rfl
  | rd =>
    obtain ⟨hrelease, hheld⟩ := cellAction_readTurnaround V addr wdata
    by_cases h14 : k < V.preLen + 14
    · rw [outputAfter_driven (driven_read V addr wdata h14).1]
      simp [outputBefore, show k ≤ V.preLen + 14 by omega, show k + 1 ≤ V.preLen + 14 by omega]
    by_cases h15 : k = V.preLen + 14
    · subst h15
      simp [hrelease, CellAction.outputAfter, outputBefore]
    by_cases h16 : k = V.preLen + 15
    · subst h16
      simp [hheld, CellAction.outputAfter, outputBefore]
    · obtain ⟨j, rfl⟩ := Nat.exists_eq_add_of_le (show V.preLen + 16 ≤ k by omega)
      rw [cellAction_readData V addr wdata (by omega)]
      simp [CellAction.outputAfter, outputBefore, show ¬ V.preLen + 16 + j + 1 ≤ V.preLen + 14 by omega]
      omega

theorem cellStep_wf {V : VariantRecord} {pp : PhyParams} {b : Bus} (h : b.env.wf = true) :
    (b.cellStep V pp).env.wf = true := by
  simpa [Bus.cellStep] using wf_commit h

/-- A preamble cell leaves the latch alone. -/
theorem cellStep_datO_preamble {V : VariantRecord} {pp : PhyParams} {b : Bus} (h : b.eng.idx.toNat < V.preLen) :
    (b.cellStep V pp).eng.datO = b.eng.datO := by
  simp [Bus.cellStep, cellAction_preamble _ _ _ h, Bus.perform, pulse_eq]

theorem inv_cellStep {v : Variant} {b : Bus} (pp : PhyParams) (h : b.Inv v) (hb : b.eng.busy = true)
    (hlt : b.eng.idx.toNat < (variantRecord v).nCells) : (b.cellStep (variantRecord v) pp).Inv v := by
  obtain ⟨hwf, hclk, -, -, hbusy⟩ := h
  obtain ⟨hoe, ho⟩ := hbusy hb
  obtain ⟨hdir, -, -, -, hb', -, hclk', -⟩ := cellStep_keeps (variantRecord v) pp b
  have hidx := cellStep_idx v pp b hlt
  refine ⟨cellStep_wf hwf, hclk' hclk, by omega, fun h => ?_, fun _ => ⟨?_, fun hpre => ?_⟩⟩
  · simp [hb', hb] at h
  · rw [cellStep_datOe, hoe, hdir, hidx, ← outputBefore_succ _ _ _ _ (nCells_eq v ▸ hlt)]
  · rw [cellStep_datO_preamble (by omega), ho (by omega)]

theorem inv_finishStep {v : Variant} {b : Bus} (h : b.Inv v) : b.finishStep.Inv v := by
  obtain ⟨hwf, hclk, -⟩ := h
  rw [finishStep_eq]
  exact inv_of_idle hwf (pinsIdle_iff.2 ⟨hclk, rfl, rfl⟩) rfl rfl

/-! ### The whole machine -/

/-- The invariant speaks of the two instances and of what is left of a composite. -/
theorem inv_congr {s t : State} (h : s.Inv) (hbus : ∀ v, t.bus v = s.bus v) (htodo : ∀ a ∈ t.todo, a.Inv) : t.Inv := by
  obtain ⟨hm, ht, hone, hhead, -⟩ := h
  have hm' := hbus .mdio
  have ht' := hbus .tws
  simp only [bus_mdio, bus_tws] at hm' ht'
  rw [← hm', ← ht'] at hone
  rw [← hm'] at hm
  rw [← ht'] at ht hhead
  exact ⟨hm, ht, hone, hhead, htodo⟩

theorem inv_bus {s : State} (h : s.Inv) (v : Variant) : (s.bus v).Inv v := by
  obtain ⟨hm, ht, -⟩ := h
  cases v
  · exact hm
  · exact ht

theorem inv_todo {s : State} (h : s.Inv) : ∀ a ∈ s.todo, a.Inv := by
  obtain ⟨-, -, -, -, htodo⟩ := h
  exact htodo

theorem inv_header {s : State} (h : s.Inv) {v : Variant} (hv : v = .tws) : headerZero (s.bus v).eng.addr := by
  obtain ⟨-, -, -, hhead, -⟩ := h
  subst hv
  exact hhead

/-- One instance replaced by one that meets the invariant. -/
theorem inv_setBus {s : State} {v : Variant} {b : Bus} (h : s.Inv) (hb : b.Inv v)
    (hbusy : b.eng.busy = true → ∀ w, w ≠ v → (s.bus w).eng.busy = false)
    (hhead : v = .tws → headerZero b.eng.addr) : (s.setBus v b).Inv := by
  obtain ⟨hm, ht, -, hhead', htodo⟩ := h
  cases v
  · refine ⟨hb, ht, fun ⟨h1, h2⟩ => ?_, hhead', htodo⟩
    have := hbusy h1 .tws (by decide)
    simp_all
  · refine ⟨hm, hb, fun ⟨h1, h2⟩ => ?_, hhead rfl, htodo⟩
    have := hbusy h2 .mdio (by decide)
    simp_all

/-- Where nothing is busy, one instance replaced by one that is idle. -/
theorem inv_idle_setBus {s : State} {v : Variant} {b : Bus} (h : s.Inv) (hidle : ∀ w, (s.bus w).eng.busy = false)
    (hb : b.Inv v) (hb' : b.eng.busy = false) (hhead : v = .tws → headerZero b.eng.addr) :
    (s.setBus v b).Inv ∧ ∀ w, ((s.setBus v b).bus w).eng.busy = false := by
  refine ⟨inv_setBus h hb (fun h => by simp [hb'] at h) hhead, fun w => ?_⟩
  by_cases hw : w = v
  · subst hw; rwa [bus_setBus]
  · rw [bus_setBus_of_ne hw]; exact hidle w

theorem inv_busOp {s : State} (pp : PhyParams) {v : Variant} (dir : Dir) {addr : Addr} (wdata : RegWord) (h : s.Inv)
    (hidle : ∀ w, (s.bus w).eng.busy = false) (hhead : v = .tws → headerZero addr) :
    (s.busOp pp v dir addr wdata).Inv ∧ ∀ w, ((s.busOp pp v dir addr wdata).bus w).eng.busy = false := by
  have hinv := inv_bus h v
  have hp := pinsIdle_of_inv hinv (hidle v)
  cases dir with
  | wr =>
    rw [busOp_write pp v addr wdata s hp]
    exact inv_idle_setBus h hidle (inv_afterWrite pp addr wdata hinv hp) rfl hhead
  | rd =>
    obtain ⟨heard, -, hread⟩ := busOp_read pp v addr wdata s hp
    obtain ⟨hset, hbusy⟩ := inv_idle_setBus h hidle (inv_afterRead addr heard hinv hp) rfl hhead
    have hbus : ∀ w, (s.afterRead v addr heard).bus w = (s.setBus v ((s.bus v).afterRead v addr heard)).bus w := by
      intro w; cases w <;> rfl
    rw [hread]
    exact ⟨inv_congr hset hbus (inv_todo hset), fun w => by rw [hbus]; exact hbusy w⟩

theorem inv_settle {s : State} (v : Variant) (h : s.Inv) (hidle : ∀ w, (s.bus w).eng.busy = false) :
    (s.settle v).Inv ∧ ∀ w, ((s.settle v).bus w).eng.busy = false :=
  inv_idle_setBus h hidle (inv_delay _ (inv_bus h v)) (hidle v) fun hv => inv_header h hv

theorem headerZero_cmdAddr {p : PhyPort} (h : p.bus = .tws) : headerZero p.cmdAddr := by
  cases p with
  | mdio => cases h
  | tws c d => exact headerZero_assembleTws c

theorem headerZero_dataAddr {p : PhyPort} (h : p.bus = .tws) : headerZero p.dataAddr := by
  cases p with
  | mdio => cases h
  | tws c d => exact headerZero_assembleTws d

theorem inv_compositeOp {s : State} (pp : PhyParams) (dir : Dir) (preg : Nat) (data : RegWord) (h : s.Inv)
    (hidle : ∀ w, (s.bus w).eng.busy = false) : (s.compositeOp pp dir preg data).Inv := by
  obtain ⟨h1, hidle1⟩ := inv_busOp pp .wr (pp.cmdWord dir preg) h hidle headerZero_cmdAddr
  obtain ⟨h2, hidle2⟩ := inv_settle pp.port.bus h1 hidle1
  obtain ⟨h3, hidle3⟩ := inv_busOp pp dir data h2 hidle2 headerZero_dataAddr
  exact (inv_settle pp.port.bus h3 hidle3).1

theorem inv_exec {i : Instr} {s t : State} (h : s.Inv) (he : exec i s = .next t) : t.Inv := by
  obtain ⟨dir, addr, wdata, hhead, hexec, -⟩ | ⟨dir, preg, data, -, hexec, -⟩ := exec_request_cases i
  · rw [hexec] at he
    obtain ⟨hm, -, rfl⟩ := whenIdle_next he
    exact (inv_busOp _ dir wdata h (mayRequest_idle hm) hhead).1
  · rw [hexec] at he
    obtain ⟨hm, -, rfl⟩ := whenIdle_next he
    exact inv_compositeOp _ dir preg data h (mayRequest_idle hm)

/-- Where nothing is busy, the start step of a bus operation. -/
theorem inv_start {s t : State} {v : Variant} {dir : Dir} {addr : Addr} {wdata : RegWord} (h : s.Inv)
    (hidle : ∀ w, (s.bus w).eng.busy = false) (hhead : v = .tws → headerZero addr)
    (ht : s.start v dir addr wdata = .next t) : t.Inv := by
  have hinv := inv_bus h v
  have hp := pinsIdle_of_inv hinv (hidle v)
  rw [start_next ht]
  refine inv_setBus h (inv_startStep dir addr wdata hinv hp) (fun _ w _ => hidle w) ?_
  rw [startStep_eq]
  exact hhead

theorem inv_request {i : Instr} {s t : State} (h : s.Inv) (he : State.request i s = .next t) : t.Inv := by
  have hm : s.mayRequest = true := by
    rw [← Bool.not_eq_false]
    intro hm
    rw [(exec_request_busy i hm).2] at he
    cases he
  obtain ⟨dir, addr, wdata, hhead, -, hrequest⟩ | ⟨dir, preg, data, -, -, hrequest⟩ := exec_request_cases i
  · rw [hrequest, State.requestBusOp, if_pos hm] at he
    exact inv_start h (mayRequest_idle hm) hhead he
  · rw [hrequest, State.requestComposite, if_pos hm] at he
    refine inv_start (inv_congr h (fun v => bus_withTodo v s _) ?_) (fun w => ?_) headerZero_cmdAddr he
    · simpa [HostAction.Inv] using headerZero_dataAddr
    · rw [bus_withTodo]; exact mayRequest_idle hm w

theorem inv_applyReset_state {s : State} (pp : PhyParams) (h : s.Inv) : (s.applyReset pp).Inv :=
  ⟨inv_applyReset pp (inv_bus h .mdio), inv_applyReset pp (inv_bus h .tws), nofun,
    show (0 : Addr).extractLsb' 8 2 = 0b00#2 from rfl, nofun⟩

theorem inv_cell {s : State} {v : Variant} (pp : PhyParams) (h : s.Inv) (hb : (s.bus v).eng.busy = true)
    (hothers : ∀ w, w ≠ v → (s.bus w).eng.busy = false)
    (hlt : (s.bus v).eng.idx.toNat < (variantRecord v).nCells) : (s.cell pp v).Inv := by
  refine inv_setBus h (inv_cellStep pp (inv_bus h v) hb hlt) (fun _ => hothers) fun hv => ?_
  obtain ⟨-, haddr, -⟩ := cellStep_keeps (variantRecord v) pp (s.bus v)
  rw [haddr]
  exact inv_header h hv

theorem inv_finish {s : State} (v : Variant) (h : s.Inv) : (s.finish v).Inv := by
  have hset : (s.setBus v (s.bus v).finishStep).Inv := by
    refine inv_setBus h (inv_finishStep (inv_bus h v)) (fun hb => ?_) fun hv => ?_
    · rw [finishStep_eq] at hb; cases hb
    · rw [finishStep_eq]; exact inv_header h hv
  refine inv_congr hset (fun w => ?_) (by rw [finish_todo]; exact inv_todo h)
  by_cases hw : w = v
  · subst hw; rw [finish_bus, bus_setBus]
  · rw [finish_bus_of_ne hw, bus_setBus_of_ne hw]

theorem inv_hostAction {a : HostAction} {s t : State} (h : s.Inv) (hidle : ∀ w, (s.bus w).eng.busy = false) (ha : a.Inv)
    (ht : State.hostAction a s = .next t) : t.Inv := by
  cases a with
  | settle v => cases ht; exact (inv_settle v h hidle).1
  | present v dir addr wdata => exact inv_start h hidle ha ht

theorem inv_hostMove {s t : State} (h : s.Inv) (hidle : ∀ w, (s.bus w).eng.busy = false) (ht : s.hostMove = .next t) :
    t.Inv := by
  obtain ⟨a, rest, htodo, ht⟩ | ⟨-, l, rest, -, ht⟩ | rfl := hostMove_next_cases ht
  · have hall := inv_todo h
    rw [htodo] at hall
    have hrest : ({ s with todo := rest } : State).Inv :=
      inv_congr h (fun v => bus_withTodo v s rest) fun a ha => hall a (List.mem_cons_of_mem _ ha)
    exact inv_hostAction hrest (fun w => by rw [bus_withTodo]; exact hidle w) (hall a List.mem_cons_self) ht
  · have hrest : ({ s with program := rest } : State).Inv :=
      inv_congr h (fun v => bus_withProgram v s rest) (inv_todo h)
    obtain ⟨i, ht⟩ | ⟨i, ht⟩ | ⟨reads, rfl⟩ := hostLine_next_cases ht
    · exact inv_exec hrest ht
    · exact inv_request hrest ht
    · exact inv_congr h (fun v => by cases v <;> rfl) (inv_todo h)
  · exact h

/-- Settles O46: by the cases of a step. -/
theorem stepKeepsTheInvariant : Obligations.StepKeepsTheInvariant := by
  intro s t h hstep
  obtain ⟨-, rfl⟩ | ⟨v, hb, hothers, ⟨hlt, rfl⟩ | ⟨-, rfl⟩⟩ | ⟨hidle, ht⟩ := step_next_cases hstep
  · exact inv_applyReset_state _ h
  · exact inv_cell _ h hb hothers hlt
  · exact inv_finish v h
  · exact inv_hostMove h hidle ht

/-- Settles O45: both instances are at rest. -/
theorem resetMeetsTheInvariant : Obligations.ResetMeetsTheInvariant := by
  have hbus (v : Variant) : Bus.reset.Inv v := inv_of_idle rfl rfl rfl rfl
  exact ⟨hbus .mdio, hbus .tws, nofun, rfl, nofun⟩

/-- Settles O47: the invariant keeps `IDX` within the frame and the idle pins idle, which is all a stop could need. -/
theorem requestedOperationNeverStops : Obligations.RequestedOperationNeverStops := by
  intro s h hbusy
  cases hr : s.resetIn
  swap; · exact ⟨_, if_pos hr⟩
  obtain ⟨v, hb, hothers⟩ | hboth | hidle := busy_cases s
  · obtain ⟨-, -, hidx, -⟩ := inv_bus h v
    rw [step_busy hr hb hothers]
    rcases Nat.lt_or_eq_of_le hidx with hlt | heq
    · exact ⟨_, sequencer_cell hlt⟩
    · exact ⟨_, sequencer_finish heq⟩
  · obtain ⟨-, -, hone, -⟩ := h
    exact absurd hboth hone
  · have hm := hidle .mdio
    have ht := hidle .tws
    simp only [bus_mdio, bus_tws] at hm ht
    simp only [hm, ht, Bool.false_eq_true, false_or] at hbusy
    obtain ⟨a, rest, htodo⟩ := List.exists_cons_of_ne_nil hbusy
    rw [step_todo hr hidle htodo]
    cases a with
    | settle v => exact ⟨_, rfl⟩
    | present v dir addr wdata =>
      exact ⟨_, start_ready (by rw [bus_withTodo]; exact pinsIdle_of_inv (inv_bus h v) (hidle v)) _ _ _⟩

/-! ### The idle engine -/

/-- Nothing is in progress and no line of the program presents an operation. -/
def State.Waits (s : State) : Prop :=
  s.resetIn = false ∧ s.mayRequest = true ∧ ∀ l ∈ s.program, presentsNothing l = true

theorem step_noLine {s : State} (hr : s.resetIn = false) (hm : s.mayRequest = true) (hp : s.program = []) :
    step s = .next s := by
  rw [step_idle hr (mayRequest_idle hm), State.hostMove, mayRequest_todo hm, hp]

/-- A waiting machine takes a line off its program, and the host may have read a register. -/
theorem waits_step {s t : State} (h : s.Waits) (hstep : step s = .next t) :
    ∃ reads, t = { s with program := s.program.drop 1, portReads := reads } := by
  obtain ⟨hr, hm, hlines⟩ := h
  cases hp : s.program with
  | nil =>
    rw [step_noLine hr hm hp] at hstep
    cases hstep
    exact ⟨s.portReads, by rw [List.drop_nil, ← hp]⟩
  | cons l rest =>
    rw [step_line hr hm hp] at hstep
    have hl := hlines l (by simp [hp])
    cases l with
    | op c => cases hl
    | request c => cases hl
    | delay us => cases hstep; exact ⟨s.portReads, rfl⟩
    | readRdata v => exact ⟨_, readRdata_next hstep⟩

theorem waits_withProgram {s : State} (h : s.Waits) (k : Nat) (reads : List (Variant × RegWord)) :
    ({ s with program := s.program.drop k, portReads := reads } : State).Waits := by
  obtain ⟨hr, hm, hlines⟩ := h
  exact ⟨hr, hm, fun l hl => hlines l (List.mem_of_mem_drop hl)⟩

theorem waits_run {s t : State} {k : Nat} (h : s.Waits) (hrun : run k s = .next t) :
    ∃ reads, t = { s with program := s.program.drop k, portReads := reads } := by
  induction k generalizing s with
  | zero => cases hrun; exact ⟨_, rfl⟩
  | succ k ih =>
    rw [run_succ] at hrun
    cases hstep : step s with
    | fault r => rw [hstep] at hrun; cases hrun
    | refused r => rw [hstep] at hrun; cases hrun
    | next u =>
      rw [hstep] at hrun
      obtain ⟨reads, rfl⟩ := waits_step h hstep
      obtain ⟨reads', rfl⟩ := ih (waits_withProgram h 1 reads) hrun
      exact ⟨reads', by simp⟩

/-- The registers the program reads hold a value. -/
def State.ReadsHeld (s : State) : Prop := ∀ w, .readRdata w ∈ s.program → (s.bus w).eng.rdataValid = true

theorem waits_goes_on {s : State} (h : s.Waits) (hheld : s.ReadsHeld) : ∃ t, step s = .next t := by
  obtain ⟨hr, hm, hlines⟩ := h
  cases hp : s.program with
  | nil => exact ⟨s, step_noLine hr hm hp⟩
  | cons l rest =>
    have hl := hlines l (by simp [hp])
    rw [step_line hr hm hp]
    cases l with
    | op c => cases hl
    | request c => cases hl
    | delay us => exact ⟨_, rfl⟩
    | readRdata v =>
      have hv := hheld v (by simp [hp])
      have hb := mayRequest_idle hm v
      exact ⟨_, by rw [State.hostLine, State.readRdata, bus_withProgram, if_neg (by simp [hb]), if_pos hv]⟩

theorem waits_runs_on {s : State} (k : Nat) (h : s.Waits) (hheld : s.ReadsHeld) : ∃ t, run k s = .next t := by
  induction k generalizing s with
  | zero => exact ⟨s, rfl⟩
  | succ k ih =>
    obtain ⟨u, hstep⟩ := waits_goes_on h hheld
    rw [run_succ, hstep]
    obtain ⟨reads, rfl⟩ := waits_step h hstep
    refine ih (waits_withProgram h 1 reads) fun w hw => ?_
    have hv := hheld w (List.mem_of_mem_drop hw)
    cases w <;> exact hv

theorem run_delays {s : State} (k : Nat) (hr : s.resetIn = false) (hm : s.mayRequest = true)
    (hlines : ∀ l ∈ s.program, ∃ us, l = .delay us) : run k s = .next { s with program := s.program.drop k } := by
  induction k generalizing s with
  | zero => rfl
  | succ k ih =>
    have hstep : step s = .next { s with program := s.program.drop 1 } := by
      cases hp : s.program with
      | nil => rw [step_noLine hr hm hp, List.drop_nil, ← hp]
      | cons l rest =>
        obtain ⟨us, rfl⟩ := hlines l (by simp [hp])
        rw [step_line hr hm hp, State.hostLine]
        rfl
    rw [run_succ, hstep]
    simp only
    rw [ih (s := { s with program := s.program.drop 1 }) hr hm fun l hl => hlines l (List.mem_of_mem_drop hl)]
    simp

/-- Settles O48: every line that presents nothing is only taken off the program. -/
theorem idleEngineStaysIdle : Obligations.IdleEngineStaysIdle := by
  intro s k h hr hm ht htodo hlines
  have hmay : s.mayRequest = true := by simp [State.mayRequest, hm, ht, htodo]
  have hwaits : s.Waits := ⟨hr, hmay, hlines⟩
  refine ⟨fun v => ?_, fun t hrun => ?_, run_delays k hr hmay, fun hheld => ?_⟩
  · exact pinsIdle_iff.1 (pinsIdle_of_inv (inv_bus h v) (mayRequest_idle hmay v))
  · obtain ⟨reads, rfl⟩ := waits_run hwaits hrun
    exact ⟨rfl, rfl⟩
  · obtain ⟨t, hrun⟩ := waits_runs_on k hwaits hheld
    obtain ⟨reads, rfl⟩ := waits_run hwaits hrun
    exact ⟨_, hrun, rfl⟩

/-! ### Reset -/

/-- Settles O51, by evaluating the state after reset. -/
theorem resetValues : Obligations.ResetValues := by
  intro v
  cases v <;> exact ⟨rfl, rfl, rfl, rfl, rfl, rfl, rfl⟩

theorem bus_applyReset (pp : PhyParams) (v : Variant) (s : State) :
    (s.applyReset pp).bus v = (s.bus v).applyReset (variantRecord v) pp := by
  cases v <;> rfl

theorem inFrame_eq_false {v : Variant} {b : Bus}
    (h : b.eng.busy = false ∨ b.eng.idx = 0 ∨ b.eng.idx.toNat = (variantRecord v).nCells) :
    b.inFrame (variantRecord v) = false := by
  rcases h with h | h | h <;> simp [Bus.inFrame, h]

theorem cutShort_outside {V : VariantRecord} {b : Bus} (pp : PhyParams) (h : b.inFrame V = false) :
    b.cutShort V pp = b := by
  simp [Bus.cutShort, h]

theorem cutShort_inFrame {V : VariantRecord} {b : Bus} (pp : PhyParams) (h : b.inFrame V = true) :
    b.cutShort V pp = { b with env := b.env.cut V pp b.heard b.draws, draws := b.draws + 1 } := if_pos h

/-- What a target without an indirect part makes of a frame cut short: at most one write, at a claimed address. -/
theorem takeCut_some_plain {v : Variant} {pp : PhyParams} {a : Addr} {d : RegWord} {t : RefTarget}
    (hi : t.indirect = none) (hwf : t.treg.wf = true) :
    (t.takeCut (variantRecord v) pp (some (a, d))).indirect = none ∧
      (t.claims a = true → (t.takeCut (variantRecord v) pp (some (a, d))).treg.read a.toNat = d) ∧
      ∀ x, x ≠ a.toNat → (t.takeCut (variantRecord v) pp (some (a, d))).treg.read x = t.treg.read x := by
  rw [RefTarget.takeCut]
  cases hc : t.claims a
  · rw [takeWrite_unclaimed hc]
    exact ⟨hi, nofun, fun _ _ => rfl⟩
  · rw [takeWrite_plain hc (.inl hi)]
    exact ⟨hi, fun _ => memory_read_write_same hwf _ _, fun x hx => memory_read_write_other hwf hx _⟩

/-- Settles O52: the engines are at their reset values, and the targets are what `Bus.cutShort` leaves. -/
theorem resetInputResetsTheEngines : Obligations.ResetInputResetsTheEngines := by
  intro s hr
  refine ⟨_, if_pos hr, rfl, rfl, rfl, rfl, rfl, fun v => ?_⟩
  rw [bus_applyReset]
  refine ⟨by cases v <;> rfl, rfl, cutShort_heard _ _ _, cutShort_pull _ _ _, cutShort_stuck _ _ _, inFrame_eq_false,
    fun hin => ?_, fun hin => ?_, fun henv => ?_, fun ts hin henv => ?_⟩
  · simp [Bus.applyReset, cutShort_outside _ hin]
  · simp [Bus.applyReset, cutShort_inFrame _ hin]
  · simp only [Bus.applyReset, Bus.cutShort]
    split
    · rw [henv, cut_unknown]
    · exact henv
  · simp only [Bus.applyReset, cutShort_inFrame _ hin, henv, Environment.cut, variantRecord_name]
    refine ⟨_, rfl, List.length_mapIdx, fun k old new hold hnew => ?_⟩
    rw [List.getElem?_mapIdx, hold] at hnew
    cases hnew
    refine ⟨rfl, takeCut_claim old, fun hcut => by rw [hcut]; rfl, fun a d hcut => ?_⟩
    rw [hcut]
    exact ⟨takeWrite_unclaimed, takeCut_some_plain⟩

end Sys2Proof.Machine
end

section
/-! The operations as big steps (41_mdio_ops.md, 42_tws_ops.md, 43_phy_wrappers.md): the registers they write, the pin
traces they leave, and what the targets have read. -/

namespace Sys2Proof.Machine

/-! ### Registers and frames -/

theorem writeEffect_afterWrite (v : Variant) (pp : PhyParams) (addr : Addr) (data : RegWord) (s : State) :
    WriteEffect v addr data s (s.setBus v ((s.bus v).afterWrite v pp addr data)) := by
  unfold WriteEffect
  rw [bus_setBus]
  exact ⟨rfl, rfl, rfl, rfl, rfl⟩

theorem readEffect_afterRead (v : Variant) (addr : Addr) (heard : Heard) (s : State) :
    ReadEffect v addr s (s.afterRead v addr heard) := by
  unfold ReadEffect
  rw [afterRead_bus]
  exact ⟨rfl, rfl, rfl, rfl, rfl, rfl⟩

theorem busWrite_completes {i : Instr} {v : Variant} {addr : Addr} {data : RegWord} {s : State}
    (hi : IsBusWrite i v addr data) (h : Ready v s) : ∃ t, exec i s = .next t ∧ WriteEffect v addr data s t :=
  ⟨_, exec_write_next hi h, writeEffect_afterWrite v _ addr data s⟩

theorem busRead_completes {i : Instr} {v : Variant} {addr : Addr} {s : State} (hi : IsBusRead i v addr)
    (h : Ready v s) : ∃ t, exec i s = .next t ∧ ReadEffect v addr s t := by
  obtain ⟨heard, -, hexec⟩ := exec_read_next hi h
  exact ⟨_, hexec, readEffect_afterRead v addr heard s⟩

/-- Settles O17. -/
theorem mdioWriteCompletes : Obligations.MdioWriteCompletes :=
  fun _ phyad regad _ h => busWrite_completes (.inl ⟨phyad, regad, rfl, rfl, rfl⟩) h

/-- Settles O18. -/
theorem mdioReadCompletes : Obligations.MdioReadCompletes :=
  fun _ phyad regad h => busRead_completes (.inl ⟨phyad, regad, rfl, rfl, rfl⟩) h

/-- Settles O19. -/
theorem twsWriteCompletes : Obligations.TwsWriteCompletes :=
  fun _ reg _ h => busWrite_completes (.inr ⟨reg, rfl, rfl, rfl⟩) h

/-- Settles O20. -/
theorem twsReadCompletes : Obligations.TwsReadCompletes :=
  fun _ reg h => busRead_completes (.inr ⟨reg, rfl, rfl, rfl⟩) h

@[simp] theorem bus_setBus_withReturned (v : Variant) (b : Bus) (s : State) (r : List (Variant × RegWord)) :
    State.bus v { s.setBus v b with returned := r } = b := by
  cases v <;> rfl

/-- Settles O21: two bus writes, each with its settle delay behind it. -/
theorem phyWriteCompletes : Obligations.PhyWriteCompletes := by
  intro s preg data h
  refine ⟨_, compositeOp_write h preg data, ?_, ?_⟩
  · unfold WriteEffect
    rw [bus_setBus]
    exact ⟨rfl, rfl, rfl, rfl, rfl⟩
  · simp [Bus.afterWrite]

/-- Settles O22: a bus write and a bus read, each with its settle delay behind it. -/
theorem phyReadCompletes : Obligations.PhyReadCompletes := by
  intro s preg h
  obtain ⟨heard, hnext⟩ := compositeOp_read h preg 0
  refine ⟨_, hnext, ?_⟩
  rw [bus_setBus_withReturned]
  refine ⟨rfl, rfl, rfl, rfl, ?_⟩
  rw [delay_trace, afterRead_trace]
  simp [Bus.afterWrite]

/-! ### Pin traces -/

/-- Settles O23: the trace of `Bus.afterWrite`. -/
theorem busWritePinTrace : Obligations.BusWritePinTrace := by
  intro i v addr data s hi h
  refine ⟨_, exec_write_next hi h, ?_⟩
  rw [bus_setBus, Bus.afterWrite]

/-- Settles O24: the trace of `Bus.afterRead`, its samples the bits they left in `RDATA`. -/
theorem busReadPinTrace : Obligations.BusReadPinTrace := by
  intro i v addr s hi h
  obtain ⟨heard, -, hexec⟩ := exec_read_next hi h
  refine ⟨_, hexec, ?_⟩
  rw [afterRead_bus, afterRead_trace]

/-! ### The cells of a pin trace -/

/-- Between two cells, the pin an output at `l`. -/
def CellScan.driving (l : Level) : CellScan :=
  { latch := l, out := true, wrote := false, turnedOut := false, sample := none }

/-- Between two cells, the pin an input. -/
def CellScan.releasing (l : Level) : CellScan := { CellScan.driving l with out := false }

/-- A driven cell. -/
def CellEntry.ofLevel (l : Level) : CellEntry := { sym := .drive l, level := some l, sampled := none }

/-- A cell that is released and sampled. -/
def CellEntry.ofSample (l : Level) : CellEntry := { sym := .sampled, level := none, sampled := some l }

theorem cellsOf_pulses (V : VariantRecord) (n : Nat) (l : Level) (rest : List PinEvent) :
    cellsOf (.driving l) ((List.replicate n (pulseEvents V)).flatten ++ rest) =
      List.replicate n (.ofLevel l) ++ cellsOf (.driving l) rest := by
  induction n with
  | zero => rfl
  | succ n ih =>
    rw [List.replicate_succ, List.replicate_succ, List.flatten_cons, List.append_assoc, List.cons_append, ← ih]
    rfl

theorem cellsOf_sends (V : VariantRecord) (ls : List Level) (l : Level) (rest : List PinEvent) :
    cellsOf (.driving l) (ls.flatMap (sendEvents V) ++ rest) =
      ls.map .ofLevel ++ cellsOf (.driving (ls.getLastD l)) rest := by
  induction ls generalizing l with
  | nil => rfl
  | cons a ls ih =>
    rw [List.flatMap_cons, List.append_assoc, List.map_cons, List.cons_append, List.getLastD_cons, ← ih a]
    rfl

theorem cellsOf_samples (V : VariantRecord) (ls : List Level) (l : Level) (rest : List PinEvent) :
    cellsOf (.releasing l) (ls.flatMap (recvEvents V) ++ rest) =
      ls.map .ofSample ++ cellsOf (.releasing l) rest := by
  induction ls with
  | nil => rfl
  | cons a ls ih =>
    rw [List.flatMap_cons, List.append_assoc, List.map_cons, List.cons_append, ← ih]
    rfl

/-- The start step makes no cell; the first preamble cell is driven although the start step turned the pin to output,
because it wrote the latch too. -/
theorem cellsOf_preamble {V : VariantRecord} (h : 0 < V.preLen) (rest : List PinEvent) :
    cellsOf .start (preambleEvents V ++ rest) =
      List.replicate V.preLen (.ofLevel true) ++ cellsOf (.driving true) rest := by
  obtain ⟨n, hn⟩ := Nat.exists_eq_succ_of_ne_zero (Nat.pos_iff_ne_zero.1 h)
  have hfirst : cellsOf .start (preambleEvents V ++ rest) =
      .ofLevel true :: cellsOf (.driving true) ((List.replicate n (pulseEvents V)).flatten ++ rest) := by
    rw [preambleEvents, hn, List.replicate_succ, List.flatten_cons]
    simp only [List.append_assoc]
    rfl
  rw [hfirst, cellsOf_pulses, hn, List.replicate_succ, List.cons_append]

theorem cellsOf_writeTrace {V : VariantRecord} (h : 0 < V.preLen) (addr : Addr) (data : RegWord) :
    (cellsOf .start (writeTrace V addr data)).map (fun e => e.sym) = frame V .wr addr data := by
  rw [writeTrace, List.append_assoc, cellsOf_preamble h, cellsOf_sends]
  simp [cellsOf, frame, Function.comp_def, CellEntry.ofLevel]

theorem cellsOf_turnaround (V : VariantRecord) (l : Level) (rest : List PinEvent) :
    cellsOf (.driving l) ((.setDirIn :: pulseEvents V) ++ ((.setDirOut :: pulseEvents V) ++ (.setDirIn :: rest))) =
      { sym := .released, level := none, sampled := none } :: { sym := .held, level := some l, sampled := none } ::
        cellsOf (.releasing l) rest := rfl

/-- The cells of a read: those of the frame word's driven bits, the turnaround, and the samples. -/
theorem cellsOf_readTrace {V : VariantRecord} (h : 0 < V.preLen) (addr : Addr) (samples : List Level) :
    ∃ l, cellsOf .start (readTrace V addr samples) =
      List.replicate V.preLen (.ofLevel true) ++
        (([V.st.1, V.st.2, V.opRd.1, V.opRd.2] ++ msbFirst addr).map .ofLevel ++
          ({ sym := .released, level := none, sampled := none } :: { sym := .held, level := some l, sampled := none } ::
            samples.map .ofSample)) := by
  refine ⟨([V.st.1, V.st.2, V.opRd.1, V.opRd.2] ++ msbFirst addr).getLastD true, ?_⟩
  have hend (l : Level) : cellsOf (.releasing l) [.setDat true, .setDirOut] = [] := rfl
  rw [readTrace, List.append_assoc, List.append_assoc, List.append_assoc, List.append_assoc, cellsOf_preamble h,
    cellsOf_sends, List.cons_append (a := PinEvent.setDirIn) (as := List.flatMap _ _), cellsOf_turnaround,
    cellsOf_samples, hend, List.append_nil]

theorem symbols_readTrace {V : VariantRecord} (h : 0 < V.preLen) (addr : Addr) (data : RegWord) {samples : List Level}
    (hs : samples.length = 16) :
    (cellsOf .start (readTrace V addr samples)).map (fun e => e.sym) = frame V .rd addr data := by
  obtain ⟨l, hcells⟩ := cellsOf_readTrace h addr samples
  rw [hcells]
  simp [frame, Function.comp_def, CellEntry.ofLevel, CellEntry.ofSample, hs]

theorem samples_readTrace {V : VariantRecord} (h : 0 < V.preLen) (addr : Addr) (samples : List Level) :
    (cellsOf .start (readTrace V addr samples)).filterMap (fun e => e.sampled) = samples := by
  obtain ⟨l, hcells⟩ := cellsOf_readTrace h addr samples
  rw [hcells]
  simp [List.filterMap_append, List.filterMap_map, Function.comp_def, CellEntry.ofLevel, CellEntry.ofSample]

theorem preLen_pos (v : Variant) : 0 < (variantRecord v).preLen := by cases v <;> decide

/-- Settles O25: the cells of the two traces of O23 and O24. -/
theorem operationPutsItsFrameOnTheWires : Obligations.OperationPutsItsFrameOnTheWires := by
  intro i v addr data s h
  refine ⟨fun hi => ?_, fun hi => ?_⟩
  · obtain ⟨t, hexec, htrace⟩ := busWritePinTrace i v addr data s hi h
    exact ⟨t, _, hexec, htrace, cellsOf_writeTrace (preLen_pos v) addr data⟩
  · obtain ⟨t, hexec, htrace⟩ := busReadPinTrace i v addr s hi h
    exact ⟨t, _, hexec, htrace, symbols_readTrace (preLen_pos v) addr data (length_msbFirst _),
      samples_readTrace (preLen_pos v) addr _⟩

/-! ### Counts over a pin trace -/

/-- A count of pin events that adds up over the parts of a trace. -/
structure Additive (f : List PinEvent → Nat) : Prop where
  nil : f [] = 0
  append : ∀ es es', f (es ++ es') = f es + f es'

theorem additive_length : Additive List.length := ⟨rfl, fun _ _ => List.length_append⟩

theorem additive_pulseCount : Additive pulseCount := by
  refine ⟨rfl, fun es es' => ?_⟩
  induction es with
  | nil => simp [pulseCount]
  | cons e es ih => cases e <;> simp [pulseCount, ih, Nat.add_right_comm]

theorem additive_delaySum : Additive delaySum := by
  refine ⟨rfl, fun es es' => ?_⟩
  induction es with
  | nil => simp [delaySum]
  | cons e es ih => cases e <;> simp [delaySum, ih, Nat.add_assoc]

theorem additive_flatMap {α : Type} {f : List PinEvent → Nat} (hf : Additive f) {g : α → List PinEvent} {n : Nat}
    (h : ∀ a, f (g a) = n) (as : List α) : f (as.flatMap g) = as.length * n := by
  induction as with
  | nil => simp [hf.nil]
  | cons a as ih => rw [List.flatMap_cons, hf.append, h, ih, List.length_cons, Nat.succ_mul, Nat.add_comm]

theorem additive_replicate {f : List PinEvent → Nat} (hf : Additive f) (n : Nat) (es : List PinEvent) :
    f (List.replicate n es).flatten = n * f es := by
  induction n with
  | zero => simp [hf.nil]
  | succ n ih => rw [List.replicate_succ, List.flatten_cons, hf.append, ih, Nat.succ_mul, Nat.add_comm]

/-- A count over a write: the start step, the preamble's pulses, thirty-two sent bits, the latch set high. -/
theorem additive_writeTrace {f : List PinEvent → Nat} (hf : Additive f) {V : VariantRecord} {n : Nat}
    (h : ∀ l, f (sendEvents V l) = n) (addr : Addr) (data : RegWord) :
    f (writeTrace V addr data) =
      f [.setDirOut, .setDat true, .delay V.tSetup] + V.preLen * f (pulseEvents V) + 32 * n + f [.setDat true] := by
  rw [writeTrace, hf.append, hf.append, preambleEvents, hf.append, additive_replicate hf, additive_flatMap hf h]
  simp [length_msbFirst]

/-- A count over a read: fourteen sent bits, the turnaround, and the samples. -/
theorem additive_readTrace {f : List PinEvent → Nat} (hf : Additive f) {V : VariantRecord} {n m : Nat}
    (h : ∀ l, f (sendEvents V l) = n) (h' : ∀ l, f (recvEvents V l) = m) (addr : Addr) (samples : List Level) :
    f (readTrace V addr samples) =
      f [.setDirOut, .setDat true, .delay V.tSetup] + V.preLen * f (pulseEvents V) + 14 * n +
        (f [.setDirIn] + f (pulseEvents V)) + (f [.setDirOut] + f (pulseEvents V)) +
        (f [.setDirIn] + samples.length * m) + f [.setDat true, .setDirOut] := by
  have hcons (e : PinEvent) (es : List PinEvent) : f (e :: es) = f [e] + f es := hf.append [e] es
  rw [readTrace, hf.append, hf.append, hf.append, hf.append, hf.append, preambleEvents, hf.append,
    additive_replicate hf, additive_flatMap hf h, hcons .setDirIn (pulseEvents V),
    hcons .setDirOut (pulseEvents V), hcons .setDirIn (List.flatMap _ _),
    additive_flatMap hf h']
  simp [length_msbFirst]

/-- A part of a trace from a low clock to a low clock that moves the data pin only while the clock is low. -/
def MovesWhileLow (es : List PinEvent) : Prop :=
  ∀ rest, dataMovesOnlyWhileLow false (es ++ rest) = dataMovesOnlyWhileLow false rest

theorem movesWhileLow_append {es es' : List PinEvent} (h : MovesWhileLow es) (h' : MovesWhileLow es') :
    MovesWhileLow (es ++ es') := fun rest => by rw [List.append_assoc, h, h']

theorem movesWhileLow_flatMap {α : Type} {g : α → List PinEvent} (h : ∀ a, MovesWhileLow (g a)) (as : List α) :
    MovesWhileLow (as.flatMap g) := by
  induction as with
  | nil => exact fun _ => rfl
  | cons a as ih => rw [List.flatMap_cons]; exact movesWhileLow_append (h a) ih

theorem movesWhileLow_preamble (V : VariantRecord) : MovesWhileLow (preambleEvents V) := by
  have hstart : MovesWhileLow [.setDirOut, .setDat true, .delay V.tSetup] := fun _ => rfl
  have hpulse : MovesWhileLow (pulseEvents V) := fun _ => rfl
  rw [preambleEvents, ← List.flatMap_id]
  refine movesWhileLow_append hstart ?_
  induction V.preLen with
  | zero => exact fun _ => rfl
  | succ n ih => rw [List.replicate_succ, List.flatMap_cons]; exact movesWhileLow_append hpulse ih

theorem movesWhileLow_writeTrace (V : VariantRecord) (addr : Addr) (data : RegWord) :
    MovesWhileLow (writeTrace V addr data) :=
  movesWhileLow_append
    (movesWhileLow_append (movesWhileLow_preamble V) (movesWhileLow_flatMap (fun _ _ => rfl) _)) fun _ => rfl

theorem movesWhileLow_readTrace (V : VariantRecord) (addr : Addr) (samples : List Level) :
    MovesWhileLow (readTrace V addr samples) := by
  have hsends : MovesWhileLow (([V.st.1, V.st.2, V.opRd.1, V.opRd.2] ++ msbFirst addr).flatMap (sendEvents V)) :=
    movesWhileLow_flatMap (fun _ _ => rfl) _
  have hsamples : MovesWhileLow (.setDirIn :: samples.flatMap (recvEvents V)) :=
    movesWhileLow_append (es := [.setDirIn]) (fun _ => rfl) (movesWhileLow_flatMap (fun _ _ => rfl) _)
  refine movesWhileLow_append (movesWhileLow_append (movesWhileLow_append (movesWhileLow_append
    (movesWhileLow_append (movesWhileLow_preamble V) hsends) ?_) ?_) hsamples) ?_ <;> exact fun _ => rfl

theorem low_of_movesWhileLow {es : List PinEvent} (h : MovesWhileLow es) : dataMovesOnlyWhileLow false es = true := by
  simpa [dataMovesOnlyWhileLow] using h []

/-- What is counted over the trace of one bus operation. -/
structure TraceCounts (v : Variant) (es : List PinEvent) (events : Nat) : Prop where
  pulses : pulseCount es = (variantRecord v).nCells
  delays : delaySum es = 2 * (variantRecord v).nCells * (variantRecord v).tBit + Config.setupDelay v
  low : dataMovesOnlyWhileLow false es = true
  length : es.length = events

theorem variantRecord_tSetup (v : Variant) : (variantRecord v).tSetup = Config.setupDelay v := by cases v <;> rfl

theorem traceCounts_writeTrace (v : Variant) (addr : Addr) (data : RegWord) :
    TraceCounts v (writeTrace (variantRecord v) addr data) (if v = .mdio then 292 else 196) where
  pulses := by
    rw [additive_writeTrace additive_pulseCount (n := 1) fun _ => rfl, nCells_eq]
    simp [pulseCount, pulseEvents]
  delays := by
    rw [additive_writeTrace additive_delaySum (n := delaySum (pulseEvents _)) fun _ => rfl, nCells_eq,
      ← variantRecord_tSetup]
    simp [delaySum, pulseEvents]
    ring
  low := low_of_movesWhileLow (movesWhileLow_writeTrace _ addr data)
  length := by
    rw [additive_writeTrace additive_length (n := 5) fun _ => rfl]
    cases v <;> rfl

theorem traceCounts_readTrace (v : Variant) (addr : Addr) {samples : List Level} (hs : samples.length = 16) :
    TraceCounts v (readTrace (variantRecord v) addr samples) (if v = .mdio then 294 else 198) where
  pulses := by
    rw [additive_readTrace additive_pulseCount (n := 1) (m := 1) (fun _ => rfl) (fun _ => rfl), nCells_eq, hs]
    simp [pulseCount, pulseEvents]
  delays := by
    rw [additive_readTrace additive_delaySum (n := delaySum (pulseEvents _)) (m := delaySum (pulseEvents _))
      (fun _ => rfl) (fun _ => rfl), nCells_eq, ← variantRecord_tSetup, hs]
    simp [delaySum, pulseEvents]
    ring
  low := low_of_movesWhileLow (movesWhileLow_readTrace _ addr samples)
  length := by
    rw [additive_readTrace additive_length (n := 5) (m := 5) (fun _ => rfl) (fun _ => rfl), hs]
    cases v <;> rfl

/-- Settles O26: the counts over the two traces of O23 and O24. -/
theorem operationPulsesDelaysAndEvents : Obligations.OperationPulsesDelaysAndEvents := by
  rintro i v addr data s h (hi | hi)
  · obtain ⟨t, hexec, htrace⟩ := busWritePinTrace i v addr data s hi h
    have hc := traceCounts_writeTrace v addr data
    exact ⟨t, _, hexec, htrace, hc.pulses, hc.delays, hc.low, fun _ => hc.length,
      fun hrd => absurd hrd (not_busRead_of_busWrite hi _ _)⟩
  · obtain ⟨t, hexec, htrace⟩ := busReadPinTrace i v addr s hi h
    have hc := traceCounts_readTrace v addr (length_msbFirst (t.bus v).eng.rdata)
    exact ⟨t, _, hexec, htrace, hc.pulses, hc.delays, hc.low,
      fun hwr => absurd hi (not_busRead_of_busWrite hwr _ _), fun _ => hc.length⟩

/-! ### What the targets have read -/

/-- Settles O27: a write frame is heard whole, a read frame up to its address. -/
theorem targetsReadTheFrame : Obligations.TargetsReadTheFrame := by
  intro i v addr data s h hs
  refine ⟨fun hi => ⟨_, exec_write_next hi h, ?_⟩, fun hi => ?_⟩
  · rw [bus_setBus, Bus.afterWrite, hs, heard_write, Heard.nextFrame]
  · obtain ⟨heard, hheard, hexec⟩ := exec_read_next hi h
    refine ⟨_, hexec, ?_⟩
    rw [afterRead_bus, Bus.afterRead, hheard hs, Heard.ofRead, Heard.nextFrame]

end Sys2Proof.Machine
end

section
/-! The targets and the wires (20_memory.md R47 to R51, 60_exceptions.md R131): what a bus write stores, when it is
taken, and what a bus read returns. -/

namespace Sys2Proof.Machine

/-! ### A bus write -/

theorem exec_write_targets {i : Instr} {v : Variant} {addr : Addr} {data : RegWord} {s : State} {ts : List RefTarget}
    (hi : IsBusWrite i v addr data) (h : Ready v s) (hs : (s.bus v).stuck = none)
    (he : (s.bus v).env = .reference ts) :
    ∃ t, exec i s = .next t ∧
      (t.bus v).env = .reference (ts.map (RefTarget.takeWrite (variantRecord v) Config.phyParams addr data)) ∧
      (t.bus v).stuck = none ∧ Ready v t ∧ t.returned = s.returned := by
  refine ⟨_, exec_write_next hi h, ?_, ?_, ready_afterWrite h, setBus_returned _ _ _⟩
  · rw [bus_setBus, afterWrite_env v _ addr data hs he]
  · rw [bus_setBus]; exact hs

/-- Settles O28: each target takes the write for itself. -/
theorem busWriteStoresOneRegister : Obligations.BusWriteStoresOneRegister := by
  intro i v addr data s ts hi h hs he
  obtain ⟨t, hexec, henv, -⟩ := exec_write_targets hi h hs he
  refine ⟨t, _, hexec, henv, List.length_map _, fun k old new hold hnew => ?_⟩
  rw [List.getElem?_map, hold] at hnew
  cases hnew
  refine ⟨takeWrite_unclaimed, fun hc hplain hwf => ?_⟩
  rw [takeWrite_plain hc hplain]
  exact ⟨rfl, rfl, memory_read_write_same hwf _ _, fun a ha => memory_read_write_other hwf ha _⟩

/-- What hangs on the wires changes at the end of the last data cell of a write and not before. -/
theorem startStep_cells_env {V : VariantRecord} {pp : PhyParams} {b : Bus} (hP : V.preLen ≤ 95)
    (hclk : b.eng.clk = false) (addr : Addr) (wdata : RegWord) {j : Nat} (hj : j ≤ V.preLen + 32) :
    ((b.startStep V .wr addr wdata).cells V pp j).env =
      if j = V.preLen + 32 then
        b.env.commit V pp (V.preLen + 31) (heardAfter V .wr addr wdata b.stuck b.heard (V.preLen + 32))
      else b.env := by
  rw [cells_driven (k := V.preLen + 32) (by simp [startStep_eq, Engine.accept])
    (by simpa [startStep_eq, Engine.accept] using hclk) (by simp [startStep_eq]) (by simp [startStep_eq]) (by omega)
    (fun c hc => by simpa [startStep_eq, Engine.accept] using (driven_write V addr wdata hc).1)
    (fun c hc => by simpa [startStep_eq, Engine.accept] using (driven_write V addr wdata hc).2) j hj hj, startStep_eq]
  rfl

theorem drive_after_writeOp {v : Variant} {c : Nat} {h : Heard} (tg : RefTarget) (hop : h.op = (variantRecord v).opWr) :
    tg.drive (variantRecord v) c h = .off := by
  have hne := opRd_ne_opWr v
  unfold RefTarget.drive
  rw [hop, if_neg fun h => hne h.1.symm]

/-- A requested bus operation after `k` of its cells. -/
theorem run_request_cells {i : Instr} {v : Variant} {addr : Addr} {data : RegWord} {s : State} {rest : List HostLine}
    (hi : IsBusWrite i v addr data) (h : Ready v s) (hr : s.resetIn = false)
    (hp : s.program = .request (encode i) :: rest) {k : Nat} (hk : k ≤ (variantRecord v).nCells) :
    ∃ t, run (1 + k) s = .next t ∧
      t.bus v = ((s.bus v).startStep (variantRecord v) .wr addr data).cells (variantRecord v) Config.phyParams k := by
  have hready := ready_withProgram rest h
  have hstart : run 1 s = .next _ := run_one <| by
    rw [step_line hr h.1 hp, State.hostLine, withDecoded_encode (wellFormed_busOperation (.inl hi)),
      request_busWrite hi, requestBusOp_ready hready]
  obtain ⟨hcells, -⟩ := run_started (v := v) (s := { s with program := rest }) (dir := .wr) (addr := addr)
    (wdata := data) (mayRequest_idle hready.1) hr
  refine ⟨_, (run_add k hstart).trans (hcells k hk), ?_⟩
  rw [bus_setBus, bus_withProgram]

/-- Settles O29: `startStep_cells_env` before and after the last data cell. -/
theorem writeIsTakenAtTheLastDataCell : Obligations.WriteIsTakenAtTheLastDataCell := by
  refine ⟨fun i v addr data s rest tg hi h hr hp hs he hc hplain => ?_,
    fun v c hd tg hop => drive_after_writeOp tg hop⟩
  obtain ⟨hclk, -⟩ := pinsIdle_iff.1 h.2
  have hN := nCells_eq v
  refine ⟨fun k hk => ?_, ?_⟩
  · obtain ⟨t, hrun, hbus⟩ := run_request_cells hi h hr hp (show k ≤ (variantRecord v).nCells by omega)
    refine ⟨t, hrun, ?_⟩
    rw [hbus, startStep_cells_env (preLen_le v) hclk _ _ (by omega), if_neg (by omega), he]
  · obtain ⟨t, hrun, hbus⟩ := run_request_cells hi h hr hp (Nat.le_of_eq hN.symm)
    refine ⟨t, hrun, ?_, ?_, ?_⟩
    · rw [hbus, startStep_cells_env (preLen_le v) hclk _ _ (Nat.le_refl _), if_pos rfl, he, hs, heard_write]
      simp [Environment.commit, takeWrite_plain hc hplain]
    · rw [hbus, cells_busy, startStep_eq]; rfl
    · have hidx : ((s.bus v).startStep (variantRecord v) .wr addr data).eng.idx.toNat = 0 := by
        rw [startStep_eq]; rfl
      rw [hbus, cells_idx (by omega), hidx]
      omega

/-! ### A bus read -/

/-- The level of a released line that is not stuck, the targets driving `d`, `k` draws from here (10_state.md R23). -/
def Bus.releasedLevel (V : VariantRecord) (k : Nat) (d : Drive) (b : Bus) : Level :=
  match d with
  | .off => b.pull.getD (Config.freeLevel V.name (b.draws + k))
  | .level l => l
  | .clash => Config.freeLevel V.name (b.draws + k)

theorem sampleAt_reference {V : VariantRecord} {addr : Addr} {b : Bus} {ts : List RefTarget} (hs : b.stuck = none)
    (he : b.env = .reference ts) (k : Nat) :
    sampleAt V addr b k =
      b.releasedLevel V k ((ts.map (RefTarget.drive V (V.preLen + 16 + k) (b.heard.ofRead V addr))).foldr
        Drive.join .off) := by
  rw [sampleAt_free hs, he]
  rfl

/-- Targets that claim the address and agree make a read return their register. -/
theorem readSamples_agree {V : VariantRecord} {addr : Addr} {b : Bus} {ts : List RefTarget} {x : RegWord}
    (hs : b.stuck = none) (he : b.env = .reference ts) (hc : ∃ tg ∈ ts, tg.claims addr = true)
    (hx : ∀ tg ∈ ts, tg.claims addr = true → tg.treg.read addr.toNat = x) (old : RegWord) :
    (readSamples V addr b).foldl shiftIn old = x := by
  refine read_value (fun k hk => ?_) old
  have hd := drives_agree (V := V) (h := b.heard.ofRead V addr) hk rfl x hx
  rw [if_pos (by exact hc)] at hd
  rw [sampleAt_reference hs he, hd, Bus.releasedLevel]

theorem exec_read_agree {i : Instr} {v : Variant} {addr : Addr} {s : State} {ts : List RefTarget} {x : RegWord}
    (hi : IsBusRead i v addr) (h : Ready v s) (hs : (s.bus v).stuck = none) (he : (s.bus v).env = .reference ts)
    (hc : ∃ tg ∈ ts, tg.claims addr = true)
    (hx : ∀ tg ∈ ts, tg.claims addr = true → tg.treg.read addr.toNat = x) :
    ∃ t, exec i s = .next t ∧ (t.bus v).eng.rdata = x ∧ (t.bus v).env = .reference ts ∧
      t.returned = s.returned ++ [(v, x)] := by
  obtain ⟨heard, -, hexec⟩ := exec_read_next hi h
  have hval : ((s.bus v).afterRead v addr heard).eng.rdata = x := readSamples_agree hs he hc hx _
  refine ⟨_, hexec, ?_, ?_, ?_⟩
  · rw [afterRead_bus, hval]
  · rw [afterRead_bus]; exact he
  · rw [State.afterRead, hval]

theorem drive_outside_data {V : VariantRecord} {c : Nat} (h : Heard) (tg : RefTarget)
    (hc : c < V.preLen + 16 ∨ V.preLen + 32 ≤ c) : tg.drive V c h = .off := by
  have hphase : phase V c ≠ .data := by
    intro hdata
    unfold phase at hdata
    split_ifs at hdata
    omega
  simp [RefTarget.drive, hphase]

/-- Settles O30: the drive cell by cell, and the samples of targets that agree. -/
theorem readReturnsTheRegister : Obligations.ReadReturnsTheRegister :=
  ⟨fun _ h tg hop hc => ⟨fun _ hk => drive_claimed hop hc hk, fun _ hcell => drive_outside_data h tg hcell⟩,
    fun _ _ _ _ _ _ hi h hs he hc hx => exec_read_agree hi h hs he hc hx⟩

/-- The bits of a read's result are its samples, each a drive of the targets. -/
theorem exec_read_bit {i : Instr} {v : Variant} {addr : Addr} {s : State} (hi : IsBusRead i v addr) (h : Ready v s) :
    ∃ t, exec i s = .next t ∧ (t.bus v).env = (s.bus v).env ∧
      ∀ k < 16, (t.bus v).eng.rdata.getLsbD (15 - k) = sampleAt (variantRecord v) addr (s.bus v) k := by
  obtain ⟨heard, -, hexec⟩ := exec_read_next hi h
  refine ⟨_, hexec, ?_, fun k hk => ?_⟩
  · rw [afterRead_bus]; rfl
  · rw [afterRead_bus]; exact read_bit _ hk

/-- Settles O31: with no claim the targets drive nothing. -/
theorem nobodyAnswers : Obligations.NobodyAnswers := by
  intro i v addr data s ts h hs he hno
  refine ⟨fun hi => ?_, fun hi => ?_⟩
  · obtain ⟨t, hexec, henv, hbits⟩ := exec_read_bit hi h
    have hsample {k : Nat} (hk : k < 16) : sampleAt (variantRecord v) addr (s.bus v) k =
        (s.bus v).pull.getD (Config.freeLevel v ((s.bus v).draws + k)) := by
      have hnone : ∀ tg ∈ ts, ¬ tg.claims addr = true := fun tg htg => by simp [hno tg htg]
      have hd := drives_agree (V := variantRecord v) (h := (s.bus v).heard.ofRead (variantRecord v) addr) hk rfl 0
        fun tg htg hc => absurd hc (hnone tg htg)
      rw [if_neg (by rintro ⟨tg, htg, hc⟩; exact hnone tg htg hc)] at hd
      rw [sampleAt_reference hs he, hd, Bus.releasedLevel, variantRecord_name]
    refine ⟨t, hexec, henv.trans he, fun l hl k hk => ?_, fun hpull k hk => ?_⟩
    · rw [hbits k hk, hsample hk, hl]; rfl
    · rw [hbits k hk, hsample hk, hpull]; rfl
  · obtain ⟨t, hexec, henv, -⟩ := exec_write_targets hi h hs he
    have hsame : ts.map (RefTarget.takeWrite (variantRecord v) Config.phyParams addr data) = ts :=
      (List.map_congr_left fun tg htg => takeWrite_unclaimed (hno tg htg)).trans (List.map_id _)
    exact ⟨t, hexec, henv.trans (by rw [hsame])⟩

/-- Settles O32: a stuck line is heard with no write op-code. -/
theorem stuckLine : Obligations.StuckLine := by
  intro i v addr data s l h hs
  refine ⟨fun hi => ?_, fun hi => ⟨_, exec_write_next hi h, ?_⟩⟩
  · obtain ⟨heard, -, hexec⟩ := exec_read_next hi h
    refine ⟨_, hexec, ?_⟩
    rw [afterRead_bus]
    refine read_value (fun k hk => ?_) _
    have hsample : sampleAt (variantRecord v) addr (s.bus v) k = l := by
      rw [sampleAt, sampleHearing, hs]; rfl
    rw [hsample]
    cases l <;> interval_cases k <;> rfl
  · rw [bus_setBus, Bus.afterWrite, hs]
    refine commit_not_write _ ?_
    rw [heard_stuck _ _ _ _ _ _ _ (by omega), variantRecord_opWr]
    cases l <;> decide

/-- Settles O33: two levels joined are one level where they agree and a clash where they differ. -/
theorem twoDevicesAnswerAtOnce : Obligations.TwoDevicesAnswerAtOnce := by
  intro i v addr s t1 t2 hi h hs he hc1 hc2
  obtain ⟨t, hexec, -, hbits⟩ := exec_read_bit hi h
  refine ⟨t, hexec, fun k hk => ?_⟩
  have hdrive {tg : RefTarget} (hc : tg.claims addr = true) :=
    drive_claimed (V := variantRecord v) (h := (s.bus v).heard.ofRead (variantRecord v) addr) (t := tg) rfl hc hk
  rw [hbits k hk, sampleAt_reference hs he, List.map_cons, List.map_cons, List.map_nil, hdrive hc1, hdrive hc2,
    ofRead_addr]
  simp only [List.foldr_cons, List.foldr_nil, Drive.join]
  split_ifs
  · rfl
  · rw [Bus.releasedLevel, variantRecord_name]

/-! ### A write and then a read -/

/-- Settles O34: after the write every claiming target has the value. -/
theorem writeThenReadReturnsTheValue : Obligations.WriteThenReadReturnsTheValue := by
  intro i j v addr data s ts hi hj h hs he hc hplain
  obtain ⟨t, hexec, henv, hstuck, hready, hreturned⟩ := exec_write_targets hi h hs he
  have hvalue : ∀ tg ∈ ts.map (RefTarget.takeWrite (variantRecord v) Config.phyParams addr data),
      tg.claims addr = true → tg.treg.read addr.toNat = data := by
    intro tg htg hclaims
    obtain ⟨old, hold, rfl⟩ := List.mem_map.1 htg
    rw [takeWrite_claims] at hclaims
    obtain ⟨hp, hwf⟩ := hplain old hold hclaims
    rw [takeWrite_plain hclaims hp]
    exact memory_read_write_same hwf _ _
  obtain ⟨tg, htg, hclaims⟩ := hc
  obtain ⟨u, hexec', hrdata, -, hreturned'⟩ := exec_read_agree hj hready hstuck henv
    ⟨_, List.mem_map_of_mem htg, by rwa [takeWrite_claims]⟩ hvalue
  exact ⟨t, u, hexec, hexec', hrdata, by rw [hreturned', hreturned]⟩

/-- Settles O35: the write leaves the other register as it was, claimed or not. -/
theorem writeElsewhereDoesNotChangeARead : Obligations.WriteElsewhereDoesNotChangeARead := by
  intro i j v addr other data s tg hi hj hne h hs he hclaims hplain hwf
  obtain ⟨t, hexec, henv, hstuck, hready, -⟩ := exec_write_targets hi h hs he
  have hsame : (tg.takeWrite (variantRecord v) Config.phyParams addr data).treg.read other.toNat =
      tg.treg.read other.toNat := by
    cases hc : tg.claims addr
    · rw [takeWrite_unclaimed hc]
    · rw [takeWrite_plain hc hplain]
      exact memory_read_write_other hwf (fun h => hne (BitVec.eq_of_toNat_eq h)) _
  obtain ⟨u, hexec', hrdata, -⟩ := exec_read_agree hj hready hstuck henv (x := tg.treg.read other.toNat)
    ⟨_, List.mem_singleton_self _, by rwa [takeWrite_claims]⟩ fun tg' htg' _ => by
      rw [List.map_cons, List.map_nil, List.mem_singleton] at htg'
      rw [htg', hsame]
  exact ⟨t, u, hexec, hexec', hrdata⟩

end Sys2Proof.Machine
end

section
/-! The indirect part of a target (43_phy_wrappers.md R124): what a write to `CMD_REG` and one to `DATA_REG` leave in
its registers, and from the two what a composite write and a composite read do. -/

namespace Sys2Proof.Machine

/-! ### The two registers -/

/-- `TREG` of a target with an indirect part after a write of `w` to `CMD_REG`. -/
def RefTarget.commandTreg (pp : PhyParams) (w : RegWord) (ind : IndirectPart) (t : RefTarget) : Memory :=
  match commandOf pp .rd w with
  | some p => (t.treg.write pp.port.cmdAddr.toNat w).write pp.port.dataAddr.toNat (ind.preg.read p)
  | none => t.treg.write pp.port.cmdAddr.toNat w

/-- `PREG` after a write of `w` to `DATA_REG`. -/
def IndirectPart.dataPreg (pp : PhyParams) (w : RegWord) (ind : IndirectPart) : Memory :=
  match commandOf pp .wr ind.pcmd with
  | some p => ind.preg.write p w
  | none => ind.preg

section Registers

variable {pp : PhyParams} {t : RefTarget} {ind : IndirectPart} {w : RegWord}

theorem takeWrite_command_eq (hc : t.claims pp.port.cmdAddr = true) (hi : t.indirect = some ind) (w : RegWord) :
    t.takeWrite (variantRecord pp.port.bus) pp pp.port.cmdAddr w =
      { t with treg := t.commandTreg pp w ind, indirect := some { ind with pcmd := w } } :=
  takeWrite_command hc hi w

theorem takeWrite_data_eq (hc : t.claims pp.port.dataAddr = true) (hi : t.indirect = some ind)
    (hne : pp.port.cmdAddr ≠ pp.port.dataAddr) (w : RegWord) :
    t.takeWrite (variantRecord pp.port.bus) pp pp.port.dataAddr w =
      { t with treg := t.treg.write pp.port.dataAddr.toNat w,
               indirect := some { ind with preg := ind.dataPreg pp w } } :=
  takeWrite_data hc hi hne w

theorem cmd_ne_data (hne : pp.port.cmdAddr ≠ pp.port.dataAddr) :
    pp.port.cmdAddr.toNat ≠ pp.port.dataAddr.toNat :=
  fun h => hne (BitVec.eq_of_toNat_eq h)

/-- A command to read register `p` puts `PREG[p]` into `TREG[DATA_REG]`. -/
theorem commandTreg_read_data (hwf : t.treg.wf = true) (hinj : InjectiveCommand pp) {p : Nat}
    (hp : p < 2 ^ pp.pregWidth) :
    (t.commandTreg pp (pp.cmdWord .rd p) ind).read pp.port.dataAddr.toNat = ind.preg.read p := by
  rw [RefTarget.commandTreg, commandOf_cmdWord hinj .rd hp]
  exact memory_read_write_same (memory_wf_write hwf _ _) _ _

theorem commandTreg_read_data_other (hwf : t.treg.wf = true) (hne : pp.port.cmdAddr ≠ pp.port.dataAddr)
    (hw : ∀ p < 2 ^ pp.pregWidth, w ≠ pp.cmdWord .rd p) :
    (t.commandTreg pp w ind).read pp.port.dataAddr.toNat = t.treg.read pp.port.dataAddr.toNat := by
  rw [RefTarget.commandTreg, commandOf_other hw]
  exact memory_read_write_other hwf (cmd_ne_data hne).symm _

theorem commandTreg_read_cmd (hwf : t.treg.wf = true) (hne : pp.port.cmdAddr ≠ pp.port.dataAddr) :
    (t.commandTreg pp w ind).read pp.port.cmdAddr.toNat = w := by
  unfold RefTarget.commandTreg
  split
  · rw [memory_read_write_other (memory_wf_write hwf _ _) (cmd_ne_data hne), memory_read_write_same hwf]
  · exact memory_read_write_same hwf _ _

theorem commandTreg_read_other (hwf : t.treg.wf = true) {a : Nat} (hcmd : a ≠ pp.port.cmdAddr.toNat)
    (hdata : a ≠ pp.port.dataAddr.toNat) : (t.commandTreg pp w ind).read a = t.treg.read a := by
  unfold RefTarget.commandTreg
  split
  · rw [memory_read_write_other (memory_wf_write hwf _ _) hdata, memory_read_write_other hwf hcmd]
  · exact memory_read_write_other hwf hcmd _

theorem dataPreg_read (hwf : ind.preg.wf = true) (hinj : InjectiveCommand pp) {p : Nat} (hp : p < 2 ^ pp.pregWidth)
    (hcmd : ind.pcmd = pp.cmdWord .wr p) :
    (ind.dataPreg pp w).read p = w ∧ ∀ q, q ≠ p → (ind.dataPreg pp w).read q = ind.preg.read q := by
  rw [IndirectPart.dataPreg, hcmd, commandOf_cmdWord hinj .wr hp]
  exact ⟨memory_read_write_same hwf _ _, fun q hq => memory_read_write_other hwf hq _⟩

theorem dataPreg_other (hcmd : ∀ p < 2 ^ pp.pregWidth, ind.pcmd ≠ pp.cmdWord .wr p) : ind.dataPreg pp w = ind.preg := by
  rw [IndirectPart.dataPreg, commandOf_other hcmd]

end Registers

/-! ### One bus write -/

/-- A plain bus write on a line that is not stuck, one reference target on the wires. -/
theorem performBusOp_write_target {pp : PhyParams} {v : Variant} {addr : Addr} {w : RegWord} {s : State}
    {old : RefTarget} (h : Ready v s) (hs : (s.bus v).stuck = none) (he : (s.bus v).env = .reference [old]) :
    ∃ t, s.performBusOp pp v .wr addr w = .next t ∧
      (t.bus v).env = .reference [old.takeWrite (variantRecord v) pp addr w] := by
  refine ⟨_, (performBusOp_ready h).trans (congrArg _ (busOp_write pp v addr w s h.2)), ?_⟩
  rw [bus_setBus, afterWrite_env v pp addr w hs he]
  rfl

/-- Settles O36: the target after one write, its registers by `commandTreg` and `dataPreg`. -/
theorem busWriteReachesTheIndirectPart : Obligations.BusWriteReachesTheIndirectPart := by
  refine ⟨fun i v addr data s hi => exec_busWrite hi s, fun pp s w old ind h hs he hwf hi hne hinj => ?_⟩
  have htreg := wf_treg hwf
  refine ⟨fun hc => ?_, fun hc => ?_⟩
  · obtain ⟨t, hnext, henv⟩ := performBusOp_write_target (pp := pp) (addr := pp.port.cmdAddr) (w := w) h hs he
    rw [takeWrite_command_eq hc hi] at henv
    exact ⟨t, _, _, hnext, henv, rfl, rfl, rfl, rfl, commandTreg_read_cmd htreg hne,
      fun p hp hw => by rw [hw]; exact commandTreg_read_data htreg hinj hp,
      fun hw => commandTreg_read_data_other htreg hne hw, fun a hcmd hdata => commandTreg_read_other htreg hcmd hdata⟩
  · obtain ⟨t, hnext, henv⟩ := performBusOp_write_target (pp := pp) (addr := pp.port.dataAddr) (w := w) h hs he
    rw [takeWrite_data_eq hc hi hne] at henv
    exact ⟨t, _, _, hnext, henv, rfl, rfl, rfl, memory_read_write_same htreg _ _,
      fun a ha => memory_read_write_other htreg ha _, fun p hp hcmd => dataPreg_read (wf_preg hwf hi) hinj hp hcmd,
      dataPreg_other⟩

/-! ### A composite write -/

/-- A target after a composite write. -/
def RefTarget.afterComposite (pp : PhyParams) (preg : Nat) (data : RegWord) (t : RefTarget) : RefTarget :=
  (t.takeWrite (variantRecord pp.port.bus) pp pp.port.cmdAddr (pp.cmdWord .wr preg)).takeWrite
    (variantRecord pp.port.bus) pp pp.port.dataAddr data

theorem ready_setBus {v : Variant} {s : State} {b : Bus} (h : Ready v s) (hb : b.eng.busy = false)
    (hp : b.pinsIdle = true) : Ready v (s.setBus v b) := by
  obtain ⟨hm, -⟩ := h
  refine ⟨?_, by rwa [bus_setBus]⟩
  cases v <;> simp_all [State.mayRequest]

/-- The targets after a write that one reference target may take, and a settle delay. -/
theorem afterWrite_delay_env (v : Variant) (pp : PhyParams) (addr : Addr) (data : RegWord) (n : Nat) {b : Bus}
    (hs : b.stuck = none) {old : RefTarget} (he : b.env = .reference [old]) :
    ((b.afterWrite v pp addr data).delay n).env = .reference [old.takeWrite (variantRecord v) pp addr data] := by
  rw [delay_env, afterWrite_env v pp addr data hs he]
  rfl

theorem performComposite_write_target {pp : PhyParams} {preg : Nat} {data : RegWord} {s : State} {old : RefTarget}
    (h : Ready pp.port.bus s) (hs : (s.bus pp.port.bus).stuck = none)
    (he : (s.bus pp.port.bus).env = .reference [old]) :
    ∃ t, s.performComposite pp .wr preg data = .next t ∧
      (t.bus pp.port.bus).env = .reference [old.afterComposite pp preg data] ∧
      Ready pp.port.bus t ∧ (t.bus pp.port.bus).stuck = none ∧ t.returned = s.returned := by
  have hcmd := afterWrite_delay_env pp.port.bus pp pp.port.cmdAddr (pp.cmdWord .wr preg) 200000 hs he
  refine ⟨_, compositeOp_write h preg data, ?_, ready_setBus h rfl h.2, ?_, setBus_returned _ _ _⟩
  · rw [bus_setBus]
    exact afterWrite_delay_env pp.port.bus pp pp.port.dataAddr data 200000 (by exact hs) hcmd
  · rw [bus_setBus]; exact hs

section Composite

variable {pp : PhyParams} {preg : Nat} {data : RegWord} {t : RefTarget} {ind : IndirectPart}

theorem afterComposite_claims (a : Addr) : (t.afterComposite pp preg data).claims a = t.claims a := by
  rw [RefTarget.afterComposite, takeWrite_claims, takeWrite_claims]

theorem afterComposite_unclaimed (hcmd : t.claims pp.port.cmdAddr = false) (hdata : t.claims pp.port.dataAddr = false) :
    t.afterComposite pp preg data = t := by
  rw [RefTarget.afterComposite, takeWrite_unclaimed hcmd, takeWrite_unclaimed hdata]

/-- Without an indirect part a composite write is two writes. -/
theorem afterComposite_plain (hcmd : t.claims pp.port.cmdAddr = true) (hdata : t.claims pp.port.dataAddr = true)
    (hi : t.indirect = none) :
    t.afterComposite pp preg data =
      { t with
        treg := (t.treg.write pp.port.cmdAddr.toNat (pp.cmdWord .wr preg)).write pp.port.dataAddr.toNat data } := by
  rw [RefTarget.afterComposite, takeWrite_plain hcmd (.inl hi)]
  exact takeWrite_plain hdata (.inl hi)

theorem afterComposite_indirect (hcmd : t.claims pp.port.cmdAddr = true) (hdata : t.claims pp.port.dataAddr = true)
    (hi : t.indirect = some ind) (hne : pp.port.cmdAddr ≠ pp.port.dataAddr) :
    t.afterComposite pp preg data =
      { t with
        treg := (t.commandTreg pp (pp.cmdWord .wr preg) ind).write pp.port.dataAddr.toNat data
        indirect := some
          { preg := IndirectPart.dataPreg pp data { ind with pcmd := pp.cmdWord .wr preg }
            pcmd := pp.cmdWord .wr preg } } := by
  rw [RefTarget.afterComposite, takeWrite_command_eq hcmd hi, takeWrite_data_eq (by exact hdata) rfl hne]

/-- After a composite write `PREG[preg]` has the value and `PCMD` the command. -/
theorem afterComposite_preg (hcmd : t.claims pp.port.cmdAddr = true) (hdata : t.claims pp.port.dataAddr = true)
    (hi : t.indirect = some ind) (hne : pp.port.cmdAddr ≠ pp.port.dataAddr) (hinj : InjectiveCommand pp)
    (hp : preg < 2 ^ pp.pregWidth) (hwf : ind.preg.wf = true) :
    ∃ ind', (t.afterComposite pp preg data).indirect = some ind' ∧ ind'.pcmd = pp.cmdWord .wr preg ∧
      ind'.preg.read preg = data ∧ ∀ q, q ≠ preg → ind'.preg.read q = ind.preg.read q := by
  rw [afterComposite_indirect hcmd hdata hi hne]
  exact ⟨_, rfl, rfl, dataPreg_read (by exact hwf) hinj hp rfl⟩

theorem commandTreg_wf (hwf : t.treg.wf = true) (w : RegWord) : (t.commandTreg pp w ind).wf = true := by
  unfold RefTarget.commandTreg
  split
  · exact memory_wf_write (memory_wf_write hwf _ _) _ _
  · exact memory_wf_write hwf _ _

theorem afterComposite_treg (hcmd : t.claims pp.port.cmdAddr = true) (hdata : t.claims pp.port.dataAddr = true)
    (hne : pp.port.cmdAddr ≠ pp.port.dataAddr) (hwf : t.treg.wf = true) :
    (t.afterComposite pp preg data).treg.read pp.port.cmdAddr.toNat = pp.cmdWord .wr preg ∧
      (t.afterComposite pp preg data).treg.read pp.port.dataAddr.toNat = data ∧
      ∀ a, a ≠ pp.port.cmdAddr.toNat → a ≠ pp.port.dataAddr.toNat →
        (t.afterComposite pp preg data).treg.read a = t.treg.read a := by
  cases hi : t.indirect with
  | none =>
    have hwf' := memory_wf_write hwf pp.port.cmdAddr.toNat (pp.cmdWord .wr preg)
    rw [afterComposite_plain hcmd hdata hi]
    refine ⟨?_, memory_read_write_same hwf' _ _, fun a h1 h2 => ?_⟩
    · rw [memory_read_write_other hwf' (cmd_ne_data hne), memory_read_write_same hwf]
    · rw [memory_read_write_other hwf' h2, memory_read_write_other hwf h1]
  | some ind =>
    have hwf' := commandTreg_wf (pp := pp) (ind := ind) hwf (pp.cmdWord .wr preg)
    rw [afterComposite_indirect hcmd hdata hi hne]
    refine ⟨?_, memory_read_write_same hwf' _ _, fun a h1 h2 => ?_⟩
    · rw [memory_read_write_other hwf' (cmd_ne_data hne), commandTreg_read_cmd hwf hne]
    · rw [memory_read_write_other hwf' h2, commandTreg_read_other hwf h1 h2]

end Composite

/-- Settles O37: the target after the two writes of `RefTarget.afterComposite`. -/
theorem compositeWriteReachesPreg : Obligations.CompositeWriteReachesPreg := by
  refine ⟨fun _ _ _ => rfl, fun pp s preg data old h hs he hwf hne hinj hp => ?_⟩
  obtain ⟨t, hnext, henv, -⟩ := performComposite_write_target (preg := preg) (data := data) h hs he
  refine ⟨t, _, hnext, henv, ?_, afterComposite_unclaimed, fun hcmd hdata => ?_⟩
  · rw [RefTarget.afterComposite, takeWrite_claim, takeWrite_claim]
  · obtain ⟨htregCmd, htregData, htregOther⟩ :=
      afterComposite_treg (preg := preg) (data := data) hcmd hdata hne (wf_treg hwf)
    refine ⟨htregCmd, htregData, htregOther, fun hi => ?_, fun ind hi =>
      afterComposite_preg hcmd hdata hi hne hinj hp (wf_preg hwf hi)⟩
    rw [afterComposite_plain hcmd hdata hi]
    exact hi

/-! ### A composite read -/

/-- A composite read is a write of the command and a read of what that leaves in `DATA_REG`. -/
theorem performComposite_read_target {pp : PhyParams} {preg : Nat} {s : State} {old : RefTarget}
    (h : Ready pp.port.bus s) (hs : (s.bus pp.port.bus).stuck = none)
    (he : (s.bus pp.port.bus).env = .reference [old]) :
    ∃ t new, s.performComposite pp .rd preg 0 = .next t ∧
      new = old.takeWrite (variantRecord pp.port.bus) pp pp.port.cmdAddr (pp.cmdWord .rd preg) ∧
      (t.bus pp.port.bus).env = .reference [new] ∧
      (old.claims pp.port.dataAddr = true →
        (t.bus pp.port.bus).eng.rdata = new.treg.read pp.port.dataAddr.toNat ∧
        t.returned = s.returned ++ [(pp.port.bus, new.treg.read pp.port.dataAddr.toNat)]) := by
  have hcmd := afterWrite_delay_env pp.port.bus pp pp.port.cmdAddr (pp.cmdWord .rd preg) 200000 hs he
  obtain ⟨heard, hnext⟩ := compositeOp_read h preg 0
  refine ⟨_, _, hnext, rfl, ?_, fun hc => ?_⟩
  · rw [bus_setBus_withReturned]; exact hcmd
  · have hval := readSamples_agree (V := variantRecord pp.port.bus) (addr := pp.port.dataAddr)
      (b := ((s.bus pp.port.bus).afterWrite pp.port.bus pp pp.port.cmdAddr (pp.cmdWord .rd preg)).delay 200000)
      (by exact hs) hcmd ⟨_, List.mem_singleton_self _, by rwa [takeWrite_claims]⟩
      (fun tg htg _ => by rw [List.mem_singleton.1 htg])
    rw [bus_setBus_withReturned]
    exact ⟨hval _, congrArg (fun x => s.returned ++ [(pp.port.bus, x)]) (hval _)⟩

/-- Settles O58: the command fills `DATA_REG`, with an indirect part, and the read returns it. -/
theorem compositeReadReturnsPreg : Obligations.CompositeReadReturnsPreg := by
  refine ⟨fun _ _ => rfl, fun pp s preg old h hs he hwf hne hinj hp => ?_⟩
  obtain ⟨t, new, hnext, hnew, henv, hvalue⟩ := performComposite_read_target (preg := preg) h hs he
  have htreg := wf_treg hwf
  refine ⟨t, new, hnext, henv, by rw [hnew, takeWrite_claim], fun hcmd _ => by rw [hnew, takeWrite_unclaimed hcmd],
    fun hcmd hdata => ?_⟩
  obtain ⟨hrdata, hreturned⟩ := hvalue hdata
  rw [hrdata, hreturned]
  cases hi : old.indirect with
  | none =>
    have hsame := memory_read_write_other htreg (cmd_ne_data hne).symm (pp.cmdWord .rd preg)
    rw [hnew, takeWrite_plain hcmd (.inl hi)]
    exact ⟨memory_read_write_same htreg _ _, fun a h1 _ => memory_read_write_other htreg h1 _,
      fun _ => ⟨hi, hsame, hsame⟩, nofun⟩
  | some ind =>
    have hpreg := commandTreg_read_data (ind := ind) htreg hinj hp
    rw [hnew, takeWrite_command_eq hcmd hi]
    refine ⟨commandTreg_read_cmd htreg hne, fun a h1 h2 => commandTreg_read_other htreg h1 h2, nofun, ?_⟩
    rintro _ ⟨⟩
    exact ⟨hpreg, hpreg, by rw [hpreg], _, rfl, rfl, rfl⟩

/-- Settles O38: the composite write meets the premises of the composite read, with the value in `PREG`. -/
theorem compositeRoundTrip : Obligations.CompositeRoundTrip := by
  refine ⟨fun _ _ => rfl, fun pp s preg data tg ind h hs he hwf hi hcmd hdata hne hinj hp => ?_⟩
  obtain ⟨t, hnext, henv, hready, hstuck, hreturned⟩ :=
    performComposite_write_target (preg := preg) (data := data) h hs he
  obtain ⟨ind', hi', -, hpreg, -⟩ :=
    afterComposite_preg (data := data) hcmd hdata hi hne hinj hp (wf_preg hwf hi)
  have hwf' : (tg.afterComposite pp preg data).wf = true := wf_takeWrite (wf_takeWrite hwf)
  obtain ⟨u, new, hnext', -, -, -, hboth⟩ :=
    compositeReadReturnsPreg.2 pp t preg _ hready hstuck henv hwf' hne hinj hp
  obtain ⟨-, -, -, hind⟩ := hboth (by rwa [afterComposite_claims]) (by rwa [afterComposite_claims])
  obtain ⟨-, hrdata, hreturned', -⟩ := hind ind' hi'
  exact ⟨t, u, hnext, hnext', by rw [hrdata, hpreg], by rw [hreturned', hreturned, hpreg]⟩

end Sys2Proof.Machine
end

section
/-! What an operation does not depend on: the targets (a write), the old `RDATA` (a read), the other instance, and the
turnaround levels of a write. -/

namespace Sys2Proof.Machine

/-- Settles O39: the engine and the trace of `Bus.afterWrite` are functions of the engine and the trace before. -/
theorem writeDoesNotDependOnTheTarget : Obligations.WriteDoesNotDependOnTheTarget := by
  intro i v addr data s s' hi h h' heng htrace
  refine ⟨_, _, exec_write_next hi h, exec_write_next hi h', ?_, ?_⟩
  · rw [bus_setBus, bus_setBus, Bus.afterWrite, Bus.afterWrite, heng]
  · rw [bus_setBus, bus_setBus, Bus.afterWrite, Bus.afterWrite, htrace]

/-! ### The old `RDATA` -/

/-- An instance with other bits in `RDATA`. -/
def Bus.withRdata (x : RegWord) (b : Bus) : Bus := { b with eng := { b.eng with rdata := x } }

theorem perform_withRdata (V : VariantRecord) (t : Drive) (a : CellAction) (b : Bus) (x : RegWord) :
    ∃ y, (b.withRdata x).perform V t a = (b.perform V t a).withRdata y := by
  cases a with
  | recv =>
    refine ⟨shiftIn x (b.toInput.line V t), ?_⟩
    simp only [Bus.perform, recvBit_eq, line_toInput]
    rfl
  | _ => exact ⟨x, rfl⟩

theorem cellStep_withRdata (V : VariantRecord) (pp : PhyParams) (b : Bus) (x : RegWord) :
    ∃ y, (b.withRdata x).cellStep V pp = (b.cellStep V pp).withRdata y := by
  obtain ⟨y, hy⟩ := perform_withRdata V (b.drive V b.eng.idx.toNat)
    (cellAction V b.eng.dir b.eng.addr b.eng.wdata b.eng.idx.toNat) b x
  exact ⟨y, congrArg (fun b' => Bus.advance (Bus.commit V pp b.eng.idx.toNat (Bus.hear V b.eng.idx.toNat b'))) hy⟩

theorem cells_withRdata (V : VariantRecord) (pp : PhyParams) (n : Nat) (b : Bus) (x : RegWord) :
    ∃ y, (b.withRdata x).cells V pp n = (b.cells V pp n).withRdata y := by
  induction n generalizing b x with
  | zero => exact ⟨x, rfl⟩
  | succ n ih =>
    obtain ⟨y, hy⟩ := cellStep_withRdata V pp b x
    rw [cells_succ, cells_succ, hy]
    exact ih _ y

theorem runFrame_heard_withRdata (V : VariantRecord) (pp : PhyParams) (dir : Dir) (addr : Addr) (wdata : RegWord)
    (b : Bus) (x : RegWord) :
    ((b.withRdata x).runFrame V pp dir addr wdata).heard = (b.runFrame V pp dir addr wdata).heard := by
  obtain ⟨y, hy⟩ := cells_withRdata V pp V.nCells (b.startStep V dir addr wdata) x
  have hstart : (b.withRdata x).startStep V dir addr wdata = (b.startStep V dir addr wdata).withRdata x := rfl
  rw [Bus.runFrame, hstart, hy]
  rfl

theorem busOp_heard (pp : PhyParams) (v : Variant) (dir : Dir) (addr : Addr) (wdata : RegWord) (s : State) :
    ((s.busOp pp v dir addr wdata).bus v).heard =
      ((s.bus v).runFrame (variantRecord v) pp dir addr wdata).heard := by
  rw [State.busOp, finish_bus, finishStep_eq, bus_setBus]

/-- Sixteen samples push out whatever `RDATA` held. -/
theorem afterRead_withRdata (v : Variant) (addr : Addr) (heard : Heard) (b : Bus) (x : RegWord) :
    (b.withRdata x).afterRead v addr heard = b.afterRead v addr heard := by
  have hpush : (readSamples (variantRecord v) addr b).foldl shiftIn x =
      (readSamples (variantRecord v) addr b).foldl shiftIn b.eng.rdata :=
    msbFirst_injective (by rw [msbFirst_read_samples, msbFirst_read_samples])
  unfold Bus.afterRead
  rw [← hpush]
  rfl

/-- Settles O40: the result holds the samples alone, and what is heard does not come from `RDATA`. -/
theorem readDoesNotDependOnOldRdata : Obligations.ReadDoesNotDependOnOldRdata := by
  intro i v addr s old hi h
  have h' : Ready v (s.setBus v ((s.bus v).withRdata old)) := ready_setBus h (mayRequest_idle h.1 v) h.2
  obtain ⟨heard, -, hop⟩ := busOp_read Config.phyParams v addr 0 s h.2
  obtain ⟨heard', -, hop'⟩ := busOp_read Config.phyParams v addr 0 _ h'.2
  have hheard : heard' = heard := by
    have h1 := congrArg (fun t => (t.bus v).heard) hop
    have h2 := congrArg (fun t => (t.bus v).heard) hop'
    simp only [busOp_heard, bus_setBus, runFrame_heard_withRdata, afterRead_bus, Bus.afterRead] at h1 h2
    exact h2.symm.trans h1
  refine ⟨_, _, (exec_busRead hi s).trans (performBusOp_ready h), (exec_busRead hi _).trans (performBusOp_ready h'),
    hop.trans (.trans ?_ hop'.symm)⟩
  rw [hheard, State.afterRead, State.afterRead, bus_setBus, afterRead_withRdata, setBus_setBus,
    setBus_returned]

/-! ### The other instance -/

theorem setBus_comm {v w : Variant} (h : w ≠ v) (b c : Bus) (s : State) :
    (s.setBus w b).setBus v c = (s.setBus v c).setBus w b := by
  cases v <;> cases w <;> simp_all

theorem finish_setBus_of_ne {v w : Variant} (h : w ≠ v) (b : Bus) (s : State) :
    (s.setBus w b).finish v = (s.finish v).setBus w b := by
  unfold State.finish
  rw [bus_setBus_of_ne h.symm, setBus_comm h]
  cases (s.bus v).eng.dir
  · cases v <;> cases w <;> rfl
  · rfl

theorem busOp_setBus_of_ne (pp : PhyParams) {v w : Variant} (h : w ≠ v) (dir : Dir) (addr : Addr) (wdata : RegWord)
    (b : Bus) (s : State) :
    (s.setBus w b).busOp pp v dir addr wdata = (s.busOp pp v dir addr wdata).setBus w b := by
  rw [State.busOp, bus_setBus_of_ne h.symm, setBus_comm h, finish_setBus_of_ne h, State.busOp]

theorem ready_setBus_of_ne {v w : Variant} (hne : w ≠ v) {s : State} {b : Bus} (h : Ready v s)
    (hb : b.eng.busy = false) : Ready v (s.setBus w b) := by
  obtain ⟨hm, hp⟩ := h
  refine ⟨?_, by rwa [bus_setBus_of_ne hne.symm]⟩
  cases w <;> simp_all [State.mayRequest]

/-- Settles O41: `State.busOp` reads and replaces one instance, so it commutes with replacing the other. -/
theorem operationIgnoresTheOtherInstance : Obligations.OperationIgnoresTheOtherInstance := by
  intro i v w addr data s b hi hne h hb
  obtain ⟨dir, wdata, hexec, -⟩ := exec_request_busOperation hi
  refine ⟨_, (hexec s).trans (performBusOp_ready h), ?_, ?_⟩
  · rw [State.busOp, finish_bus_of_ne hne, bus_setBus_of_ne hne]
  · rw [hexec, performBusOp_ready (ready_setBus_of_ne hne h hb), busOp_setBus_of_ne _ hne]

/-! ### The turnaround levels -/

/-- What the targets make of a write frame comes from the other cells (20_memory.md R48). -/
theorem heardAfter_taWr (V : VariantRecord) (ta : Level × Level) (addr : Addr) (data : RegWord) (stuck : Option Level)
    (h : Heard) :
    heardAfter { V with taWr := ta } .wr addr data stuck h (V.preLen + 32) =
      heardAfter V .wr addr data stuck h (V.preLen + 32) := by
  cases stuck with
  | some l => rfl
  | none => exact (heard_write { V with taWr := ta } addr data h).trans (heard_write V addr data h).symm

/-- Settles O42: `busWrite_eq` for both records. -/
theorem turnaroundLevelsDoNotMatter : Obligations.TurnaroundLevelsDoNotMatter := by
  intro v pp b addr data ta hclk
  have hta := busWrite_eq (V := { variantRecord v with taWr := ta }) (pp := pp) (nCells_eq v) (preLen_le v) hclk
    addr data
  rw [hta, busWrite_eq (nCells_eq v) (preLen_le v) hclk]
  refine ⟨?_, rfl⟩
  rw [heardAfter_taWr]
  rfl

end Sys2Proof.Machine
end

section
/-! A composite one step at a time (43_phy_wrappers.md R121, R122): each of its bus operations is presented and run cell
by cell, each settle delay is a step of its own. -/

namespace Sys2Proof.Machine

/-! ### What is left of the composite stands beside the instances -/

/-- The machine with these parts of a composite left. -/
def State.withTodo (todo : List HostAction) (s : State) : State := { s with todo := todo }

@[simp] theorem withTodo_bus (v : Variant) (todo : List HostAction) (s : State) :
    (s.withTodo todo).bus v = s.bus v :=
  bus_withTodo v s todo

theorem withTodo_self {s : State} {todo : List HostAction} (h : s.todo = todo) : s.withTodo todo = s := by
  subst h; rfl

theorem setBus_withTodo (v : Variant) (b : Bus) (todo : List HostAction) (s : State) :
    (s.withTodo todo).setBus v b = (s.setBus v b).withTodo todo := by
  cases v <;> rfl

theorem finish_withTodo (v : Variant) (todo : List HostAction) (s : State) :
    (s.withTodo todo).finish v = (s.finish v).withTodo todo := by
  unfold State.finish
  rw [withTodo_bus, setBus_withTodo]
  cases (s.bus v).eng.dir <;> rfl

theorem busOp_withTodo (pp : PhyParams) (v : Variant) (dir : Dir) (addr : Addr) (wdata : RegWord)
    (todo : List HostAction) (s : State) :
    (s.withTodo todo).busOp pp v dir addr wdata = (s.busOp pp v dir addr wdata).withTodo todo := by
  rw [State.busOp, withTodo_bus, setBus_withTodo, finish_withTodo, State.busOp]

theorem settle_withTodo (v : Variant) (todo : List HostAction) (s : State) :
    (s.withTodo todo).settle v = (s.settle v).withTodo todo := by
  cases v <;> rfl

theorem step_withTodo {s : State} (hr : s.resetIn = false) (hb : ∀ w, (s.bus w).eng.busy = false) (a : HostAction)
    (rest : List HostAction) : step (s.withTodo (a :: rest)) = State.hostAction a (s.withTodo rest) :=
  step_todo (s := s.withTodo (a :: rest)) hr (fun w => by rw [withTodo_bus]; exact hb w) rfl

theorem busOp_resetIn (pp : PhyParams) (v : Variant) (dir : Dir) (addr : Addr) (wdata : RegWord) (s : State) :
    (s.busOp pp v dir addr wdata).resetIn = s.resetIn := by
  unfold State.busOp State.finish
  rw [bus_setBus, runFrame_dir]
  cases dir <;> simp

theorem busOp_todo (pp : PhyParams) (v : Variant) (dir : Dir) (addr : Addr) (wdata : RegWord) (s : State) :
    (s.busOp pp v dir addr wdata).todo = s.todo := by
  rw [State.busOp, finish_todo, setBus_todo]

/-- Where nothing is busy and the pins of the instance are idle, so they are after a bus operation. -/
theorem busOp_idle (pp : PhyParams) {v : Variant} (dir : Dir) (addr : Addr) (wdata : RegWord) {s : State}
    (hb : ∀ w, (s.bus w).eng.busy = false) (hp : (s.bus v).pinsIdle = true) :
    (∀ w, ((s.busOp pp v dir addr wdata).bus w).eng.busy = false) ∧
      ((s.busOp pp v dir addr wdata).bus v).pinsIdle = true := by
  refine ⟨fun w => ?_, ?_⟩
  · by_cases hw : w = v
    · subst hw; rw [State.busOp, finish_bus, finishStep_eq]; rfl
    · rw [State.busOp, finish_bus_of_ne hw, bus_setBus_of_ne hw]; exact hb w
  · cases dir with
    | wr => rw [busOp_write pp v addr wdata s hp, bus_setBus]; exact hp
    | rd =>
      obtain ⟨heard, -, hread⟩ := busOp_read pp v addr wdata s hp
      rw [hread, afterRead_bus]; exact hp

theorem settle_idle {v : Variant} {s : State} (hb : ∀ w, (s.bus w).eng.busy = false) (hp : (s.bus v).pinsIdle = true) :
    (∀ w, ((s.settle v).bus w).eng.busy = false) ∧ ((s.settle v).bus v).pinsIdle = true := by
  refine ⟨fun w => ?_, by rw [State.settle, bus_setBus]; exact hp⟩
  by_cases hw : w = v
  · subst hw; rw [State.settle, bus_setBus]; exact hb w
  · rw [State.settle, bus_setBus_of_ne hw]; exact hb w

/-! ### The runs -/

/-- A step that presents a bus operation, and the operation's cells and finish after it. -/
theorem run_presented {v : Variant} {s s' : State} {dir : Dir} {addr : Addr} {wdata : RegWord}
    (hb : ∀ w, (s.bus w).eng.busy = false) (hp : (s.bus v).pinsIdle = true) (hr : s.resetIn = false)
    (hstep : step s' = s.start v dir addr wdata) :
    run ((variantRecord v).nCells + 2) s' = .next (s.busOp Config.phyParams v dir addr wdata) := by
  obtain ⟨-, hall⟩ := run_started (v := v) (s := s) (dir := dir) (addr := addr) (wdata := wdata) hb hr
  rw [show (variantRecord v).nCells + 2 = 1 + ((variantRecord v).nCells + 1) by omega,
    run_add _ (run_one (hstep.trans (start_ready hp _ _ _))), hall]

/-- The composite whose parts are these, performed and requested. -/
theorem exec_request_composite {i : Instr} (h : ∃ preg data, i = .phyWr preg data ∨ i = .phyRd preg) :
    ∃ dir preg data, (∀ s, exec i s = s.performComposite Config.phyParams dir preg data) ∧
      ∀ s, State.request i s = s.requestComposite Config.phyParams dir preg data := by
  obtain ⟨preg, data, rfl | rfl⟩ := h
  · exact ⟨.wr, preg, data, fun _ => rfl, fun _ => rfl⟩
  · exact ⟨.rd, preg, 0, fun _ => rfl, fun _ => rfl⟩

/-- The machine after the first bus write of a composite. -/
def State.afterCommand (pp : PhyParams) (dir : Dir) (preg : Nat) (s : State) : State :=
  s.busOp pp pp.port.bus .wr pp.port.cmdAddr (pp.cmdWord dir preg)

/-- The machine after the second bus operation of a composite. -/
def State.afterAccess (pp : PhyParams) (dir : Dir) (preg : Nat) (data : RegWord) (s : State) : State :=
  ((s.afterCommand pp dir preg).settle pp.port.bus).busOp pp pp.port.bus dir pp.port.dataAddr data

/-- A settle delay that is next is a step of its own. -/
theorem run_settle {s : State} (hr : s.resetIn = false) (hb : ∀ w, (s.bus w).eng.busy = false) (v : Variant)
    (rest : List HostAction) : run 1 (s.withTodo (.settle v :: rest)) = .next ((s.settle v).withTodo rest) := by
  refine run_one ?_
  rw [step_withTodo hr hb, State.hostAction, settle_withTodo]

/-- A bus operation that starts beside the rest of a composite, run to its finish. -/
theorem run_presented_withTodo {v : Variant} {s s' : State} {dir : Dir} {addr : Addr} {wdata : RegWord}
    {rest : List HostAction} (hr : s.resetIn = false) (hb : ∀ w, (s.bus w).eng.busy = false)
    (hp : (s.bus v).pinsIdle = true) (hstep : step s' = (s.withTodo rest).start v dir addr wdata) :
    run ((variantRecord v).nCells + 2) s' =
      .next ((s.busOp Config.phyParams v dir addr wdata).withTodo rest) := by
  rw [← busOp_withTodo]
  exact run_presented (fun w => by rw [withTodo_bus]; exact hb w) (by rwa [withTodo_bus]) hr hstep

section Composite

variable {dir : Dir} {preg : Nat} {data : RegWord} {s : State} (hb : ∀ w, (s.bus w).eng.busy = false)
  (hp : (s.bus Config.phyParams.port.bus).pinsIdle = true)

include hb hp

theorem afterCommand_settle_idle :
    (∀ w, ((s.afterCommand Config.phyParams dir preg).bus w).eng.busy = false) ∧
    (∀ w, (((s.afterCommand Config.phyParams dir preg).settle Config.phyParams.port.bus).bus w).eng.busy = false) ∧
    (((s.afterCommand Config.phyParams dir preg).settle Config.phyParams.port.bus).bus
      Config.phyParams.port.bus).pinsIdle = true := by
  obtain ⟨hb1, hp1⟩ := busOp_idle Config.phyParams .wr Config.phyParams.port.cmdAddr (Config.phyParams.cmdWord dir preg)
    hb hp
  exact ⟨hb1, settle_idle hb1 hp1⟩

theorem afterAccess_idle : ∀ w, ((s.afterAccess Config.phyParams dir preg data).bus w).eng.busy = false := by
  obtain ⟨-, hb2, hp2⟩ := afterCommand_settle_idle (dir := dir) (preg := preg) hb hp
  exact (busOp_idle Config.phyParams dir Config.phyParams.port.dataAddr data hb2 hp2).1

/-- From the end of the first bus write to the end of the second operation. -/
theorem run_settle_access (hr : s.resetIn = false) (rest : List HostAction) :
    run (1 + ((variantRecord Config.phyParams.port.bus).nCells + 2))
        ((s.afterCommand Config.phyParams dir preg).withTodo (.settle Config.phyParams.port.bus ::
          .present Config.phyParams.port.bus dir Config.phyParams.port.dataAddr data :: rest)) =
      .next ((s.afterAccess Config.phyParams dir preg data).withTodo rest) := by
  obtain ⟨hb1, hb2, hp2⟩ := afterCommand_settle_idle (dir := dir) (preg := preg) hb hp
  have hr1 : (s.afterCommand Config.phyParams dir preg).resetIn = false := (busOp_resetIn _ _ _ _ _ _).trans hr
  have hr2 : ((s.afterCommand Config.phyParams dir preg).settle Config.phyParams.port.bus).resetIn = false :=
    (setBus_resetIn _ _ _).trans hr1
  rw [run_add _ (run_settle hr1 hb1 _ _)]
  exact run_presented_withTodo hr2 hb2 hp2 (step_withTodo hr2 hb2 _ _)

end Composite

/-- Settles O44: two presented operations and two settle delays, the rest of the composite at each cut. -/
theorem compositeRunsStepByStep : Obligations.CompositeRunsStepByStep := by
  intro i s rest hi hw h hr
  obtain ⟨dir, preg, data, hexec, hrequest⟩ := exec_request_composite hi
  obtain ⟨hmay, hp⟩ := ready_withProgram rest h
  have hb := mayRequest_idle hmay
  have hline l := step_withProgram hr h.1 l rest
  have hop : step { s with program := .op (encode i) :: rest } =
      .next (State.compositeOp Config.phyParams dir preg data { s with program := rest }) := by
    rw [hline, State.hostLine, withDecoded_encode hw, hexec, State.performComposite, whenIdle_ready hmay hp]
  have hfirst : run ((variantRecord Config.phyParams.port.bus).nCells + 2)
      { s with program := .request (encode i) :: rest } =
      .next ((State.afterCommand Config.phyParams dir preg { s with program := rest }).withTodo
        [.settle Config.phyParams.port.bus,
          .present Config.phyParams.port.bus dir Config.phyParams.port.dataAddr data,
          .settle Config.phyParams.port.bus]) := by
    refine run_presented_withTodo hr hb hp ?_
    rw [hline, State.hostLine, withDecoded_encode hw, hrequest, State.requestComposite, if_pos hmay]
    rfl
  have hsecond := (run_add _ hfirst).trans (run_settle_access (dir := dir) (preg := preg) (data := data) hb hp hr _)
  have hb1 := (afterCommand_settle_idle (dir := dir) (preg := preg) hb hp).1
  have hb3 := afterAccess_idle (dir := dir) (preg := preg) (data := data) hb hp
  have hr3 : (State.afterAccess Config.phyParams dir preg data { s with program := rest }).resetIn = false := by
    rw [State.afterAccess, busOp_resetIn, State.settle, setBus_resetIn, State.afterCommand, busOp_resetIn]
    exact hr
  have hlast := (run_add _ hsecond).trans (run_settle hr3 hb3 Config.phyParams.port.bus [])
  have hdone : (State.compositeOp Config.phyParams dir preg data { s with program := rest }).todo = [] := by
    rw [State.compositeOp, State.settle, setBus_todo, busOp_todo, State.settle, setBus_todo, busOp_todo]
    exact mayRequest_todo hmay
  have hsteps : 2 * ((variantRecord Config.phyParams.port.bus).nCells + 2) + 1 =
      (variantRecord Config.phyParams.port.bus).nCells + 2 +
        (1 + ((variantRecord Config.phyParams.port.bus).nCells + 2)) := by omega
  rw [← hsteps] at hsecond hlast
  exact ⟨_, _, _, hop, hlast.trans (congrArg _ (withTodo_self hdone)), hfirst, hb1 .mdio, hb1 .tws, rfl,
    hsecond, hb3 .mdio, hb3 .tws, rfl⟩

end Sys2Proof.Machine
end
